-- ==== Sys2Proof/Word.lean ====
section
/-!
DEFINITION. The word types of the block (00_scope.md R8). A signed field is held as its bit pattern; its value is the
two's complement reading of the pattern (20_memory.md R62, log 12).
-/

namespace Sys2Proof

/-- `u8`: a byte of a frame, a payload or a register. -/
abbrev Byte := BitVec 8

/-- `u16`: a function id, a V2 length, a payload address. -/
abbrev U16 := BitVec 16

/-- 17-bit unsigned: `FB_LEN`, `FR_SIZE` and the index of `FB_RD` (10_state.md R20). -/
abbrev U17 := BitVec 17

/-- The pattern of an `i16`; its value is `BitVec.toInt`. -/
abbrev I16 := BitVec 16

/-- The pattern of an `i32`; its value is `BitVec.toInt`. -/
abbrev I32 := BitVec 32

end Sys2Proof
end

