-- ==== Sys2Proof/Config.lean ====
section
/-!
DEFINITION. The implementation parameters of 00_scope.md R5 and the fixed bytes of a frame (R10).
`SETWP_ID` is a register, not a constant (10_state.md R21, R32). `HOSTOP_PACKING` is open (log 1).
-/

namespace Sys2Proof.Config

/-- `CRC_POLY`, R5. -/
def crcPoly : Byte := 0xD5

/-- `CRC_INIT`, R5. -/
def crcInit : Byte := 0x00

/-- `V1_MAX_PAYLOAD`, R5. -/
def v1MaxPayload : Nat := 255

/-- `V2_MAX_PAYLOAD`, R5. -/
def v2MaxPayload : Nat := 65535

/-- `V1_MAX_FUNC`, R5. -/
def v1MaxFunc : Nat := 255

/-- `V2_MAX_FUNC`, R5. -/
def v2MaxFunc : Nat := 65535

/-- `V2_FLAG_TX`, R5: the flag byte the encoder emits. -/
def v2FlagTx : Byte := 0x00

/-- `EEPROM_WRITE_ID`, R5. -/
def eepromWriteId : U16 := 250

/-- `RAW_IMU_ID`, R5. -/
def rawImuId : U16 := 102

/-- `RC_ID`, R5. -/
def rcId : U16 := 105

/-- `RC_CHANNELS`, R5. -/
def rcChannels : Nat := 17

/-- `SETWP_SIZE`, R5. -/
def setwpSize : Nat := 21

/-- `RAW_IMU_SIZE`, R5: the least RAW_IMU payload. -/
def rawImuSize : Nat := 12

/-- `RC_SIZE`, R5. -/
def rcSize : Nat := 34

/-- `FLAG_LAST`, R5. -/
def flagLast : Byte := 0xA5

/-- `ACTION_WAYPOINT`, R5. -/
def actionWaypoint : Byte := 0x01

/-- `ACTION_RTH`, R5. -/
def actionRth : Byte := 0x04

/-- `FB_SIZE`, R5: the longest V2 frame. -/
def fbSize : Nat := 65544

/-- `PB_SIZE`, R5. -/
def pbSize : Nat := 65535

/-- `$`, `M`, `X`, `<`, `>`, `!` as bytes (R10; PRESUMED, the spec's own general knowledge G1, log 10). -/
def dollar : Byte := 0x24
@[inherit_doc dollar] def markV1 : Byte := 0x4D
@[inherit_doc dollar] def markV2 : Byte := 0x58
@[inherit_doc dollar] def markRequest : Byte := 0x3C
@[inherit_doc dollar] def markResponse : Byte := 0x3E
@[inherit_doc dollar] def markError : Byte := 0x21

/-- The scale factors `ACC_SCALE` and `GYRO_SCALE`, which the model takes as an argument (R5, U2, log 15). -/
structure Scales where
  acc : Rat := 512
  gyro : Rat := 4
  deriving DecidableEq, Repr

/-- U2: both factors are positive rationals. -/
abbrev Scales.Positive (c : Scales) : Prop := 0 < c.acc ∧ 0 < c.gyro

end Sys2Proof.Config
end

