-- ==== Sys2Proof/Syntax.lean ====
section
/-!
DEFINITION. The instructions: one constructor per row of spec/opcode_table.json, 18 frames on the wire (level W) and
20 host operations (level H) (00_scope.md R7), in the table's order, with the records their operands are made of.
-/

namespace Sys2Proof

/-- The two protocol generations; also the two checksum algorithms, numbered alike (30_encoding.md R103):
0 is V1 (XOR fold), 1 is V2 (CRC-8/DVB-S2). -/
inductive Version where
  | v1 | v2
  deriving DecidableEq, Repr

/-- The three directions of a frame (R93). Number 3 is no direction. -/
inductive Direction where
  | request | response | error
  deriving DecidableEq, Repr

/-- The Frame record (41_frame_codec.md R160). A V1 frame has flag 0x00 and a function id of at most 255. -/
structure Frame where
  version : Version
  direction : Direction
  flag : Byte
  func : U16
  payload : List Byte
  checksum : Byte
  deriving DecidableEq, Repr

/-- The nine fields of the SET_WP payload (42_command_registry.md R193), also the WP register file (10_state.md R29). -/
structure Waypoint where
  index : Byte
  action : Byte
  lat : I32
  lon : I32
  alt : I32
  p1 : I16
  p2 : I16
  p3 : I16
  flags : Byte
  deriving DecidableEq, Repr

/-- The six fields of the RAW_IMU payload (R195), also the IMU register file (10_state.md R30). -/
structure ImuSample where
  ax : I16
  ay : I16
  az : I16
  gx : I16
  gy : I16
  gz : I16
  deriving DecidableEq, Repr

/-- The 17 fields of the RC payload (R196), also the RC register file (10_state.md R31): roll, pitch, yaw, throttle, and 13
auxiliary channels. -/
structure RcSample where
  ch0 : I16
  ch1 : I16
  ch2 : I16
  ch3 : I16
  ch4 : I16
  ch5 : I16
  ch6 : I16
  ch7 : I16
  ch8 : I16
  ch9 : I16
  ch10 : I16
  ch11 : I16
  ch12 : I16
  ch13 : I16
  ch14 : I16
  ch15 : I16
  ch16 : I16
  deriving DecidableEq, Repr

/-- One constructor per row of spec/opcode_table.json.

Level W: the operands are what the row leaves free: the V2 flag byte, the function id of the ERROR and SET_WP rows, the payload
bytes (their count is the length field, 30_encoding.md R95) and the checksum byte as received.
Level H: the operands of R102, in its order. -/
inductive Instr where
  | errorV1 (func : Byte) (payload : List Byte) (ck : Byte)
  | errorV2 (flag : Byte) (func : U16) (payload : List Byte) (ck : Byte)
  | eepromWriteV1 (payload : List Byte) (ck : Byte)
  | rawImuReqV1 (payload : List Byte) (ck : Byte)
  | rcReqV1 (payload : List Byte) (ck : Byte)
  | rawImuV1 (payload : List Byte) (ck : Byte)
  | rcV1 (payload : List Byte) (ck : Byte)
  | eepromWriteAckV1 (payload : List Byte) (ck : Byte)
  | eepromWriteV2 (flag : Byte) (payload : List Byte) (ck : Byte)
  | rawImuReqV2 (flag : Byte) (payload : List Byte) (ck : Byte)
  | rcReqV2 (flag : Byte) (payload : List Byte) (ck : Byte)
  | rawImuV2 (flag : Byte) (payload : List Byte) (ck : Byte)
  | rcV2 (flag : Byte) (payload : List Byte) (ck : Byte)
  | eepromWriteAckV2 (flag : Byte) (payload : List Byte) (ck : Byte)
  | setWpV1 (func : Byte) (payload : List Byte) (ck : Byte)
  | setWpAckV1 (func : Byte) (payload : List Byte) (ck : Byte)
  | setWpV2 (flag : Byte) (func : U16) (payload : List Byte) (ck : Byte)
  | setWpAckV2 (flag : Byte) (func : U16) (payload : List Byte) (ck : Byte)
  | csInit (mode : Version)
  | csUpd (b : Byte)
  | csRd
  | csCmp (b : Byte)
  | enc (ver : Version) (dir : BitVec 2) (func : U16)
  | dec
  | packSetWp (w : Waypoint)
  | packEepromWrite
  | packRawImu (m : ImuSample)
  | packRc (c : RcSample)
  | unpack
  | fbClr
  | fbPush (b : Byte)
  | fbRd (i : U17)
  | pbClr
  | pbPush (b : Byte)
  | pbRd (i : U16)
  | rd (reg : Byte)
  | cfgSetwpId (v : U16)
  | reset
  deriving DecidableEq, Repr

/-- What the host presents at the port, before it is read as an instruction: one packed host operation (level H; the packing is
the model's, log 1), or the bytes received for one frame (level W). -/
inductive Packet where
  | operation (bytes : List Byte)
  | frame (bytes : List Byte)
  deriving DecidableEq, Repr

/-- The row's mnemonic in spec/opcode_table.json. -/
def Instr.mnemonic : Instr → String
  | .errorV1 _ _ _ => "ERROR.V1"
  | .errorV2 _ _ _ _ => "ERROR.V2"
  | .eepromWriteV1 _ _ => "EEPROM_WRITE.V1"
  | .rawImuReqV1 _ _ => "RAW_IMU.REQ.V1"
  | .rcReqV1 _ _ => "RC.REQ.V1"
  | .rawImuV1 _ _ => "RAW_IMU.V1"
  | .rcV1 _ _ => "RC.V1"
  | .eepromWriteAckV1 _ _ => "EEPROM_WRITE.ACK.V1"
  | .eepromWriteV2 _ _ _ => "EEPROM_WRITE.V2"
  | .rawImuReqV2 _ _ _ => "RAW_IMU.REQ.V2"
  | .rcReqV2 _ _ _ => "RC.REQ.V2"
  | .rawImuV2 _ _ _ => "RAW_IMU.V2"
  | .rcV2 _ _ _ => "RC.V2"
  | .eepromWriteAckV2 _ _ _ => "EEPROM_WRITE.ACK.V2"
  | .setWpV1 _ _ _ => "SET_WP.V1"
  | .setWpAckV1 _ _ _ => "SET_WP.ACK.V1"
  | .setWpV2 _ _ _ _ => "SET_WP.V2"
  | .setWpAckV2 _ _ _ _ => "SET_WP.ACK.V2"
  | .csInit _ => "CS_INIT"
  | .csUpd _ => "CS_UPD"
  | .csRd => "CS_RD"
  | .csCmp _ => "CS_CMP"
  | .enc _ _ _ => "ENC"
  | .dec => "DEC"
  | .packSetWp _ => "PACK_SET_WP"
  | .packEepromWrite => "PACK_EEPROM_WRITE"
  | .packRawImu _ => "PACK_RAW_IMU"
  | .packRc _ => "PACK_RC"
  | .unpack => "UNPACK"
  | .fbClr => "FB_CLR"
  | .fbPush _ => "FB_PUSH"
  | .fbRd _ => "FB_RD"
  | .pbClr => "PB_CLR"
  | .pbPush _ => "PB_PUSH"
  | .pbRd _ => "PB_RD"
  | .rd _ => "RD"
  | .cfgSetwpId _ => "CFG_SETWP_ID"
  | .reset => "RESET"

end Sys2Proof
end

