-- ==== Sys2Proof/Machine/Bytes.lean ====
section
/-!
DEFINITION. Byte order and signed patterns (00_scope.md R9, 20_memory.md R61, R62): the one place where a multi-byte
field is put together from bytes or taken apart into them.
-/

namespace Sys2Proof.Machine

/-- `s[a]` of R8. Every use stands behind a length check; past the end it answers 0, which no operation relies on. -/
def byteAt (s : List Byte) (a : Nat) : Byte := s.getD a 0

/-- `le16(s, a)` of R9: the least significant byte is at the lowest address (R61). -/
def le16 (s : List Byte) (a : Nat) : BitVec 16 :=
  (byteAt s a).setWidth 16 ||| (byteAt s (a + 1)).setWidth 16 <<< 8

/-- `le32(s, a)` of R9. -/
def le32 (s : List Byte) (a : Nat) : BitVec 32 :=
  (byteAt s a).setWidth 32 ||| (byteAt s (a + 1)).setWidth 32 <<< 8
    ||| (byteAt s (a + 2)).setWidth 32 <<< 16 ||| (byteAt s (a + 3)).setWidth 32 <<< 24

/-- `lebytes_16(v)` of R9, least significant byte first. -/
def leBytes16 (v : BitVec 16) : List Byte := [v.setWidth 8, (v >>> 8).setWidth 8]

/-- `lebytes_32(v)` of R9. -/
def leBytes32 (v : BitVec 32) : List Byte :=
  [v.setWidth 8, (v >>> 8).setWidth 8, (v >>> 16).setWidth 8, (v >>> 24).setWidth 8]

/-- `sext_N(v)` of R9: the signed value of an N-bit pattern (R62; two's complement is G3, log 12). -/
def sext {w : Nat} (v : BitVec w) : Int :=
  if v.toNat < 2 ^ (w - 1) then (v.toNat : Int) else (v.toNat : Int) - (2 ^ w : Nat)

/-- `enc_iN(x)` of R9: the pattern of a signed value in the range of `iN`. -/
def encInt (w : Nat) (x : Int) : BitVec w :=
  if 0 ≤ x then BitVec.ofNat w x.toNat else BitVec.ofNat w (x + (2 ^ w : Nat)).toNat

/-- The `n` low bytes of a number, least significant first: how a row's bits are laid out as bytes. -/
def bytesOfNat : Nat → Nat → List Byte
  | 0, _ => []
  | n + 1, w => BitVec.ofNat 8 w :: bytesOfNat n (w / 256)

/-- The unsigned number that `bs` spells, least significant byte first (`MemRead` of R9). -/
def natOfBytes : List Byte → Nat
  | [] => 0
  | b :: bs => b.toNat + 256 * natOfBytes bs

/-- `bs` with zero bytes behind it up to `n` bytes; bytes beyond `n` are dropped. -/
def padTo (n : Nat) (bs : List Byte) : List Byte := (bs ++ List.replicate (n - bs.length) 0).take n

end Sys2Proof.Machine
end

