-- ==== Sys2Proof/Machine/Checksum.lean ====
section
/-!
DEFINITION. The checksum engine's functions (40_checksum_engine.md R130 to R137, R142): pure functions over bytes.
-/

namespace Sys2Proof.Machine

/-- `xor8_step` (R130). -/
def xor8Step (c b : Byte) : Byte := c ^^^ b

/-- One of the eight iterations of R131 with the polynomial a parameter (R136): the top bit is tested before the shift, and the
bit shifted out of bit 7 is dropped. -/
def crcShift (poly c : Byte) : Byte :=
  if c &&& 0x80#8 ≠ 0#8 then (c <<< 1) ^^^ poly else c <<< 1

/-- `n` iterations of `crcShift`. -/
def crcRounds (poly : Byte) : Nat → Byte → Byte
  | 0, c => c
  | n + 1, c => crcRounds poly n (crcShift poly c)

/-- `crcP_step` (R136): R131 with 0xD5 replaced by `poly`. -/
def crcPStep (poly c b : Byte) : Byte := crcRounds poly 8 (c ^^^ b)

/-- `crc8_step` (R131): the byte is XORed in, then eight iterations with polynomial 0xD5. -/
def crc8Step (c b : Byte) : Byte := crcPStep Config.crcPoly c b

/-- `xor8(s, c0)` (R132). -/
def xor8From (c0 : Byte) (s : List Byte) : Byte := s.foldl xor8Step c0

/-- `crc8(s, c0)` (R132). -/
def crc8From (c0 : Byte) (s : List Byte) : Byte := s.foldl crc8Step c0

/-- `xor8(s)` (R132, R142). -/
def xor8 (s : List Byte) : Byte := xor8From 0 s

/-- `crc8(s)` (R132), from the initial value of R5. -/
def crc8 (s : List Byte) : Byte := crc8From Config.crcInit s

/-- `T[x]` of R137. -/
def crcTable (x : Byte) : Byte := crc8Step 0 x

/-- The step of the algorithm a version names (R23, R139). -/
def checksumStep : Version → Byte → Byte → Byte
  | .v1 => xor8Step
  | .v2 => crc8Step

/-- The fold of the algorithm a version names, from 0x00 (R132). -/
def checksum : Version → List Byte → Byte
  | .v1 => xor8
  | .v2 => crc8

/-- `cksum_v1(L, F, p)` (R133). -/
def cksumV1 (len func : Byte) (p : List Byte) : Byte := xor8 ([len, func] ++ p)

/-- `cksum_v2(G, F, p)` with `L = len(p)` (R134). -/
def cksumV2 (flag : Byte) (func : U16) (p : List Byte) : Byte :=
  crc8 ([flag] ++ leBytes16 func ++ leBytes16 (BitVec.ofNat 16 p.length) ++ p)

end Sys2Proof.Machine
end

