-- ==== Sys2Proof/WellFormed.lean ====
section
/-!
DEFINITION. Which terms of `Instr` are instructions (30_encoding.md R98, R99). Every operand of a host operation has exactly the
range of its type (R103), so only the frames have something to check: the payload fits the format's length field, and the free
function id of a SET_WP row is none of the three fixed ids, whose rows come before it (R108).
-/

namespace Sys2Proof

/-- R98: what the one-byte length field of V1 can say. -/
def fitsV1 (payload : List Byte) : Bool := decide (payload.length ≤ Config.v1MaxPayload)

/-- R98: what the two-byte length field of V2 can say. -/
def fitsV2 (payload : List Byte) : Bool := decide (payload.length ≤ Config.v2MaxPayload)

/-- R99: the ids of EEPROM_WRITE, RAW_IMU and RC. -/
def isFixedId (func : U16) : Bool :=
  func == Config.eepromWriteId || func == Config.rawImuId || func == Config.rcId

/-- The check an instruction passes. -/
def Instr.wf : Instr → Bool
  | .errorV1 _ p _ => fitsV1 p
  | .errorV2 _ _ p _ => fitsV2 p
  | .eepromWriteV1 p _ => fitsV1 p
  | .rawImuReqV1 p _ => fitsV1 p
  | .rcReqV1 p _ => fitsV1 p
  | .rawImuV1 p _ => fitsV1 p
  | .rcV1 p _ => fitsV1 p
  | .eepromWriteAckV1 p _ => fitsV1 p
  | .eepromWriteV2 _ p _ => fitsV2 p
  | .rawImuReqV2 _ p _ => fitsV2 p
  | .rcReqV2 _ p _ => fitsV2 p
  | .rawImuV2 _ p _ => fitsV2 p
  | .rcV2 _ p _ => fitsV2 p
  | .eepromWriteAckV2 _ p _ => fitsV2 p
  | .setWpV1 f p _ => fitsV1 p && !isFixedId (f.setWidth 16)
  | .setWpAckV1 f p _ => fitsV1 p && !isFixedId (f.setWidth 16)
  | .setWpV2 _ f p _ => fitsV2 p && !isFixedId f
  | .setWpAckV2 _ f p _ => fitsV2 p && !isFixedId f
  | .csInit _ => true
  | .csUpd _ => true
  | .csRd => true
  | .csCmp _ => true
  | .enc _ _ _ => true
  | .dec => true
  | .packSetWp _ => true
  | .packEepromWrite => true
  | .packRawImu _ => true
  | .packRc _ => true
  | .unpack => true
  | .fbClr => true
  | .fbPush _ => true
  | .fbRd _ => true
  | .pbClr => true
  | .pbPush _ => true
  | .pbRd _ => true
  | .rd _ => true
  | .cfgSetwpId _ => true
  | .reset => true

/-- `i` is an instruction of the hardware. -/
abbrev Instr.WellFormed (i : Instr) : Prop := i.wf = true

/-- R160: the fields of a frame are in range for its version. -/
def Frame.inRange (f : Frame) : Bool :=
  match f.version with
  | .v1 => f.flag == 0 && decide (f.func.toNat ≤ Config.v1MaxFunc) && fitsV1 f.payload
  | .v2 => fitsV2 f.payload

end Sys2Proof
end

