-- ==== Sys2Proof/Machine/Codec.lean ====
section
/-!
DEFINITION. The frame codec's functions (41_frame_codec.md R160 to R163, R171; 30_encoding.md R91 to R96): pure functions
between a Frame record and the bytes of a frame.
-/

namespace Sys2Proof.Machine

/-- The ways `decode` fails (R163, R271). -/
inductive FrameError where
  /-- R272: the first three bytes are not those of a frame, or are not there. -/
  | malformedHeader
  /-- R273: the bytes end before the frame does. -/
  | truncatedPayload
  /-- R274: the checksum byte differs from the recomputed one. -/
  | checksumMismatch
  deriving DecidableEq, Repr

/-- The number of bytes before the payload (R171). -/
def hdr : Version → Nat
  | .v1 => 5
  | .v2 => 8

/-- `size(ver, L)` (R171). -/
def frameSize (v : Version) (len : Nat) : Nat := hdr v + len + 1

/-- The version marker, byte 1 (R94). -/
def verByte : Version → Byte
  | .v1 => Config.markV1
  | .v2 => Config.markV2

/-- R94: byte 1 selects the format and nothing else does. -/
def verOf (b : Byte) : Option Version :=
  if b = Config.markV1 then some .v1 else if b = Config.markV2 then some .v2 else none

/-- `dir_byte` (R93). -/
def dirByte : Direction → Byte
  | .request => Config.markRequest
  | .response => Config.markResponse
  | .error => Config.markError

/-- `dir_of` (R93): the inverse of `dir_byte` on its three bytes. -/
def dirOf (b : Byte) : Option Direction :=
  if b = Config.markRequest then some .request
  else if b = Config.markResponse then some .response
  else if b = Config.markError then some .error
  else none

/-- The numbering of the directions in `FR_DIR` and in the operand of `ENC` (R93); 3 is no direction (R103). -/
def dirOfNumber (n : BitVec 2) : Option Direction :=
  if n = 0 then some .request else if n = 1 then some .response else if n = 2 then some .error else none

@[inherit_doc dirOfNumber] def dirNumber : Direction → BitVec 2
  | .request => 0
  | .response => 1
  | .error => 2

/-- 0 is V1, 1 is V2 (R103). -/
def verNumber : Version → BitVec 1
  | .v1 => 0
  | .v2 => 1

/-- L, the declared payload length (R95, R96). -/
def declaredLength (v : Version) (s : List Byte) : Nat :=
  match v with
  | .v1 => (byteAt s 3).toNat
  | .v2 => (le16 s 6).toNat

/-- The flag byte; 0x00 for V1, which has none (R96). -/
def headerFlag (v : Version) (s : List Byte) : Byte :=
  match v with
  | .v1 => 0
  | .v2 => byteAt s 3

/-- The function id (R96). -/
def headerFunc (v : Version) (s : List Byte) : U16 :=
  match v with
  | .v1 => (byteAt s 4).setWidth 16
  | .v2 => le16 s 4

/-- Steps 1 to 3 of R163 and the slicing of its step 4: the frame at the front of `s`, its checksum not yet examined, and the
number of bytes it occupies. The tests are in the rule's order. -/
def splitFrame (s : List Byte) : Except FrameError (Frame × Nat) :=
  if s.length < 3 then .error .malformedHeader
  else if byteAt s 0 ≠ Config.dollar then .error .malformedHeader
  else
    match verOf (byteAt s 1), dirOf (byteAt s 2) with
    | some v, some d =>
      if s.length < hdr v then .error .truncatedPayload
      else
        let len := declaredLength v s
        let n := frameSize v len
        if s.length < n then .error .truncatedPayload
        else
          .ok ({ version := v, direction := d, flag := headerFlag v s, func := headerFunc v s,
                 payload := (s.drop (hdr v)).take len, checksum := byteAt s (hdr v + len) }, n)
    | _, _ => .error .malformedHeader

/-- The bytes the checksum of a frame covers, `s[3 .. h+L)` (R133, R134, step 4 of R163). -/
def coveredBytes (v : Version) (len : Nat) (s : List Byte) : List Byte :=
  (s.take (hdr v + len)).drop 3

/-- `decode(s)` (R163). -/
def frameDecode (s : List Byte) : Except FrameError (Frame × Nat) :=
  match splitFrame s with
  | .error e => .error e
  | .ok (f, n) =>
    if checksum f.version (coveredBytes f.version f.payload.length s) ≠ f.checksum then
      .error .checksumMismatch
    else .ok (f, n)

/-- The checksum that belongs to a frame's fields (R133, R134). -/
def frameChecksum (f : Frame) : Byte :=
  match f.version with
  | .v1 => cksumV1 (BitVec.ofNat 8 f.payload.length) (f.func.setWidth 8) f.payload
  | .v2 => cksumV2 f.flag f.func f.payload

/-- `verify(f)` (R135). -/
def verify (f : Frame) : Bool := f.checksum == frameChecksum f

/-- R160: the fields are in range for the version and the checksum matches. -/
def frameWellFormed (f : Frame) : Bool := f.inRange && verify f

/-- The bytes of a frame before its payload (R68, R69, R91, R92). -/
def frameHeader (f : Frame) : List Byte :=
  match f.version with
  | .v1 => [Config.dollar, Config.markV1, dirByte f.direction, BitVec.ofNat 8 f.payload.length, f.func.setWidth 8]
  | .v2 =>
    [Config.dollar, Config.markV2, dirByte f.direction, f.flag] ++ leBytes16 f.func
      ++ leBytes16 (BitVec.ofNat 16 f.payload.length)

/-- The bytes of a frame as it travels, its checksum byte as the record has it (R91, R92). -/
def frameBytes (f : Frame) : List Byte := frameHeader f ++ f.payload ++ [f.checksum]

/-- The frame with the checksum byte the format demands. -/
def sealFrame (f : Frame) : Frame := { f with checksum := frameChecksum f }

/-- `encode_v2(dir, G, func, p)` (R162). -/
def encodeV2 (dir : Direction) (flag : Byte) (func : U16) (p : List Byte) : List Byte :=
  frameBytes (sealFrame { version := .v2, direction := dir, flag := flag, func := func, payload := p, checksum := 0 })

/-- `encode(ver, dir, func, p)` (R161, R162): V1 as R161 has it, V2 with flag 0x00. -/
def frameEncode (v : Version) (dir : Direction) (func : U16) (p : List Byte) : List Byte :=
  match v with
  | .v1 =>
    frameBytes (sealFrame { version := .v1, direction := dir, flag := 0, func := func, payload := p, checksum := 0 })
  | .v2 => encodeV2 dir Config.v2FlagTx func p

end Sys2Proof.Machine
end

