-- ==== Sys2Proof/Machine/Operands.lean ====
section
/-!
DEFINITION. The payload layouts of the four commands (42_command_registry.md R193 to R196; field assembly 30_encoding.md R97) and the
views of their fields (R207, R208, R210).
-/

namespace Sys2Proof.Machine

/-- `pack_setwp` (R193). -/
def packSetwp (w : Waypoint) : List Byte :=
  [w.index, w.action] ++ leBytes32 w.lat ++ leBytes32 w.lon ++ leBytes32 w.alt
    ++ leBytes16 w.p1 ++ leBytes16 w.p2 ++ leBytes16 w.p3 ++ [w.flags]

/-- `unpack_setwp` (R193), for payloads of at least 21 bytes. -/
def unpackSetwp (p : List Byte) : Waypoint :=
  { index := byteAt p 0, action := byteAt p 1, lat := le32 p 2, lon := le32 p 6, alt := le32 p 10,
    p1 := le16 p 14, p2 := le16 p 16, p3 := le16 p 18, flags := byteAt p 20 }

/-- `pack_eeprom_write` (R194): the payload is empty. -/
def packEepromWrite : List Byte := []

/-- `pack_rawimu` (R195): exactly 12 bytes, no magnetometer (D31). -/
def packRawimu (m : ImuSample) : List Byte :=
  leBytes16 m.ax ++ leBytes16 m.ay ++ leBytes16 m.az ++ leBytes16 m.gx ++ leBytes16 m.gy ++ leBytes16 m.gz

/-- `unpack_rawimu` (R195), for payloads of at least 12 bytes. -/
def unpackRawimu (p : List Byte) : ImuSample :=
  { ax := le16 p 0, ay := le16 p 2, az := le16 p 4, gx := le16 p 6, gy := le16 p 8, gz := le16 p 10 }

/-- The 17 channels in payload order (R31). -/
def rcChannels (c : RcSample) : List I16 :=
  [c.ch0, c.ch1, c.ch2, c.ch3, c.ch4, c.ch5, c.ch6, c.ch7, c.ch8, c.ch9, c.ch10, c.ch11, c.ch12, c.ch13, c.ch14, c.ch15,
    c.ch16]

/-- `pack_rc` (R196): channel `i` at offset `2 i`. -/
def packRcSample (c : RcSample) : List Byte := (rcChannels c).flatMap leBytes16

/-- `unpack_rc` (R196), for payloads of at least 34 bytes. -/
def unpackRcSample (p : List Byte) : RcSample :=
  { ch0 := le16 p 0, ch1 := le16 p 2, ch2 := le16 p 4, ch3 := le16 p 6, ch4 := le16 p 8, ch5 := le16 p 10,
    ch6 := le16 p 12, ch7 := le16 p 14, ch8 := le16 p 16, ch9 := le16 p 18, ch10 := le16 p 20, ch11 := le16 p 22,
    ch12 := le16 p 24, ch13 := le16 p 26, ch14 := le16 p 28, ch15 := le16 p 30, ch16 := le16 p 32 }

/-- The view `is_last` (R210): the sentinel is the last byte of the SET_WP payload (C4). -/
def isLast (w : Waypoint) : Bool := w.flags == Config.flagLast

/-- R207: the latitude in decimal degrees, an exact rational. -/
def latDegrees (w : Waypoint) : Rat := (sext w.lat : Rat) / 10000000

/-- R207: the longitude in decimal degrees. -/
def lonDegrees (w : Waypoint) : Rat := (sext w.lon : Rat) / 10000000

/-- R207: the altitude in metres; the register holds centimetres. -/
def altMetres (w : Waypoint) : Rat := (sext w.alt : Rat) / 100

/-- R208: an accelerometer value in g, `raw / ACC_SCALE`. -/
def accelG (c : Config.Scales) (raw : I16) : Rat := (sext raw : Rat) / c.acc

/-- R208: a gyroscope value in degrees per second, `raw / GYRO_SCALE`. -/
def gyroDps (c : Config.Scales) (raw : I16) : Rat := (sext raw : Rat) / c.gyro

end Sys2Proof.Machine
end

