-- ==== Sys2Proof/Decode.lean ====
section
/-!
DEFINITION. From what the host presents to an instruction, total on any bytes, and back (30_encoding.md).

A frame (level W) is cut by `splitFrame` (R94 to R96) and its command selected by direction and function id (R99, R108); whether
its checksum is right is not the decoder's business but the instruction's (R165). A packed host operation (level H) is the number
of R102 in one byte and then the operands in the table's order, each in the least whole number of bytes, little-endian:
HOSTOP_PACKING is open and this packing is the model's (DESIGN CHOICE, log 1).
-/

namespace Sys2Proof

open Sys2Proof.Machine

/-- Why a packet is no instruction. -/
inductive DecodeError where
  /-- R104: no such operation number. -/
  | illegalOperation
  /-- Log 9: a packed operation without a number, with too few or too many operand bytes, or with an operand value that its type
  does not have (R103). -/
  | badCommandWord
  /-- R100 (a), (b): the bytes do not begin with a whole frame. -/
  | notAFrame (e : FrameError)
  /-- The bytes hold a whole frame and more behind it (R170). -/
  | trailingBytes
  deriving DecidableEq, Repr

/-- The command a frame carries, by direction and function id (R99; the rows in the order of R108). An id that is none of the
three fixed ones selects the SET_WP rows; their extra condition is tested when they run (log 6). -/
def selectInstr (f : Frame) : Instr :=
  match f.version with
  | .v1 =>
    match f.direction with
    | .error => .errorV1 (f.func.setWidth 8) f.payload f.checksum
    | .request =>
      if f.func = Config.eepromWriteId then .eepromWriteV1 f.payload f.checksum
      else if f.func = Config.rawImuId then .rawImuReqV1 f.payload f.checksum
      else if f.func = Config.rcId then .rcReqV1 f.payload f.checksum
      else .setWpV1 (f.func.setWidth 8) f.payload f.checksum
    | .response =>
      if f.func = Config.rawImuId then .rawImuV1 f.payload f.checksum
      else if f.func = Config.rcId then .rcV1 f.payload f.checksum
      else if f.func = Config.eepromWriteId then .eepromWriteAckV1 f.payload f.checksum
      else .setWpAckV1 (f.func.setWidth 8) f.payload f.checksum
  | .v2 =>
    match f.direction with
    | .error => .errorV2 f.flag f.func f.payload f.checksum
    | .request =>
      if f.func = Config.eepromWriteId then .eepromWriteV2 f.flag f.payload f.checksum
      else if f.func = Config.rawImuId then .rawImuReqV2 f.flag f.payload f.checksum
      else if f.func = Config.rcId then .rcReqV2 f.flag f.payload f.checksum
      else .setWpV2 f.flag f.func f.payload f.checksum
    | .response =>
      if f.func = Config.rawImuId then .rawImuV2 f.flag f.payload f.checksum
      else if f.func = Config.rcId then .rcV2 f.flag f.payload f.checksum
      else if f.func = Config.eepromWriteId then .eepromWriteAckV2 f.flag f.payload f.checksum
      else .setWpAckV2 f.flag f.func f.payload f.checksum

/-- The wire instruction that is exactly the bytes `s`. -/
def decodeFramePacket (s : List Byte) : Except DecodeError Instr :=
  match splitFrame s with
  | .error e => .error (.notAFrame e)
  | .ok (f, n) => if s.length = n then .ok (selectInstr f) else .error .trailingBytes

/-- How many operand bytes an operation number takes in the packing of log 1; `none` for the undefined numbers (R104). -/
def operandBytes (n : Byte) : Option Nat :=
  if n = 0x01 then some 1 else if n = 0x02 then some 1 else if n = 0x03 then some 0
  else if n = 0x04 then some 1 else if n = 0x10 then some 4 else if n = 0x11 then some 0
  else if n = 0x20 then some 21 else if n = 0x21 then some 0 else if n = 0x22 then some 12
  else if n = 0x23 then some 34 else if n = 0x2F then some 0 else if n = 0x30 then some 0
  else if n = 0x31 then some 1 else if n = 0x32 then some 3 else if n = 0x34 then some 0
  else if n = 0x35 then some 1 else if n = 0x36 then some 2 else if n = 0x40 then some 1
  else if n = 0x41 then some 2 else if n = 0x7F then some 0 else none

/-- A 1-bit `ver` or `mode` operand in its byte (R103). -/
def verOperand (b : Byte) : Except DecodeError Version :=
  if b = 0 then .ok .v1 else if b = 1 then .ok .v2 else .error .badCommandWord

/-- The operation with number `n` and exactly as many operand bytes as it takes (R102). -/
def buildOperation (n : Byte) (ops : List Byte) : Except DecodeError Instr :=
  if n = 0x01 then (verOperand (byteAt ops 0)).map .csInit
  else if n = 0x02 then .ok (.csUpd (byteAt ops 0))
  else if n = 0x03 then .ok .csRd
  else if n = 0x04 then .ok (.csCmp (byteAt ops 0))
  else if n = 0x10 then
    if byteAt ops 1 < 4 then
      (verOperand (byteAt ops 0)).map fun v => .enc v ((byteAt ops 1).setWidth 2) (le16 ops 2)
    else .error .badCommandWord
  else if n = 0x11 then .ok .dec
  else if n = 0x20 then .ok (.packSetWp (unpackSetwp ops))
  else if n = 0x21 then .ok .packEepromWrite
  else if n = 0x22 then .ok (.packRawImu (unpackRawimu ops))
  else if n = 0x23 then .ok (.packRc (unpackRcSample ops))
  else if n = 0x2F then .ok .unpack
  else if n = 0x30 then .ok .fbClr
  else if n = 0x31 then .ok (.fbPush (byteAt ops 0))
  else if n = 0x32 then
    if byteAt ops 2 < 2 then
      .ok (.fbRd ((le16 ops 0).setWidth 17 ||| (byteAt ops 2).setWidth 17 <<< 16))
    else .error .badCommandWord
  else if n = 0x34 then .ok .pbClr
  else if n = 0x35 then .ok (.pbPush (byteAt ops 0))
  else if n = 0x36 then .ok (.pbRd (le16 ops 0))
  else if n = 0x40 then .ok (.rd (byteAt ops 0))
  else if n = 0x41 then .ok (.cfgSetwpId (le16 ops 0))
  else if n = 0x7F then .ok .reset
  else .error .illegalOperation

/-- The host operation that is exactly these bytes. -/
def decodeOperationPacket : List Byte → Except DecodeError Instr
  | [] => .error .badCommandWord
  | n :: ops =>
    match operandBytes n with
    | none => .error .illegalOperation
    | some k => if ops.length = k then buildOperation n ops else .error .badCommandWord

/-- The decoder. -/
def decode : Packet → Except DecodeError Instr
  | .operation bs => decodeOperationPacket bs
  | .frame bs => decodeFramePacket bs

/-- The Frame record a wire instruction stands for; none for a host operation. -/
def Instr.frame? : Instr → Option Frame
  | .errorV1 f p c => some ⟨.v1, .error, 0, f.setWidth 16, p, c⟩
  | .errorV2 g f p c => some ⟨.v2, .error, g, f, p, c⟩
  | .eepromWriteV1 p c => some ⟨.v1, .request, 0, Config.eepromWriteId, p, c⟩
  | .rawImuReqV1 p c => some ⟨.v1, .request, 0, Config.rawImuId, p, c⟩
  | .rcReqV1 p c => some ⟨.v1, .request, 0, Config.rcId, p, c⟩
  | .rawImuV1 p c => some ⟨.v1, .response, 0, Config.rawImuId, p, c⟩
  | .rcV1 p c => some ⟨.v1, .response, 0, Config.rcId, p, c⟩
  | .eepromWriteAckV1 p c => some ⟨.v1, .response, 0, Config.eepromWriteId, p, c⟩
  | .eepromWriteV2 g p c => some ⟨.v2, .request, g, Config.eepromWriteId, p, c⟩
  | .rawImuReqV2 g p c => some ⟨.v2, .request, g, Config.rawImuId, p, c⟩
  | .rcReqV2 g p c => some ⟨.v2, .request, g, Config.rcId, p, c⟩
  | .rawImuV2 g p c => some ⟨.v2, .response, g, Config.rawImuId, p, c⟩
  | .rcV2 g p c => some ⟨.v2, .response, g, Config.rcId, p, c⟩
  | .eepromWriteAckV2 g p c => some ⟨.v2, .response, g, Config.eepromWriteId, p, c⟩
  | .setWpV1 f p c => some ⟨.v1, .request, 0, f.setWidth 16, p, c⟩
  | .setWpAckV1 f p c => some ⟨.v1, .response, 0, f.setWidth 16, p, c⟩
  | .setWpV2 g f p c => some ⟨.v2, .request, g, f, p, c⟩
  | .setWpAckV2 g f p c => some ⟨.v2, .response, g, f, p, c⟩
  | .csInit _ => none
  | .csUpd _ => none
  | .csRd => none
  | .csCmp _ => none
  | .enc _ _ _ => none
  | .dec => none
  | .packSetWp _ => none
  | .packEepromWrite => none
  | .packRawImu _ => none
  | .packRc _ => none
  | .unpack => none
  | .fbClr => none
  | .fbPush _ => none
  | .fbRd _ => none
  | .pbClr => none
  | .pbPush _ => none
  | .pbRd _ => none
  | .rd _ => none
  | .cfgSetwpId _ => none
  | .reset => none

/-- A `ver` or `mode` operand as its byte (R103). -/
def verOperandByte (v : Version) : Byte := (verNumber v).setWidth 8

/-- The packed bytes of a host operation (numbers of R102, packing of log 1); empty for a frame. -/
def operationBytes : Instr → List Byte
  | .csInit m => [0x01, verOperandByte m]
  | .csUpd b => [0x02, b]
  | .csRd => [0x03]
  | .csCmp b => [0x04, b]
  | .enc v d f => [0x10, verOperandByte v, d.setWidth 8] ++ leBytes16 f
  | .dec => [0x11]
  | .packSetWp w => 0x20 :: packSetwp w
  | .packEepromWrite => [0x21]
  | .packRawImu m => 0x22 :: packRawimu m
  | .packRc c => 0x23 :: packRcSample c
  | .unpack => [0x2F]
  | .fbClr => [0x30]
  | .fbPush b => [0x31, b]
  | .fbRd i => 0x32 :: (leBytes16 (i.setWidth 16) ++ [(i >>> 16).setWidth 8])
  | .pbClr => [0x34]
  | .pbPush b => [0x35, b]
  | .pbRd i => 0x36 :: leBytes16 i
  | .rd r => [0x40, r]
  | .cfgSetwpId v => 0x41 :: leBytes16 v
  | .reset => [0x7F]
  | .errorV1 _ _ _ | .errorV2 _ _ _ _ | .eepromWriteV1 _ _ | .rawImuReqV1 _ _ | .rcReqV1 _ _ | .rawImuV1 _ _
  | .rcV1 _ _ | .eepromWriteAckV1 _ _ | .eepromWriteV2 _ _ _ | .rawImuReqV2 _ _ _ | .rcReqV2 _ _ _ | .rawImuV2 _ _ _
  | .rcV2 _ _ _ | .eepromWriteAckV2 _ _ _ | .setWpV1 _ _ _ | .setWpAckV1 _ _ _ | .setWpV2 _ _ _ _
  | .setWpAckV2 _ _ _ _ => []

/-- The encoder: what the host presents for a well-formed instruction. -/
def encode (i : Instr) : Packet :=
  match i.frame? with
  | some f => .frame (frameBytes f)
  | none => .operation (operationBytes i)

/-- One row of opcode_table.json as R108 reads it: the header bytes a frame must show under a mask. -/
structure TableRow where
  mnemonic : String
  pattern : List Byte
  mask : List Byte
  deriving DecidableEq, Repr

/-- R108: `(header & mask) = match`, byte by byte. -/
def TableRow.selects (r : TableRow) (header : List Byte) : Bool :=
  List.zipWith (· &&& ·) header r.mask == r.pattern

/-- The level W rows of opcode_table.json in file order (R108). -/
def wireRows : List TableRow :=
  [⟨"ERROR.V1", [0x24, 0x4D, 0x21, 0x00, 0x00], [0xFF, 0xFF, 0xFF, 0x00, 0x00]⟩,
   ⟨"ERROR.V2", [0x24, 0x58, 0x21, 0, 0, 0, 0, 0], [0xFF, 0xFF, 0xFF, 0, 0, 0, 0, 0]⟩,
   ⟨"EEPROM_WRITE.V1", [0x24, 0x4D, 0x3C, 0x00, 0xFA], [0xFF, 0xFF, 0xFF, 0x00, 0xFF]⟩,
   ⟨"RAW_IMU.REQ.V1", [0x24, 0x4D, 0x3C, 0x00, 0x66], [0xFF, 0xFF, 0xFF, 0x00, 0xFF]⟩,
   ⟨"RC.REQ.V1", [0x24, 0x4D, 0x3C, 0x00, 0x69], [0xFF, 0xFF, 0xFF, 0x00, 0xFF]⟩,
   ⟨"RAW_IMU.V1", [0x24, 0x4D, 0x3E, 0x00, 0x66], [0xFF, 0xFF, 0xFF, 0x00, 0xFF]⟩,
   ⟨"RC.V1", [0x24, 0x4D, 0x3E, 0x00, 0x69], [0xFF, 0xFF, 0xFF, 0x00, 0xFF]⟩,
   ⟨"EEPROM_WRITE.ACK.V1", [0x24, 0x4D, 0x3E, 0x00, 0xFA], [0xFF, 0xFF, 0xFF, 0x00, 0xFF]⟩,
   ⟨"EEPROM_WRITE.V2", [0x24, 0x58, 0x3C, 0, 0xFA, 0, 0, 0], [0xFF, 0xFF, 0xFF, 0, 0xFF, 0xFF, 0, 0]⟩,
   ⟨"RAW_IMU.REQ.V2", [0x24, 0x58, 0x3C, 0, 0x66, 0, 0, 0], [0xFF, 0xFF, 0xFF, 0, 0xFF, 0xFF, 0, 0]⟩,
   ⟨"RC.REQ.V2", [0x24, 0x58, 0x3C, 0, 0x69, 0, 0, 0], [0xFF, 0xFF, 0xFF, 0, 0xFF, 0xFF, 0, 0]⟩,
   ⟨"RAW_IMU.V2", [0x24, 0x58, 0x3E, 0, 0x66, 0, 0, 0], [0xFF, 0xFF, 0xFF, 0, 0xFF, 0xFF, 0, 0]⟩,
   ⟨"RC.V2", [0x24, 0x58, 0x3E, 0, 0x69, 0, 0, 0], [0xFF, 0xFF, 0xFF, 0, 0xFF, 0xFF, 0, 0]⟩,
   ⟨"EEPROM_WRITE.ACK.V2", [0x24, 0x58, 0x3E, 0, 0xFA, 0, 0, 0], [0xFF, 0xFF, 0xFF, 0, 0xFF, 0xFF, 0, 0]⟩,
   ⟨"SET_WP.V1", [0x24, 0x4D, 0x3C, 0x00, 0x00], [0xFF, 0xFF, 0xFF, 0x00, 0x00]⟩,
   ⟨"SET_WP.ACK.V1", [0x24, 0x4D, 0x3E, 0x00, 0x00], [0xFF, 0xFF, 0xFF, 0x00, 0x00]⟩,
   ⟨"SET_WP.V2", [0x24, 0x58, 0x3C, 0, 0, 0, 0, 0], [0xFF, 0xFF, 0xFF, 0, 0, 0, 0, 0]⟩,
   ⟨"SET_WP.ACK.V2", [0x24, 0x58, 0x3E, 0, 0, 0, 0, 0], [0xFF, 0xFF, 0xFF, 0, 0, 0, 0, 0]⟩]

/-- The first row that matches a frame's bytes (R108). -/
def tableSelect (frame : List Byte) : Option String :=
  (wireRows.find? fun r => r.selects (frame.take r.pattern.length)).map (·.mnemonic)

/-- How many bytes the frame at the front of `s` has, taken from its header (R95); 9, the least V2 frame, where byte 1 is no
version marker. -/
def frameExtent (s : List Byte) : Nat :=
  match verOf (byteAt s 1) with
  | some v => frameSize v (declaredLength v s)
  | none => 9

/-- The packet that a row's bits stand for: byte 0 is bits 7..0, and every byte the row gives no bits is 0, up to the end of the
instruction (log 16). A row of one byte is an operation number, a longer one a frame's header. -/
def tablePacket (nbits w : Nat) : Packet :=
  let bs := bytesOfNat (nbits / 8) w
  if nbits ≤ 8 then .operation (padTo (1 + (operandBytes (byteAt bs 0)).getD 0) bs)
  else .frame (padTo (frameExtent bs) bs)

/-- The instruction the decoder reads from a row's bits. -/
def decodeTableWord (nbits w : Nat) : Option Instr :=
  match decode (tablePacket nbits w) with
  | .ok i => some i
  | .error _ => none

end Sys2Proof
end

