-- ==== Sys2Proof/Machine/State.lean ====
section
/-!
DEFINITION. The machine's state (10_state.md R20, in the shape of R40), what it delivers to the host, and the reasons a step stops.
A guarded register exists only while its guard holds (R39, R300; log 7).
-/

namespace Sys2Proof.Machine

/-- The outcomes of an operation, codes 0 to 12 (60_exceptions.md R271). A failing outcome is a next state of the machine. -/
inductive OutcomeCode where
  | ok
  | malformedHeader
  | truncatedPayload
  | checksumMismatch
  | payloadLayoutError
  | unexpectedFunction
  | configUnset
  | fieldRange
  | bufferFull
  | bufferRange
  | noValidFrame
  | noValidStruct
  | illegalOperation
  deriving DecidableEq, Repr

/-- The contents of one buffer: (address, byte) pairs, addresses strictly rising. An unlisted address has no value (log 8), so
there is no default entry to leave out. -/
abbrev Memory := List Host.Cell

/-- The FR group (10_state.md R26). It exists exactly while `FR_VALID = 1` (R27). -/
structure FrameRegs where
  ver : Version
  dir : Direction
  flag : Byte
  func : U16
  ck : Byte
  size : U17
  deriving DecidableEq, Repr

/-- The DS group (R28): the constructor is `DS_KIND`, and a register file exists only under its tag. -/
inductive Decoded where
  /-- `DS_KIND = 0`. -/
  | none
  /-- `DS_KIND = 1`, the WP file (R29). -/
  | setWp (w : Waypoint)
  /-- `DS_KIND = 2`, no field. -/
  | eepromWrite
  /-- `DS_KIND = 3`, the IMU file (R30). -/
  | rawImu (m : ImuSample)
  /-- `DS_KIND = 4`, the RC file (R31). -/
  | rc (c : RcSample)
  /-- `DS_KIND = 5`, no field: the payload is not interpreted. -/
  | opaquePayload
  deriving DecidableEq, Repr

/-- A value delivered to the host, at the register's own width and type (43_host_port.md R247); signed ones as patterns whose
value is `Value.number`. -/
inductive Value where
  | u1 (v : BitVec 1)
  | u2 (v : BitVec 2)
  | u3 (v : BitVec 3)
  | u8 (v : Byte)
  | u16 (v : U16)
  | u17 (v : U17)
  | i16 (v : I16)
  | i32 (v : I32)
  deriving DecidableEq, Repr

/-- What an operation delivers (R240): its outcome, and for a successful read a value. -/
structure Reply where
  outcome : OutcomeCode
  value : Option Value
  deriving DecidableEq, Repr

/-- The complete state of R20, and the model's own two fields at the host port (log 2). -/
structure State where
  /-- `CS_ACC` (R22). -/
  csAcc : Byte
  /-- `CS_MODE` (R23): `v1` is 0, the XOR fold; `v2` is 1, the CRC. -/
  csMode : Version
  /-- `FB` (R24): the cells below `FB_LEN`. -/
  fb : Memory
  /-- `FB_LEN` (R24). -/
  fbLen : U17
  /-- `PB` (R25): the cells below `PB_LEN`. -/
  pb : Memory
  /-- `PB_LEN` (R25). -/
  pbLen : U16
  /-- The FR group; `FR_VALID = 1` is `some` (R26, R27). -/
  fr : Option FrameRegs
  /-- `DS_KIND` and the file it names (R28 to R31). -/
  ds : Decoded
  /-- `SETWP_ID`; `SETWP_ID_SET = 1` is `some` (R32). -/
  setwpId : Option U16
  /-- `ERR` (R33). -/
  err : OutcomeCode
  /-- The model's own: what the host still presents, oldest first (log 2). -/
  port : List Packet
  /-- The model's own: what the latest operation delivered (log 2). -/
  reply : Option Reply
  deriving DecidableEq, Repr

/-- Why a step stops with a fault. -/
inductive Fault where
  /-- A cell of `FB` (`inFrameBuffer`) or of `PB` below the valid length that the memory does not list. Raised by the operations that
  read a buffer. Safe: by R24 no such cell exists in a state the block reaches; only a state no run reaches stops here (log 8). -/
  | unwrittenCell (inFrameBuffer : Bool) (address : Nat)
  deriving DecidableEq, Repr

/-- Why a step is refused. -/
inductive Refusal where
  /-- An instruction without a meaning in this model. Raised by `exec` alone; no arm does. Safe. -/
  | notModelled (mnemonic : String)
  /-- A packed host operation whose operand bytes are not those of its operands in the model's packing. Raised by `step` when it
  reads the port. Safe: HOSTOP_PACKING is open (R5, R102), and no operation of the spec has such operands (R103; log 9). -/
  | badCommandWord
  deriving DecidableEq, Repr

/-- The outcome type of an instruction's meaning. -/
abbrev Result := Host.Outcome State Fault Refusal

/-- The machine right after reset (70_reset_and_hazards.md R300, 10_state.md R39). -/
def State.reset : State :=
  { csAcc := 0x00, csMode := .v1, fb := [], fbLen := 0, pb := [], pbLen := 0, fr := none, ds := .none,
    setwpId := none, err := .ok, port := [], reply := none }

end Sys2Proof.Machine
end

