-- ==== Sys2Proof/Machine/Flags.lean ====
section
/-!
DEFINITION. The status bits and status numbers (10_state.md R27, R28, R32, R33, R35; 60_exceptions.md R271). The block has no arithmetic flags.
-/

namespace Sys2Proof.Machine

/-- The code of an outcome (R271), what `ERR` holds and `RD ERR` delivers. -/
def outcomeNumber : OutcomeCode → Byte
  | .ok => 0
  | .malformedHeader => 1
  | .truncatedPayload => 2
  | .checksumMismatch => 3
  | .payloadLayoutError => 4
  | .unexpectedFunction => 5
  | .configUnset => 6
  | .fieldRange => 7
  | .bufferFull => 8
  | .bufferRange => 9
  | .noValidFrame => 10
  | .noValidStruct => 11
  | .illegalOperation => 12

/-- The outcome that a failing `decode` raises (R165). -/
def frameErrorOutcome : FrameError → OutcomeCode
  | .malformedHeader => .malformedHeader
  | .truncatedPayload => .truncatedPayload
  | .checksumMismatch => .checksumMismatch

/-- `DS_KIND` (R20, R28). -/
def dsKind : Decoded → BitVec 3
  | .none => 0
  | .setWp _ => 1
  | .eepromWrite => 2
  | .rawImu _ => 3
  | .rc _ => 4
  | .opaquePayload => 5

/-- `FR_VALID` (R27). -/
def frValid (s : State) : BitVec 1 := if s.fr.isSome then 1 else 0

/-- `SETWP_ID_SET` (R32). -/
def setwpIdSet (s : State) : BitVec 1 := if s.setwpId.isSome then 1 else 0

/-- The number a delivered value stands for: signed registers as signed integers (R247). -/
def valueNumber : Value → Int
  | .u1 v => v.toNat
  | .u2 v => v.toNat
  | .u3 v => v.toNat
  | .u8 v => v.toNat
  | .u16 v => v.toNat
  | .u17 v => v.toNat
  | .i16 v => sext v
  | .i32 v => sext v

end Sys2Proof.Machine
end

