-- ==== Sys2Proof/Machine/Registry.lean ====
section
/-!
DEFINITION. The command registry (42_command_registry.md R190 to R192): which command a function id names, and what a payload decodes to.
-/

namespace Sys2Proof.Machine

/-- The four entries of the registry (R190). -/
inductive Cmd where
  | setWp | eepromWrite | rawImu | rc
  deriving DecidableEq, Repr

/-- `cmd_of(F)` (R191), the tests in the rule's order. -/
def cmdOf (setwpId : Option U16) (func : U16) : Except OutcomeCode Cmd :=
  if func = Config.eepromWriteId then .ok .eepromWrite
  else if func = Config.rawImuId then .ok .rawImu
  else if func = Config.rcId then .ok .rc
  else
    match setwpId with
    | none => .error .configUnset
    | some id => if func = id then .ok .setWp else .error .unexpectedFunction

/-- `schema_dir` (R191). -/
def schemaDir : Cmd → Direction
  | .setWp => .request
  | .eepromWrite => .request
  | .rawImu => .response
  | .rc => .response

/-- `schema_size` (R191). -/
def schemaSize : Cmd → Nat
  | .setWp => Config.setwpSize
  | .eepromWrite => 0
  | .rawImu => Config.rawImuSize
  | .rc => Config.rcSize

/-- Step 5 of R192. -/
def schemaDecode (c : Cmd) (p : List Byte) : Decoded :=
  match c with
  | .setWp => .setWp (unpackSetwp p)
  | .eepromWrite => .eepromWrite
  | .rawImu => .rawImu (unpackRawimu p)
  | .rc => .rc (unpackRcSample p)

/-- `interpret(F, D, p)` (R192), under the current `SETWP_ID`. Bytes beyond the layout are ignored (R209). -/
def interpret (setwpId : Option U16) (func : U16) (dir : Direction) (p : List Byte) : Except OutcomeCode Decoded :=
  if dir = .error then .ok .opaquePayload
  else
    match cmdOf setwpId func with
    | .error e => .error e
    | .ok c =>
      if dir ≠ schemaDir c then .ok .opaquePayload
      else if p.length < schemaSize c then .error .payloadLayoutError
      else .ok (schemaDecode c p)

end Sys2Proof.Machine
end

