-- ==== Sys2Proof/Machine/Ops.lean ====
section
/-!
DEFINITION. The named operations over the buffers and registers, ending an operation with an outcome (taking an exception, 60_exceptions.md R270,
R284), and the operations that a host operation and the reception of a frame share.
-/

namespace Sys2Proof.Machine

/-! ### Buffers -/

/-- The byte at an address; `none` where nothing is listed (log 8). -/
def Memory.read : Memory → Nat → Option Byte
  | [], _ => none
  | (a, b) :: m, addr => if addr = a then some b else Memory.read m addr

/-- Stores a byte, keeping the addresses strictly rising. -/
def Memory.write : Memory → Nat → Byte → Memory
  | [], addr, v => [(addr, v)]
  | (a, b) :: m, addr, v =>
    if addr < a then (addr, v) :: (a, b) :: m
    else if addr = a then (a, v) :: m
    else (a, b) :: Memory.write m addr v

/-- The canonical form: strictly rising addresses, each at least `lo`. -/
def Memory.wfFrom : Nat → Memory → Bool
  | _, [] => true
  | lo, (a, _) :: m => decide (lo ≤ a) && Memory.wfFrom (a + 1) m

/-- The canonical form of a buffer's contents. -/
def Memory.wf (m : Memory) : Bool := Memory.wfFrom 0 m

/-- `bs` stored from address `a` up. -/
def Memory.ofBytesFrom : Nat → List Byte → Memory
  | _, [] => []
  | a, b :: bs => (a, b) :: Memory.ofBytesFrom (a + 1) bs

/-- A buffer that holds exactly `bs`, first byte at address 0 (R24, R25). -/
def Memory.ofBytes (bs : List Byte) : Memory := Memory.ofBytesFrom 0 bs

/-- The `n` bytes from address `a` up; `none` if one of them is not listed. -/
def Memory.readBytes (m : Memory) : Nat → Nat → Option (List Byte)
  | _, 0 => some []
  | a, n + 1 =>
    match Memory.read m a, Memory.readBytes m (a + 1) n with
    | some b, some bs => some (b :: bs)
    | _, _ => none

/-- `MemRead(S:a, n)` of R9: little-endian. -/
def Memory.readLE (m : Memory) (a n : Nat) : Option Nat := (Memory.readBytes m a n).map natOfBytes

/-- Stores `bs` from address `a` up, one byte after the other. -/
def Memory.writeBytes (m : Memory) (a : Nat) : List Byte → Memory
  | [] => m
  | b :: bs => Memory.writeBytes (Memory.write m a b) (a + 1) bs

/-- `MemWrite(S:a, n, v)` of R9: little-endian. -/
def Memory.writeLE (m : Memory) (a n v : Nat) : Memory := Memory.writeBytes m a (bytesOfNat n v)

/-- The first address from `a` up, among `n`, that is not listed. -/
def Memory.firstHole (m : Memory) : Nat → Nat → Nat
  | a, 0 => a
  | a, n + 1 => if (Memory.read m a).isSome then Memory.firstHole m (a + 1) n else a

/-- `FB[0..FB_LEN)`. -/
def fbBytes (s : State) : Option (List Byte) := Memory.readBytes s.fb 0 s.fbLen.toNat

/-- `PB[0..PB_LEN)`. -/
def pbBytes (s : State) : Option (List Byte) := Memory.readBytes s.pb 0 s.pbLen.toNat

/-- The stop for a hole in `FB` (log 8). -/
def fbHole (s : State) : Result := .fault (.unwrittenCell true (Memory.firstHole s.fb 0 s.fbLen.toNat))

/-- The stop for a hole in `PB` (log 8). -/
def pbHole (s : State) : Result := .fault (.unwrittenCell false (Memory.firstHole s.pb 0 s.pbLen.toNat))

/-! ### Ending an operation

R284: (i) the caller has made the invalidations its rule lists, (ii) the code goes to `ERR` if the operation is state-changing, (iii) the
code is delivered. Nothing is saved and there is nothing to return from (R285): the next operation is accepted in the normal way. -/

/-- A state-changing operation ends with `o`: the code is stored in `ERR` and delivered (R270, R284). For `o` other than `Ok` this is taking
the exception `o`. -/
def finish (o : OutcomeCode) (s : State) : State := { s with err := o, reply := some ⟨o, none⟩ }

/-- A read ends with `o` and delivers nothing else; no state changes, not `ERR` either (R66, R270). -/
def failRead (o : OutcomeCode) (s : State) : State := { s with reply := some ⟨o, none⟩ }

/-- A read ends with `Ok` and delivers `v` (R66, R240). -/
def deliver (v : Value) (s : State) : State := { s with reply := some ⟨.ok, some v⟩ }

/-- `FR_VALID <- 0; DS_KIND <- 0` (R27, R28). -/
def invalidate (s : State) : State := { s with fr := none, ds := .none }

/-- `PB <- p; PB_LEN <- len(p); FR_VALID <- 0; DS_KIND <- 0; ERR <- Ok` (R202 to R205, R244). -/
def stagePayload (p : List Byte) (s : State) : State :=
  finish .ok (invalidate { s with pb := Memory.ofBytes p, pbLen := BitVec.ofNat 16 p.length })

/-! ### Operations that host operations and the reception of a frame share -/

/-- `FB_CLR` (R241). -/
def clearFrameBuffer (s : State) : State := finish .ok (invalidate { s with fb := [], fbLen := 0 })

/-- `FB_PUSH b` (R242). A refused push changes only `ERR`. -/
def pushFrameByte (b : Byte) (s : State) : State :=
  if s.fbLen.toNat = Config.fbSize then finish .bufferFull s
  else
    finish .ok (invalidate
      { s with fb := Memory.writeLE s.fb s.fbLen.toNat 1 b.toNat, fbLen := s.fbLen + 1 })

/-- `PB_PUSH b` (R245). -/
def pushPayloadByte (b : Byte) (s : State) : State :=
  if s.pbLen.toNat = Config.pbSize then finish .bufferFull s
  else
    finish .ok (invalidate
      { s with pb := Memory.writeLE s.pb s.pbLen.toNat 1 b.toNat, pbLen := s.pbLen + 1 })

/-- The FR group for a frame that occupies `n` bytes (R26, R165). -/
def frameRegsOf (f : Frame) (n : Nat) : FrameRegs :=
  { ver := f.version, dir := f.direction, flag := f.flag, func := f.func, ck := f.checksum, size := BitVec.ofNat 17 n }

/-- `DEC` on the bytes that `FB` holds (R165). -/
def acceptDecoded (r : Except FrameError (Frame × Nat)) (s : State) : State :=
  match r with
  | .error e => finish (frameErrorOutcome e) (invalidate s)
  | .ok (f, n) =>
    finish .ok
      { s with pb := Memory.ofBytes f.payload, pbLen := BitVec.ofNat 16 f.payload.length,
               fr := some (frameRegsOf f n), ds := .none }

/-- `DEC` (R165). -/
def decodeFrameBuffer (s : State) : Result :=
  match fbBytes s with
  | none => fbHole s
  | some bs => .next (acceptDecoded (frameDecode bs) s)

/-- What `UNPACK` does with the answer of the registry (R206). -/
def acceptInterpreted (r : Except OutcomeCode Decoded) (s : State) : State :=
  match r with
  | .error e => finish e { s with ds := .none }
  | .ok d => finish .ok { s with ds := d }

/-- `UNPACK` (R206). -/
def unpackFrame (s : State) : Result :=
  match s.fr with
  | none => .next (finish .noValidFrame { s with ds := .none })
  | some f =>
    match pbBytes s with
    | none => pbHole s
    | some p => .next (acceptInterpreted (interpret s.setwpId f.func f.dir p) s)

/-- `FB_LOAD` (R107): `FB_CLR`, then one `FB_PUSH` for each byte. -/
def loadFrameBytes (bs : List Byte) (s : State) : State :=
  bs.foldl (fun t b => pushFrameByte b t) (clearFrameBuffer s)

/-- `RECV` (R107, R252): `FB_LOAD`, then `DEC`, then `UNPACK` if `DEC` was `Ok`. What the block does with a frame from the wire, in one step
(log 4). The outcome delivered is that of the last operation. -/
def receiveBytes (bs : List Byte) (s : State) : Result :=
  match decodeFrameBuffer (loadFrameBytes bs s) with
  | .next t => if t.err = .ok then unpackFrame t else .next t
  | .fault r => .fault r
  | .refused r => .refused r

/-- A wire instruction received: the bytes of its frame (R91, R92), checksum byte as it came. -/
def receiveFrame (f : Frame) (s : State) : Result := receiveBytes (frameBytes f) s

/-- An undefined operation number (R250): `ERR` alone changes. -/
def illegalOperation (s : State) : State := finish .illegalOperation s

/-! ### Reading a register (R37, R247) -/

/-- An FR register: `NoValidFrame` while `FR_VALID = 0`. -/
def readFr (s : State) (pick : FrameRegs → Value) : Except OutcomeCode Value :=
  match s.fr with
  | some f => .ok (pick f)
  | none => .error .noValidFrame

/-- A WP register: `NoValidStruct` while `DS_KIND` is not 1. -/
def readWp (s : State) (pick : Waypoint → Value) : Except OutcomeCode Value :=
  match s.ds with
  | .setWp w => .ok (pick w)
  | .none | .eepromWrite | .rawImu _ | .rc _ | .opaquePayload => .error .noValidStruct

/-- An IMU register: `NoValidStruct` while `DS_KIND` is not 3. -/
def readImu (s : State) (pick : ImuSample → Value) : Except OutcomeCode Value :=
  match s.ds with
  | .rawImu m => .ok (pick m)
  | .none | .setWp _ | .eepromWrite | .rc _ | .opaquePayload => .error .noValidStruct

/-- `RC_CH[i]`: `NoValidStruct` while `DS_KIND` is not 4. -/
def readRc (s : State) (i : Nat) : Except OutcomeCode Value :=
  match s.ds with
  | .rc c => .ok (.i16 ((rcChannels c).getD i 0))
  | .none | .setWp _ | .eepromWrite | .rawImu _ | .opaquePayload => .error .noValidStruct

/-- The registers 0x00 to 0x06 of R37. -/
def readBasic (s : State) (reg : Nat) : Except OutcomeCode Value :=
  match reg with
  | 0 => .ok (.u8 (outcomeNumber s.err))
  | 1 => .ok (.u8 s.csAcc)
  | 2 => .ok (.u1 (verNumber s.csMode))
  | 3 => .ok (.u17 s.fbLen)
  | 4 => .ok (.u16 s.pbLen)
  | 5 => .ok (.u1 (setwpIdSet s))
  | 6 =>
    match s.setwpId with
    | some v => .ok (.u16 v)
    | none => .error .configUnset
  | _ => .error .illegalOperation

/-- The FR registers, numbers 0x10 to 0x16 of R37, by their low digit. -/
def readFrGroup (s : State) (k : Nat) : Except OutcomeCode Value :=
  match k with
  | 0 => .ok (.u1 (frValid s))
  | 1 => readFr s fun f => .u1 (verNumber f.ver)
  | 2 => readFr s fun f => .u2 (dirNumber f.dir)
  | 3 => readFr s fun f => .u8 f.flag
  | 4 => readFr s fun f => .u16 f.func
  | 5 => readFr s fun f => .u8 f.ck
  | 6 => readFr s fun f => .u17 f.size
  | _ => .error .illegalOperation

/-- `DS_KIND` and the WP registers, numbers 0x20 to 0x29 of R37, by their low digit. -/
def readWpGroup (s : State) (k : Nat) : Except OutcomeCode Value :=
  match k with
  | 0 => .ok (.u3 (dsKind s.ds))
  | 1 => readWp s fun w => .u8 w.index
  | 2 => readWp s fun w => .u8 w.action
  | 3 => readWp s fun w => .i32 w.lat
  | 4 => readWp s fun w => .i32 w.lon
  | 5 => readWp s fun w => .i32 w.alt
  | 6 => readWp s fun w => .i16 w.p1
  | 7 => readWp s fun w => .i16 w.p2
  | 8 => readWp s fun w => .i16 w.p3
  | 9 => readWp s fun w => .u8 w.flags
  | _ => .error .illegalOperation

/-- The IMU registers, numbers 0x30 to 0x35 of R37, by their low digit. -/
def readImuGroup (s : State) (k : Nat) : Except OutcomeCode Value :=
  match k with
  | 0 => readImu s fun m => .i16 m.ax
  | 1 => readImu s fun m => .i16 m.ay
  | 2 => readImu s fun m => .i16 m.az
  | 3 => readImu s fun m => .i16 m.gx
  | 4 => readImu s fun m => .i16 m.gy
  | 5 => readImu s fun m => .i16 m.gz
  | _ => .error .illegalOperation

/-- The register of a number (R37): an undefined number before a guard (R283). -/
def readRegister (s : State) (reg : Byte) : Except OutcomeCode Value :=
  if reg.toNat < 0x10 then readBasic s reg.toNat
  else if reg.toNat < 0x20 then readFrGroup s (reg.toNat - 0x10)
  else if reg.toNat < 0x30 then readWpGroup s (reg.toNat - 0x20)
  else if reg.toNat < 0x40 then readImuGroup s (reg.toNat - 0x30)
  else if reg.toNat < 0x40 + Config.rcChannels then readRc s (reg.toNat - 0x40)
  else .error .illegalOperation

end Sys2Proof.Machine
end

