-- ==== Sys2Proof/Machine/ChecksumEngine.lean ====
section
/-!
DEFINITION. The stand-alone checksum operations (40_checksum_engine.md R138 to R141).
-/

namespace Sys2Proof.Machine

/-- `CS_INIT mode` (R138). -/
def execCsInit (mode : Version) (s : State) : Result :=
  .next (finish .ok { s with csMode := mode, csAcc := 0x00 })

/-- `CS_UPD b` (R139). -/
def execCsUpd (b : Byte) (s : State) : Result :=
  .next (finish .ok { s with csAcc := checksumStep s.csMode s.csAcc b })

/-- `CS_RD` (R140). -/
def execCsRd (s : State) : Result := .next (deliver (.u8 s.csAcc) s)

/-- `CS_CMP b` (R141). -/
def execCsCmp (b : Byte) (s : State) : Result :=
  if s.csAcc = b then .next (finish .ok s) else .next (finish .checksumMismatch s)

end Sys2Proof.Machine
end

