-- ==== Sys2Proof/Machine/CommandRegistry.lean ====
section
/-!
DEFINITION. The command payload operations (42_command_registry.md R202 to R206).
-/

namespace Sys2Proof.Machine

/-- `PACK_SET_WP` (R202). -/
def execPackSetWp (w : Waypoint) (s : State) : Result := .next (stagePayload (packSetwp w) s)

/-- `PACK_EEPROM_WRITE` (R203). -/
def execPackEepromWrite (s : State) : Result := .next (stagePayload packEepromWrite s)

/-- `PACK_RAW_IMU` (R204). -/
def execPackRawImu (m : ImuSample) (s : State) : Result := .next (stagePayload (packRawimu m) s)

/-- `PACK_RC` (R205). -/
def execPackRc (c : RcSample) (s : State) : Result := .next (stagePayload (packRcSample c) s)

/-- `UNPACK` (R206). -/
def execUnpack (s : State) : Result := unpackFrame s

end Sys2Proof.Machine
end

