-- ==== Sys2Proof/Machine/FrameCodec.lean ====
section
/-!
DEFINITION. The frame codec's operations (41_frame_codec.md R164, R165).
-/

namespace Sys2Proof.Machine

/-- The state after a successful `ENC` of the payload `p` (R164): `FB` is replaced as a whole. -/
def installEncoded (ver : Version) (dir : Direction) (func : U16) (p : List Byte) (s : State) : State :=
  let bs := frameEncode ver dir func p
  finish .ok
    { s with
      fb := Memory.ofBytes bs
      fbLen := BitVec.ofNat 17 bs.length
      fr := some { ver := ver, dir := dir, flag := 0x00, func := func, ck := byteAt bs (bs.length - 1),
                   size := BitVec.ofNat 17 bs.length }
      ds := .none }

/-- R98, R164: the operands and the payload length fit the format. -/
def encInRange (ver : Version) (func : U16) (len : Nat) : Bool :=
  match ver with
  | .v1 => decide (func.toNat ≤ Config.v1MaxFunc) && decide (len ≤ Config.v1MaxPayload)
  | .v2 => true

/-- `ENC ver, dir, func` (R164): direction 3 is refused before the V1 ranges are tested (R283). -/
def execEnc (ver : Version) (dir : BitVec 2) (func : U16) (s : State) : Result :=
  match dirOfNumber dir with
  | none => .next (finish .fieldRange s)
  | some d =>
    if encInRange ver func s.pbLen.toNat then
      match pbBytes s with
      | none => pbHole s
      | some p => .next (installEncoded ver d func p s)
    else .next (finish .fieldRange s)

/-- `DEC` (R165). -/
def execDec (s : State) : Result := decodeFrameBuffer s

end Sys2Proof.Machine
end

