-- ==== Sys2Proof/Machine/HostPort.lean ====
section
/-!
DEFINITION. Buffer and register access, configuration and reset (43_host_port.md R241 to R249).
-/

namespace Sys2Proof.Machine

/-- `FB_CLR` (R241). -/
def execFbClr (s : State) : Result := .next (clearFrameBuffer s)

/-- `FB_PUSH b` (R242). -/
def execFbPush (b : Byte) (s : State) : Result := .next (pushFrameByte b s)

/-- `FB_RD i` (R243). -/
def execFbRd (i : U17) (s : State) : Result :=
  if s.fbLen.toNat ≤ i.toNat then .next (failRead .bufferRange s)
  else
    match Memory.readLE s.fb i.toNat 1 with
    | some v => .next (deliver (.u8 (BitVec.ofNat 8 v)) s)
    | none => .fault (.unwrittenCell true i.toNat)

/-- `PB_CLR` (R244). -/
def execPbClr (s : State) : Result := .next (stagePayload [] s)

/-- `PB_PUSH b` (R245). -/
def execPbPush (b : Byte) (s : State) : Result := .next (pushPayloadByte b s)

/-- `PB_RD i` (R246). -/
def execPbRd (i : U16) (s : State) : Result :=
  if s.pbLen.toNat ≤ i.toNat then .next (failRead .bufferRange s)
  else
    match Memory.readLE s.pb i.toNat 1 with
    | some v => .next (deliver (.u8 (BitVec.ofNat 8 v)) s)
    | none => .fault (.unwrittenCell false i.toNat)

/-- `RD reg` (R247). -/
def execRd (reg : Byte) (s : State) : Result :=
  match readRegister s reg with
  | .ok v => .next (deliver v s)
  | .error o => .next (failRead o s)

/-- `CFG_SETWP_ID v` (R248): the ids of the other commands are refused. -/
def execCfgSetwpId (v : U16) (s : State) : Result :=
  if v = Config.eepromWriteId ∨ v = Config.rawImuId ∨ v = Config.rcId then .next (finish .fieldRange s)
  else .next (finish .ok { s with setwpId := some v, ds := .none })

/-- `RESET` (R249, R300): every register of R20 takes its reset value; what the host still presents is not the block's (log 18). -/
def execReset (s : State) : Result := .next (finish .ok { State.reset with port := s.port })

end Sys2Proof.Machine
end

