-- ==== Sys2Proof/Machine/Wire.lean ====
section
/-!
DEFINITION. The frames on the wire (level W, 42_command_registry.md R193 to R201): each is received as `RECV` says (R107, R252; log 4), with
the direction and the function id its row fixes.
-/

namespace Sys2Proof.Machine

/-- `ERROR` in format V1 (R200): opaque whatever the id and the payload. -/
def execErrorV1 (func : Byte) (payload : List Byte) (ck : Byte) (s : State) : Result :=
  receiveFrame
    { version := .v1, direction := .error, flag := 0, func := func.setWidth 16, payload := payload, checksum := ck } s

/-- `ERROR` in format V2 (R200): opaque whatever the id and the payload. -/
def execErrorV2 (flag : Byte) (func : U16) (payload : List Byte) (ck : Byte) (s : State) : Result :=
  receiveFrame
    { version := .v2, direction := .error, flag := flag, func := func, payload := payload, checksum := ck } s

/-- `EEPROM_WRITE` in format V1 (R194): no field; a payload is ignored. -/
def execEepromWriteV1 (payload : List Byte) (ck : Byte) (s : State) : Result :=
  receiveFrame
    { version := .v1, direction := .request, flag := 0, func := Config.eepromWriteId, payload := payload, checksum := ck } s

/-- `RAW_IMU.REQ` in format V1 (R197): opaque, whatever the payload. -/
def execRawImuReqV1 (payload : List Byte) (ck : Byte) (s : State) : Result :=
  receiveFrame
    { version := .v1, direction := .request, flag := 0, func := Config.rawImuId, payload := payload, checksum := ck } s

/-- `RC.REQ` in format V1 (R198): opaque, whatever the payload. -/
def execRcReqV1 (payload : List Byte) (ck : Byte) (s : State) : Result :=
  receiveFrame
    { version := .v1, direction := .request, flag := 0, func := Config.rcId, payload := payload, checksum := ck } s

/-- `RAW_IMU` in format V1 (R195): the IMU file, from at least 12 bytes. -/
def execRawImuV1 (payload : List Byte) (ck : Byte) (s : State) : Result :=
  receiveFrame
    { version := .v1, direction := .response, flag := 0, func := Config.rawImuId, payload := payload, checksum := ck } s

/-- `RC` in format V1 (R196): the RC file, from at least 34 bytes. -/
def execRcV1 (payload : List Byte) (ck : Byte) (s : State) : Result :=
  receiveFrame
    { version := .v1, direction := .response, flag := 0, func := Config.rcId, payload := payload, checksum := ck } s

/-- `EEPROM_WRITE.ACK` in format V1 (R199): opaque, whatever the payload. -/
def execEepromWriteAckV1 (payload : List Byte) (ck : Byte) (s : State) : Result :=
  receiveFrame
    { version := .v1, direction := .response, flag := 0, func := Config.eepromWriteId, payload := payload, checksum := ck } s

/-- `EEPROM_WRITE` in format V2 (R194): no field; a payload is ignored. -/
def execEepromWriteV2 (flag : Byte) (payload : List Byte) (ck : Byte) (s : State) : Result :=
  receiveFrame
    { version := .v2, direction := .request, flag := flag, func := Config.eepromWriteId, payload := payload, checksum := ck } s

/-- `RAW_IMU.REQ` in format V2 (R197): opaque, whatever the payload. -/
def execRawImuReqV2 (flag : Byte) (payload : List Byte) (ck : Byte) (s : State) : Result :=
  receiveFrame
    { version := .v2, direction := .request, flag := flag, func := Config.rawImuId, payload := payload, checksum := ck } s

/-- `RC.REQ` in format V2 (R198): opaque, whatever the payload. -/
def execRcReqV2 (flag : Byte) (payload : List Byte) (ck : Byte) (s : State) : Result :=
  receiveFrame
    { version := .v2, direction := .request, flag := flag, func := Config.rcId, payload := payload, checksum := ck } s

/-- `RAW_IMU` in format V2 (R195): the IMU file, from at least 12 bytes. -/
def execRawImuV2 (flag : Byte) (payload : List Byte) (ck : Byte) (s : State) : Result :=
  receiveFrame
    { version := .v2, direction := .response, flag := flag, func := Config.rawImuId, payload := payload, checksum := ck } s

/-- `RC` in format V2 (R196): the RC file, from at least 34 bytes. -/
def execRcV2 (flag : Byte) (payload : List Byte) (ck : Byte) (s : State) : Result :=
  receiveFrame
    { version := .v2, direction := .response, flag := flag, func := Config.rcId, payload := payload, checksum := ck } s

/-- `EEPROM_WRITE.ACK` in format V2 (R199): opaque, whatever the payload. -/
def execEepromWriteAckV2 (flag : Byte) (payload : List Byte) (ck : Byte) (s : State) : Result :=
  receiveFrame
    { version := .v2, direction := .response, flag := flag, func := Config.eepromWriteId, payload := payload, checksum := ck } s

/-- `SET_WP` in format V1 (R193): the WP file, from at least 21 bytes, if the id is `SETWP_ID` (else R201, log 6). -/
def execSetWpV1 (func : Byte) (payload : List Byte) (ck : Byte) (s : State) : Result :=
  receiveFrame
    { version := .v1, direction := .request, flag := 0, func := func.setWidth 16, payload := payload, checksum := ck } s

/-- `SET_WP.ACK` in format V1 (R199): opaque, if the id is `SETWP_ID` (else R201, log 6). -/
def execSetWpAckV1 (func : Byte) (payload : List Byte) (ck : Byte) (s : State) : Result :=
  receiveFrame
    { version := .v1, direction := .response, flag := 0, func := func.setWidth 16, payload := payload, checksum := ck } s

/-- `SET_WP` in format V2 (R193): the WP file, from at least 21 bytes, if the id is `SETWP_ID` (else R201, log 6). -/
def execSetWpV2 (flag : Byte) (func : U16) (payload : List Byte) (ck : Byte) (s : State) : Result :=
  receiveFrame
    { version := .v2, direction := .request, flag := flag, func := func, payload := payload, checksum := ck } s

/-- `SET_WP.ACK` in format V2 (R199): opaque, if the id is `SETWP_ID` (else R201, log 6). -/
def execSetWpAckV2 (flag : Byte) (func : U16) (payload : List Byte) (ck : Byte) (s : State) : Result :=
  receiveFrame
    { version := .v2, direction := .response, flag := flag, func := func, payload := payload, checksum := ck } s

end Sys2Proof.Machine
end

