-- ==== Sys2Proof/Machine/Dispatch.lean ====
section
/-!
DEFINITION. One arm per instruction.
-/

namespace Sys2Proof.Machine

def exec (i : Instr) (s : State) : Host.Outcome State Fault Refusal :=
  match i with
  | .errorV1 func payload ck => Sys2Proof.Machine.execErrorV1 func payload ck s
  | .errorV2 flag func payload ck => Sys2Proof.Machine.execErrorV2 flag func payload ck s
  | .eepromWriteV1 payload ck => Sys2Proof.Machine.execEepromWriteV1 payload ck s
  | .rawImuReqV1 payload ck => Sys2Proof.Machine.execRawImuReqV1 payload ck s
  | .rcReqV1 payload ck => Sys2Proof.Machine.execRcReqV1 payload ck s
  | .rawImuV1 payload ck => Sys2Proof.Machine.execRawImuV1 payload ck s
  | .rcV1 payload ck => Sys2Proof.Machine.execRcV1 payload ck s
  | .eepromWriteAckV1 payload ck => Sys2Proof.Machine.execEepromWriteAckV1 payload ck s
  | .eepromWriteV2 flag payload ck => Sys2Proof.Machine.execEepromWriteV2 flag payload ck s
  | .rawImuReqV2 flag payload ck => Sys2Proof.Machine.execRawImuReqV2 flag payload ck s
  | .rcReqV2 flag payload ck => Sys2Proof.Machine.execRcReqV2 flag payload ck s
  | .rawImuV2 flag payload ck => Sys2Proof.Machine.execRawImuV2 flag payload ck s
  | .rcV2 flag payload ck => Sys2Proof.Machine.execRcV2 flag payload ck s
  | .eepromWriteAckV2 flag payload ck => Sys2Proof.Machine.execEepromWriteAckV2 flag payload ck s
  | .setWpV1 func payload ck => Sys2Proof.Machine.execSetWpV1 func payload ck s
  | .setWpAckV1 func payload ck => Sys2Proof.Machine.execSetWpAckV1 func payload ck s
  | .setWpV2 flag func payload ck => Sys2Proof.Machine.execSetWpV2 flag func payload ck s
  | .setWpAckV2 flag func payload ck => Sys2Proof.Machine.execSetWpAckV2 flag func payload ck s
  | .csInit mode => Sys2Proof.Machine.execCsInit mode s
  | .csUpd b => Sys2Proof.Machine.execCsUpd b s
  | .csRd => Sys2Proof.Machine.execCsRd s
  | .csCmp b => Sys2Proof.Machine.execCsCmp b s
  | .enc ver dir func => Sys2Proof.Machine.execEnc ver dir func s
  | .dec => Sys2Proof.Machine.execDec s
  | .packSetWp w => Sys2Proof.Machine.execPackSetWp w s
  | .packEepromWrite => Sys2Proof.Machine.execPackEepromWrite s
  | .packRawImu m => Sys2Proof.Machine.execPackRawImu m s
  | .packRc c => Sys2Proof.Machine.execPackRc c s
  | .unpack => Sys2Proof.Machine.execUnpack s
  | .fbClr => Sys2Proof.Machine.execFbClr s
  | .fbPush b => Sys2Proof.Machine.execFbPush b s
  | .fbRd index => Sys2Proof.Machine.execFbRd index s
  | .pbClr => Sys2Proof.Machine.execPbClr s
  | .pbPush b => Sys2Proof.Machine.execPbPush b s
  | .pbRd index => Sys2Proof.Machine.execPbRd index s
  | .rd reg => Sys2Proof.Machine.execRd reg s
  | .cfgSetwpId v => Sys2Proof.Machine.execCfgSetwpId v s
  | .reset => Sys2Proof.Machine.execReset s

end Sys2Proof.Machine
end

