-- ==== Sys2Proof/Machine/Fetch.lean ====
section
/-!
DEFINITION. Taking the next packet from the host port, and what becomes of a packet that is no instruction.
-/

namespace Sys2Proof.Machine

/-- The next packet and the state without it; `none` when the host presents nothing (R240; log 3). -/
def fetch (s : State) : Option (Packet × State) :=
  match s.port with
  | [] => none
  | p :: rest => some (p, { s with port := rest })

/-- A packet that is no instruction: an undefined operation number is R250; bytes that are not exactly one frame are received all the
same, and `DEC` finds what they are (R100, R170, R272, R273; log 5); a badly packed operation is refused by name (log 9). -/
def runUndecoded (p : Packet) (e : DecodeError) (s : State) : Result :=
  match p with
  | .frame bs => receiveBytes bs s
  | .operation _ =>
    match e with
    | .illegalOperation => .next (illegalOperation s)
    | .badCommandWord | .notAFrame _ | .trailingBytes => .refused .badCommandWord

end Sys2Proof.Machine
end

