-- ==== Sys2Proof/Machine/Step.lean ====
section
/-!
DEFINITION. One step (43_host_port.md R240): the block takes the next packet the host presents, reads it as an instruction and runs it.
With nothing presented it waits and changes nothing (R301; log 3).
-/

namespace Sys2Proof.Machine

/-- One step of the machine. -/
def step (s : State) : Host.Outcome State Fault Refusal :=
  match fetch s with
  | none => .next s
  | some (p, t) =>
    match decode p with
    | .ok i => exec i t
    | .error e => runUndecoded p e t

/-- `s` with the instruction of a table row's bits presented next at the port (log 16). -/
def State.withFetchWord (s : State) (nbits w : Nat) : State := { s with port := tablePacket nbits w :: s.port }

end Sys2Proof.Machine
end

