-- ==== Sys2Proof/Machine/Pseudo.lean ====
section
/-!
DEFINITION. The pseudo-instructions (30_encoding.md R107): fixed sequences of host operations, as programs of a host.
-/

namespace Sys2Proof.Machine

/-- A sequence of instructions, one after the other, to the first stop. -/
def runOps : List Instr → State → Result
  | [], s => .next s
  | i :: is, s =>
    match exec i s with
    | .next t => runOps is t
    | .fault r => .fault r
    | .refused r => .refused r

/-- `FB_LOAD b0 ... bn`. -/
def fbLoad (bs : List Byte) : List Instr := .fbClr :: bs.map .fbPush

/-- `PB_LOAD b0 ... bn`. -/
def pbLoad (bs : List Byte) : List Instr := .pbClr :: bs.map .pbPush

/-- `CSUM mode, b0 ... bn`. -/
def csum (mode : Version) (bs : List Byte) : List Instr := .csInit mode :: (bs.map .csUpd ++ [.csRd])

/-- `SEND_REQ ver, func`: a request with empty payload. -/
def sendReq (ver : Version) (func : U16) : List Instr := [.pbClr, .enc ver (dirNumber .request) func]

/-- `SEND_EEPROM_WRITE ver`. -/
def sendEepromWrite (ver : Version) : List Instr :=
  [.packEepromWrite, .enc ver (dirNumber .request) Config.eepromWriteId]

/-- `SEND_SET_WP ver, ...`: the id is what `RD SETWP_ID` delivers; where that read fails it stops there. -/
def sendSetWp (ver : Version) (w : Waypoint) (s : State) : Result :=
  match runOps [.packSetWp w, .rd 0x06] s with
  | .next t =>
    match t.reply with
    | some ⟨.ok, some (.u16 id)⟩ => exec (.enc ver (dirNumber .request) id) t
    | _ => .next t
  | .fault r => .fault r
  | .refused r => .refused r

/-- `RECV b0 ... bn`: `FB_LOAD`, `DEC`, and `UNPACK` if `DEC` was `Ok`. -/
def recv (bs : List Byte) (s : State) : Result :=
  match runOps (fbLoad bs ++ [.dec]) s with
  | .next t => if t.err = .ok then exec .unpack t else .next t
  | .fault r => .fault r
  | .refused r => .refused r

end Sys2Proof.Machine
end

