-- ==== Sys2Proof/Safety.lean ====
section
/-!
DEFINITION. What every reachable state satisfies (10_state.md R24, R27, R28, R32) and what a safe step is, in the terms the statements use.
-/

namespace Sys2Proof.Machine

/-- R24: `m` lists exactly the addresses below `n`, in order. -/
def denseTo (m : Memory) (n : Nat) : Bool := m.map Prod.fst == List.range n

/-- R24, R25: both buffers hold exactly their valid bytes, and `FB_LEN` is in its range. -/
def State.buffersHeld (s : State) : Bool :=
  denseTo s.fb s.fbLen.toNat && denseTo s.pb s.pbLen.toNat && decide (s.fbLen.toNat ≤ Config.fbSize)

/-- The Frame that the FR group and a payload describe (R26). -/
def frameOfRegs (f : FrameRegs) (p : List Byte) : Frame :=
  { version := f.ver, direction := f.dir, flag := f.flag, func := f.func, payload := p, checksum := f.ck }

/-- R27: while `FR_VALID = 1`, `decode` of `FB` gives the frame that the FR group and `PB` describe, with size `FR_SIZE`. -/
def State.frameHeld (s : State) : Bool :=
  match s.fr with
  | none => true
  | some f =>
    match fbBytes s, pbBytes s with
    | some bs, some p =>
      decide (f.size.toNat ≤ s.fbLen.toNat) && (frameDecode bs == .ok (frameOfRegs f p, f.size.toNat))
    | _, _ => false

/-- R28: while `DS_KIND` is not 0, `FR_VALID = 1` and the DS group is what the registry gives for the held frame. -/
def State.decodedHeld (s : State) : Bool :=
  match s.ds with
  | .none => true
  | .setWp _ | .eepromWrite | .rawImu _ | .rc _ | .opaquePayload =>
    match s.fr, pbBytes s with
    | some f, some p => interpret s.setwpId f.func f.dir p == .ok s.ds
    | _, _ => false

/-- R32: `SETWP_ID` is never the id of another command. -/
def State.configHeld (s : State) : Bool :=
  match s.setwpId with
  | none => true
  | some id => !isFixedId id

/-- The invariant of the block: R24, R25, R27, R28, R32. -/
def State.inv (s : State) : Bool := s.buffersHeld && s.frameHeld && s.decodedHeld && s.configHeld

/-- A step that is not a fault, and is refused only for a badly packed command word (log 9). -/
def safeResult : Result → Bool
  | .next _ => true
  | .fault _ => false
  | .refused r => r == .badCommandWord

/-- The four reads, which change no state, not even `ERR` (R33, R66). -/
def isRead : Instr → Bool
  | .csRd | .fbRd _ | .pbRd _ | .rd _ => true
  | .errorV1 _ _ _ | .errorV2 _ _ _ _ | .eepromWriteV1 _ _ | .rawImuReqV1 _ _ | .rcReqV1 _ _ | .rawImuV1 _ _
  | .rcV1 _ _ | .eepromWriteAckV1 _ _ | .eepromWriteV2 _ _ _ | .rawImuReqV2 _ _ _ | .rcReqV2 _ _ _ | .rawImuV2 _ _ _
  | .rcV2 _ _ _ | .eepromWriteAckV2 _ _ _ | .setWpV1 _ _ _ | .setWpAckV1 _ _ _ | .setWpV2 _ _ _ _
  | .setWpAckV2 _ _ _ _ | .csInit _ | .csUpd _ | .csCmp _ | .enc _ _ _ | .dec | .packSetWp _ | .packEepromWrite
  | .packRawImu _ | .packRc _ | .unpack | .fbClr | .fbPush _ | .pbClr | .pbPush _ | .cfgSetwpId _ | .reset => false

/-- What an operation does to a group of state in the write matrix: leaves it, sets it to nothing (`<- 0`), or writes it. -/
inductive Change where
  | kept | cleared | written
  deriving DecidableEq, Repr

/-- One cell of the write matrix (R38). A group of state that is not named is left unchanged. -/
structure Writes where
  csAcc : Bool := false
  csMode : Bool := false
  fb : Change := .kept
  pb : Change := .kept
  frame : Change := .kept
  decoded : Change := .kept
  config : Change := .kept
  err : Bool := true
  deriving DecidableEq, Repr

/-- The outcomes that `DEC` fails with (R163). -/
def isDecFailure : OutcomeCode → Bool
  | .malformedHeader | .truncatedPayload | .checksumMismatch => true
  | .ok | .payloadLayoutError | .unexpectedFunction | .configUnset | .fieldRange | .bufferFull | .bufferRange
  | .noValidFrame | .noValidStruct | .illegalOperation => false

/-- What a frame received in one step writes, by the outcome of the last operation of its sequence (log 4). -/
def wireWrites (o : OutcomeCode) : Writes :=
  if isDecFailure o then { fb := .written, frame := .cleared, decoded := .cleared }
  else { fb := .written, pb := .written, frame := .written, decoded := if o = .ok then .written else .cleared }

/-- The write matrix (R38): the row of an instruction, its column chosen by the outcome. The rows of the frames on the wire are the model's
(log 4). -/
def writesOf (i : Instr) (o : OutcomeCode) : Writes :=
  match i with
  | .csInit _ => { csAcc := true, csMode := true }
  | .csUpd _ => { csAcc := true }
  | .csRd | .fbRd _ | .pbRd _ | .rd _ => { err := false }
  | .csCmp _ => {}
  | .enc _ _ _ => if o = .ok then { fb := .written, frame := .written, decoded := .cleared } else {}
  | .dec =>
    if o = .ok then { pb := .written, frame := .written, decoded := .cleared }
    else { frame := .cleared, decoded := .cleared }
  | .packSetWp _ | .packEepromWrite | .packRawImu _ | .packRc _ =>
    { pb := .written, frame := .cleared, decoded := .cleared }
  | .unpack => { decoded := if o = .ok then .written else .cleared }
  | .fbClr => { fb := .cleared, frame := .cleared, decoded := .cleared }
  | .fbPush _ => if o = .ok then { fb := .written, frame := .cleared, decoded := .cleared } else {}
  | .pbClr => { pb := .cleared, frame := .cleared, decoded := .cleared }
  | .pbPush _ => if o = .ok then { pb := .written, frame := .cleared, decoded := .cleared } else {}
  | .cfgSetwpId _ => if o = .ok then { decoded := .cleared, config := .written } else {}
  | .reset =>
    { csAcc := true, csMode := true, fb := .cleared, pb := .cleared, frame := .cleared, decoded := .cleared,
      config := .cleared }
  | .errorV1 _ _ _ | .errorV2 _ _ _ _ | .eepromWriteV1 _ _ | .rawImuReqV1 _ _ | .rcReqV1 _ _ | .rawImuV1 _ _
  | .rcV1 _ _ | .eepromWriteAckV1 _ _ | .eepromWriteV2 _ _ _ | .rawImuReqV2 _ _ _ | .rcReqV2 _ _ _ | .rawImuV2 _ _ _
  | .rcV2 _ _ _ | .eepromWriteAckV2 _ _ _ | .setWpV1 _ _ _ | .setWpAckV1 _ _ _ | .setWpV2 _ _ _ _
  | .setWpAckV2 _ _ _ _ => wireWrites o

/-- The rows of the write matrix that say "(cannot fail)" (R38). -/
def cannotFail : Instr → Bool
  | .csInit _ | .csUpd _ | .csRd | .packSetWp _ | .packEepromWrite | .packRawImu _ | .packRc _ | .fbClr | .pbClr | .reset => true
  | .errorV1 _ _ _ | .errorV2 _ _ _ _ | .eepromWriteV1 _ _ | .rawImuReqV1 _ _ | .rcReqV1 _ _ | .rawImuV1 _ _
  | .rcV1 _ _ | .eepromWriteAckV1 _ _ | .eepromWriteV2 _ _ _ | .rawImuReqV2 _ _ _ | .rcReqV2 _ _ _ | .rawImuV2 _ _ _
  | .rcV2 _ _ _ | .eepromWriteAckV2 _ _ _ | .setWpV1 _ _ _ | .setWpAckV1 _ _ _ | .setWpV2 _ _ _ _
  | .setWpAckV2 _ _ _ _ | .csCmp _ | .enc _ _ _ | .dec | .unpack | .fbPush _ | .fbRd _ | .pbPush _ | .pbRd _ | .rd _
  | .cfgSetwpId _ => false

/-- `s` with bit `k` of byte `i` inverted (R168). -/
def flipBit (s : List Byte) (i k : Nat) : List Byte := s.modify i (· ^^^ (1#8 <<< k))

/-- The byte-wise XOR of two sequences (R143). -/
def xorBytes (s d : List Byte) : List Byte := List.zipWith (· ^^^ ·) s d

/-- The state after `RECV` of the bytes of a frame that `DEC` accepts, with `ds` what `UNPACK` gives (R165, R206). -/
def received (f : Frame) (ds : Decoded) (s : State) : State :=
  { s with
    fb := Memory.ofBytes (frameBytes f)
    fbLen := BitVec.ofNat 17 (frameSize f.version f.payload.length)
    pb := Memory.ofBytes f.payload
    pbLen := BitVec.ofNat 16 f.payload.length
    fr := some { ver := f.version, dir := f.direction, flag := f.flag, func := f.func, ck := f.checksum,
                 size := BitVec.ofNat 17 (frameSize f.version f.payload.length) }
    ds := ds
    err := .ok
    reply := some ⟨.ok, none⟩ }

/-- The state after `RECV` of a frame that `DEC` accepts and whose payload `UNPACK` refuses with `o` (R206): the frame stays held. -/
def receivedRefused (f : Frame) (o : OutcomeCode) (s : State) : State :=
  { received f .none s with err := o, reply := some ⟨o, none⟩ }

/-- The frame that `f`'s bytes are re-cut into when its length field says `l` and no other byte changes (R168 (e)): the byte behind the first
`l` payload bytes is taken as the checksum. -/
def recut (f : Frame) (l : Nat) : Frame := { f with payload := f.payload.take l, checksum := byteAt f.payload l }

/-- The state after `RECV` of bytes that `DEC` refuses with `o` (R165): `PB` keeps its bytes, nothing is held as a frame. -/
def rejected (bs : List Byte) (o : OutcomeCode) (s : State) : State :=
  { s with
    fb := Memory.ofBytes bs
    fbLen := BitVec.ofNat 17 bs.length
    fr := none
    ds := .none
    err := o
    reply := some ⟨o, none⟩ }

end Sys2Proof.Machine
end

