-- ==== Sys2Proof/Certificates/Slice0/Obligations.lean ====
section
/-!
DEFINITION. The statements for the provers. Each cites the rules it comes from in OBLIGATIONS.json.
-/

open Sys2Proof Sys2Proof.Machine

/-! ### The checksum engine -/

/-- R138, R139: `CS_INIT` selects the algorithm and clears the accumulator; `CS_UPD` takes one step of the selected algorithm. -/
def Obligations.ChecksumWritersResult : Prop :=
  (∀ (mode : Version) (s : State),
    exec (.csInit mode) s
      = .next { s with csMode := mode, csAcc := 0x00, err := .ok, reply := some ⟨.ok, none⟩ } ∧
    (operationBytes (.csInit mode)).head? = some 0x01) ∧
  (∀ (b : Byte) (s : State),
    (s.csMode = .v1 → exec (.csUpd b) s
      = .next { s with csAcc := s.csAcc ^^^ b, err := .ok, reply := some ⟨.ok, none⟩ }) ∧
    (s.csMode = .v2 → exec (.csUpd b) s
      = .next { s with csAcc := crc8Step s.csAcc b, err := .ok, reply := some ⟨.ok, none⟩ }) ∧
    (operationBytes (.csUpd b)).head? = some 0x02)

/-- R140, R141: `CS_RD` delivers the accumulator, as `RD CS_ACC` does, and writes no state; `CS_CMP` compares it and writes `ERR` alone. -/
def Obligations.ChecksumReadersResult : Prop :=
  (∀ s : State, exec .csRd s = .next { s with reply := some ⟨.ok, some (.u8 s.csAcc)⟩ } ∧
    exec (.rd 0x01) s = exec .csRd s ∧
    (operationBytes .csRd).head? = some 0x03) ∧
  (∀ (b : Byte) (s : State),
    (s.csAcc = b → exec (.csCmp b) s = .next { s with err := .ok, reply := some ⟨.ok, none⟩ }) ∧
    (s.csAcc ≠ b → exec (.csCmp b) s
      = .next { s with err := .checksumMismatch, reply := some ⟨.checksumMismatch, none⟩ }) ∧
    (operationBytes (.csCmp b)).head? = some 0x04)

/-- The spec's sentence in R139 (its own inference): after `CS_INIT m` and `CS_UPD` of every byte of `bs` the accumulator holds the
checksum of `bs` (R132), which `CS_RD` delivers; nothing but the CSE, `ERR` and the delivery changes. -/
def Obligations.ChecksumFoldByOperations : Prop :=
  ∀ (mode : Version) (bs : List Byte) (s : State),
    runOps (csum mode bs) s
      = .next { s with csMode := mode, csAcc := (match mode with | .v1 => xor8 bs | .v2 => crc8 bs), err := .ok,
                       reply := some ⟨.ok, some (.u8 (match mode with | .v1 => xor8 bs | .v2 => crc8 bs))⟩ }

/-- R22, R23: no operation but `CS_INIT`, `CS_UPD`, `CS_RD`, `CS_CMP`, `RD` and `RESET` reads or writes `CS_ACC` or `CS_MODE`: with other
values there every other operation ends the same way, and leaves those values where they are. -/
def Obligations.ChecksumStateNotShared : Prop :=
  ∀ (i : Instr) (s : State) (a : Byte) (m : Version),
    (∀ x, i ≠ .csInit x) → (∀ b, i ≠ .csUpd b) → i ≠ .csRd → (∀ b, i ≠ .csCmp b) → (∀ r, i ≠ .rd r) → i ≠ .reset →
    exec i { s with csAcc := a, csMode := m }
      = (match exec i s with
         | .next t => .next { t with csAcc := a, csMode := m }
         | .fault r => .fault r
         | .refused r => .refused r)

/-- R136 (the spec's own inference): the shift-register engine with polynomial 0x01 is the XOR step, with 0xD5 the CRC step. -/
def Obligations.OneEngineTwoPolynomials : Prop :=
  ∀ c b : Byte, crcPStep 0x01 c b = xor8Step c b ∧ crcPStep 0xD5 c b = crc8Step c b

/-- R137 and R144 (the spec's own inferences): the CRC step depends on `c ^ b` alone, through a table that is a permutation of the bytes and
fixes 0x00. -/
def Obligations.CrcTableIsPermutation : Prop :=
  (∀ c b : Byte, crc8Step c b = crcTable (c ^^^ b)) ∧ (∀ x y : Byte, crcTable x = crcTable y → x = y) ∧
    crcTable 0x00 = 0x00 ∧ crcTable 0x01 = 0xD5 ∧ crcTable 0x02 = 0x7F ∧ crcTable 0x80 = 0xEF ∧ crcTable 0xFF = 0xF9

/-- R143 (the spec's own inference): both checksums are linear over byte-wise XOR of sequences of equal length. -/
def Obligations.ChecksumsAreLinear : Prop :=
  ∀ s t : List Byte, s.length = t.length →
    xor8 (xorBytes s t) = xor8 s ^^^ xor8 t ∧ crc8 (xorBytes s t) = crc8 s ^^^ crc8 t

/-- R144 (the spec's own inference): a difference pattern with exactly one bit set has a checksum other than 0x00 in both algorithms. -/
def Obligations.OneBitPatternHasChecksum : Prop :=
  ∀ (before behind k : Nat), k < 8 →
    xor8 (List.replicate before 0 ++ [1#8 <<< k] ++ List.replicate behind 0) ≠ 0 ∧
    crc8 (List.replicate before 0 ++ [1#8 <<< k] ++ List.replicate behind 0) ≠ 0

/-- R145 (the spec's own inference): the XOR fold of a pattern is 0x00 exactly when every bit position is set in an even number of its
bytes, and a V1 frame whose payload is changed by such a pattern, and by no other, is still well-formed. -/
def Obligations.XorWeaknessExactly : Prop :=
  (∀ d : List Byte, xor8 d = 0 ↔ ∀ k < 8, Even (d.countP fun b => b.getLsbD k)) ∧
  (∀ (f : Frame) (d : List Byte), f.version = .v1 → frameWellFormed f = true → d.length = f.payload.length →
    (frameWellFormed { f with payload := xorBytes f.payload d } = true ↔ xor8 d = 0))

/-! ### The frame codec's functions -/

/-- R166 (the spec's own inference from R161 to R163): decoding an encoded frame gives back version, direction, function id and payload, with
flag 0x00, the checksum byte that the encoder appended, and the size of the frame. -/
def Obligations.FrameRoundTrip : Prop :=
  ∀ (v : Version) (d : Direction) (func : U16) (p : List Byte),
    (v = .v1 → func.toNat ≤ 255 ∧ p.length ≤ 255) → (v = .v2 → p.length ≤ 65535) →
    frameDecode (frameEncode v d func p)
      = .ok ({ version := v, direction := d, flag := 0x00, func := func, payload := p,
               checksum := byteAt (frameEncode v d func p) ((frameEncode v d func p).length - 1) },
             (frameEncode v d func p).length) ∧
    (frameEncode v d func p).length = (match v with | .v1 => 6 | .v2 => 9) + p.length

/-- R167 (the spec's own inference), R160: what `decode` accepts is a well-formed frame whose bytes are exactly its encoding, with the flag byte as
it came in V2. -/
def Obligations.FrameDecodeSound : Prop :=
  ∀ (s : List Byte) (f : Frame) (n : Nat), frameDecode s = .ok (f, n) →
    frameWellFormed f = true ∧ n = frameSize f.version f.payload.length ∧ n ≤ s.length ∧
    (f.version = .v1 → s.take n = frameEncode .v1 f.direction f.func f.payload) ∧
    (f.version = .v2 → s.take n = encodeV2 f.direction f.flag f.func f.payload)

/-- R170: a sequence whose index 0 is not `$` is never a frame, whatever follows; and bytes behind the frame's last byte are not examined:
whatever stands there, or nothing, the same frame of the same size is decoded. -/
def Obligations.DecodeFromIndexZeroOnly : Prop :=
  (∀ s : List Byte, s.head? ≠ some 0x24 → frameDecode s = .error .malformedHeader) ∧
  (∀ (s rest : List Byte) (f : Frame) (n : Nat), frameDecode s = .ok (f, n) → frameDecode (s.take n ++ rest) = .ok (f, n))

/-- R163: exactly when `decode` reports each of the three failures, and the frame and size that it answers otherwise. -/
def Obligations.DecodeResultExactly : Prop :=
  ∀ s : List Byte,
    let header : Prop := 3 ≤ s.length ∧ byteAt s 0 = 0x24 ∧ (byteAt s 1 = 0x4D ∨ byteAt s 1 = 0x58) ∧
      (byteAt s 2 = 0x3C ∨ byteAt s 2 = 0x3E ∨ byteAt s 2 = 0x21)
    let l1 : Nat := (byteAt s 3).toNat
    let l2 : Nat := (byteAt s 6).toNat + 256 * (byteAt s 7).toNat
    let wholeV1 : Prop := 5 ≤ s.length ∧ 5 + l1 + 1 ≤ s.length
    let wholeV2 : Prop := 8 ≤ s.length ∧ 8 + l2 + 1 ≤ s.length
    let badV1 : Prop := xor8 ((s.take (5 + l1)).drop 3) ≠ byteAt s (5 + l1)
    let badV2 : Prop := crc8 ((s.take (8 + l2)).drop 3) ≠ byteAt s (8 + l2)
    (frameDecode s = .error .malformedHeader ↔ ¬ header) ∧
    (frameDecode s = .error .truncatedPayload ↔
      header ∧ (byteAt s 1 = 0x4D → ¬ wholeV1) ∧ (byteAt s 1 = 0x58 → ¬ wholeV2)) ∧
    (frameDecode s = .error .checksumMismatch ↔
      header ∧ (byteAt s 1 = 0x4D → wholeV1 ∧ badV1) ∧ (byteAt s 1 = 0x58 → wholeV2 ∧ badV2)) ∧
    (header → byteAt s 1 = 0x4D → wholeV1 → ¬ badV1 → ∃ d, dirByte d = byteAt s 2 ∧
      frameDecode s = .ok ({ version := .v1, direction := d, flag := 0x00, func := (byteAt s 4).setWidth 16,
                             payload := (s.drop 5).take l1, checksum := byteAt s (5 + l1) }, 5 + l1 + 1)) ∧
    (header → byteAt s 1 = 0x58 → wholeV2 → ¬ badV2 → ∃ d, dirByte d = byteAt s 2 ∧
      frameDecode s = .ok ({ version := .v2, direction := d, flag := byteAt s 3, func := le16 s 4,
                             payload := (s.drop 8).take l2, checksum := byteAt s (8 + l2) }, 8 + l2 + 1))

/-- R168 (c), (d) (the spec's own inference): one inverted bit in the V2 flag, the function id, the payload or the checksum byte of a
well-formed frame is always `ChecksumMismatch`. -/
def Obligations.OneBitFlipIsCaught : Prop :=
  ∀ (f : Frame) (i k : Nat), frameWellFormed f = true → k < 8 → i < (frameBytes f).length →
    (f.version = .v1 → 4 ≤ i) → (f.version = .v2 → (3 ≤ i ∧ i ≤ 5) ∨ 8 ≤ i) →
    frameDecode (flipBit (frameBytes f) i k) = .error .checksumMismatch

/-- R168 (a), (b) and R169 (the spec's own inferences): one inverted bit in bytes 0 to 2 of a well-formed frame is `MalformedHeader`, except bit 1 of
the marker of a Request or a Response, which turns it into the other one. -/
def Obligations.OneBitFlipInMarkers : Prop :=
  ∀ (f : Frame) (k : Nat), frameWellFormed f = true → k < 8 →
    frameDecode (flipBit (frameBytes f) 0 k) = .error .malformedHeader ∧
    frameDecode (flipBit (frameBytes f) 1 k) = .error .malformedHeader ∧
    (k ≠ 1 ∨ f.direction = .error → frameDecode (flipBit (frameBytes f) 2 k) = .error .malformedHeader) ∧
    (k = 1 → f.direction = .request → frameDecode (flipBit (frameBytes f) 2 k)
      = .ok ({ f with direction := .response }, (frameBytes f).length)) ∧
    (k = 1 → f.direction = .response → frameDecode (flipBit (frameBytes f) 2 k)
      = .ok ({ f with direction := .request }, (frameBytes f).length))

/-- R168 (e) (the spec's own inference): a bit of the length field inverted from 0 to 1 is `TruncatedPayload`. Inverted from 1 to 0 it re-cuts the
frame: `ChecksumMismatch`, unless the old payload byte now taken as the checksum is the checksum of the shortened content, and then
`decode` is `Ok` of the shortened frame. -/
def Obligations.OneBitFlipInLength : Prop :=
  ∀ (f : Frame) (k : Nat), frameWellFormed f = true → k < 8 →
    let truncated (i : Nat) : Prop := frameDecode (flipBit (frameBytes f) i k) = .error .truncatedPayload
    let shortened (i l : Nat) : Prop := frameDecode (flipBit (frameBytes f) i k)
      = if byteAt f.payload l = frameChecksum (recut f l) then .ok (recut f l, frameSize f.version l)
        else .error .checksumMismatch
    (f.version = .v1 → f.payload.length.testBit k = false → truncated 3) ∧
    (f.version = .v2 → f.payload.length.testBit k = false → truncated 6) ∧
    (f.version = .v2 → f.payload.length.testBit (8 + k) = false → truncated 7) ∧
    (f.version = .v1 → f.payload.length.testBit k = true → shortened 3 (f.payload.length - 2 ^ k)) ∧
    (f.version = .v2 → f.payload.length.testBit k = true → shortened 6 (f.payload.length - 2 ^ k)) ∧
    (f.version = .v2 → f.payload.length.testBit (8 + k) = true → shortened 7 (f.payload.length - 2 ^ (8 + k)))

/-! ### ENC and DEC -/

/-- R164: `ENC` in range replaces `FB` by the frame of what `PB` holds and describes it in the FR group; `PB` and everything else stays. With
direction 3, or in V1 a function id or a payload length over 255, it is `FieldRange` and nothing but `ERR` changes. -/
def Obligations.EncResult : Prop :=
  ∀ (v : Version) (func : U16) (s : State),
    (∀ (d : Direction) (p : List Byte), pbBytes s = some p → (v = .v1 → func.toNat ≤ 255 ∧ s.pbLen.toNat ≤ 255) →
      exec (.enc v (dirNumber d) func) s
        = .next { s with
            fb := Memory.ofBytes (frameEncode v d func p)
            fbLen := BitVec.ofNat 17 (frameSize v p.length)
            fr := some { ver := v, dir := d, flag := 0x00, func := func,
                         ck := byteAt (frameEncode v d func p) (frameSize v p.length - 1),
                         size := BitVec.ofNat 17 (frameSize v p.length) }
            ds := .none
            err := .ok
            reply := some ⟨.ok, none⟩ }) ∧
    exec (.enc v 3 func) s = .next { s with err := .fieldRange, reply := some ⟨.fieldRange, none⟩ } ∧
    (∀ dir : BitVec 2, v = .v1 → 255 < func.toNat ∨ 255 < s.pbLen.toNat →
      exec (.enc v dir func) s = .next { s with err := .fieldRange, reply := some ⟨.fieldRange, none⟩ }) ∧
    dirNumber .request = 0 ∧ dirNumber .response = 1 ∧ dirNumber .error = 2 ∧
    (∀ d, (operationBytes (.enc v d func)).head? = some 0x10)

/-- R278 (with R164): direction 3, and in V1 a function id or a payload length over 255, is `FieldRange`, and nothing but `ERR` changes; so does
`CFG_SETWP_ID` of 250, 102 and 105. -/
def Obligations.FieldRangeRefusals : Prop :=
  ∀ (v : Version) (dir : BitVec 2) (func : U16) (s : State),
    (dir = 3 ∨ (v = .v1 ∧ (255 < func.toNat ∨ 255 < s.pbLen.toNat)) →
      exec (.enc v dir func) s = .next { s with err := .fieldRange, reply := some ⟨.fieldRange, none⟩ }) ∧
    (func ∈ [250, 102, 105] →
      exec (.cfgSetwpId func) s = .next { s with err := .fieldRange, reply := some ⟨.fieldRange, none⟩ }) ∧
    outcomeNumber .fieldRange = 7

/-- R165: a `DEC` that accepts copies the payload to `PB` and describes the frame in the FR group. One that rejects clears `FR_VALID` and
`DS_KIND`, writes the code 1, 2 or 3, and leaves `PB` as it was. `FB` and everything else stays in both cases. -/
def Obligations.DecResult : Prop :=
  ∀ (s : State) (bs : List Byte), fbBytes s = some bs →
    let refused (o : OutcomeCode) : Result := .next { s with fr := none, ds := .none, err := o, reply := some ⟨o, none⟩ }
    (∀ (f : Frame) (n : Nat), frameDecode bs = .ok (f, n) → exec .dec s
      = .next { s with
          pb := Memory.ofBytes f.payload
          pbLen := BitVec.ofNat 16 f.payload.length
          fr := some { ver := f.version, dir := f.direction, flag := f.flag, func := f.func, ck := f.checksum,
                       size := BitVec.ofNat 17 n }
          ds := .none
          err := .ok
          reply := some ⟨.ok, none⟩ }) ∧
    (frameDecode bs = .error .malformedHeader → exec .dec s = refused .malformedHeader) ∧
    (frameDecode bs = .error .truncatedPayload → exec .dec s = refused .truncatedPayload) ∧
    (frameDecode bs = .error .checksumMismatch → exec .dec s = refused .checksumMismatch) ∧
    outcomeNumber .malformedHeader = 1 ∧ outcomeNumber .truncatedPayload = 2 ∧ outcomeNumber .checksumMismatch = 3 ∧
    (operationBytes .dec).head? = some 0x11

/-- R166, its last sentence (the spec's own inference): after an `ENC` that succeeds, `DEC` is `Ok` and changes no register and no buffer byte. -/
def Obligations.EncThenDecChangesNothing : Prop :=
  ∀ (v : Version) (dir : BitVec 2) (func : U16) (s t : State), s.buffersHeld = true →
    exec (.enc v dir func) s = .next t → t.err = .ok → exec .dec t = .next t

/-- R172, R206 (the spec's own inferences): `DEC` and `UNPACK` issued twice in a row have the same outcome and leave the same state both times. -/
def Obligations.DecodingIsIdempotent : Prop :=
  ∀ s t : State, (exec .dec s = .next t → exec .dec t = .next t) ∧ (exec .unpack s = .next t → exec .unpack t = .next t)

/-! ### The command registry -/

/-- R202, R204, R205 and R203, R244, R241: `PACK_*` and `PB_CLR` replace `PB` as a whole, `FB_CLR` empties `FB`; each clears `FR_VALID` and
`DS_KIND` and is `Ok`. That the cells of an emptied buffer are not listed is the model's choice (log 8). -/
def Obligations.PackAndClearResult : Prop :=
  ∀ s : State,
    (∀ w, exec (.packSetWp w) s = .next { s with pb := Memory.ofBytes (packSetwp w), pbLen := 21, fr := none, ds := .none,
                                                 err := .ok, reply := some ⟨.ok, none⟩ }) ∧
    (∀ m, exec (.packRawImu m) s = .next { s with pb := Memory.ofBytes (packRawimu m), pbLen := 12, fr := none,
                                                  ds := .none, err := .ok, reply := some ⟨.ok, none⟩ }) ∧
    (∀ c, exec (.packRc c) s = .next { s with pb := Memory.ofBytes (packRcSample c), pbLen := 34, fr := none, ds := .none,
                                              err := .ok, reply := some ⟨.ok, none⟩ }) ∧
    exec .packEepromWrite s
      = .next { s with pb := [], pbLen := 0, fr := none, ds := .none, err := .ok, reply := some ⟨.ok, none⟩ } ∧
    exec .pbClr s = exec .packEepromWrite s ∧
    exec .fbClr s
      = .next { s with fb := [], fbLen := 0, fr := none, ds := .none, err := .ok, reply := some ⟨.ok, none⟩ }

/-- R211 (the spec's own inference): unpacking what was packed gives the operands back, and packing what was unpacked from a payload of exactly
the schema's size gives the payload back. -/
def Obligations.LayoutsRoundTrip : Prop :=
  (∀ w : Waypoint, unpackSetwp (packSetwp w) = w ∧ (packSetwp w).length = 21) ∧
  (∀ m : ImuSample, unpackRawimu (packRawimu m) = m ∧ (packRawimu m).length = 12) ∧
  (∀ c : RcSample, unpackRcSample (packRcSample c) = c ∧ (packRcSample c).length = 34) ∧
  (∀ p : List Byte, p.length = 21 → packSetwp (unpackSetwp p) = p) ∧
  (∀ p : List Byte, p.length = 12 → packRawimu (unpackRawimu p) = p) ∧
  (∀ p : List Byte, p.length = 34 → packRcSample (unpackRcSample p) = p)

/-- R9, R62: an N-bit pattern holds every signed value of its range, and the sign convention loses nothing in either direction. -/
def Obligations.SignedPatternsRoundTrip : Prop :=
  ∀ w : Nat, 0 < w →
    (∀ x : Int, -(2 ^ (w - 1) : Int) ≤ x → x < (2 ^ (w - 1) : Int) → sext (encInt w x) = x) ∧
    (∀ v : BitVec w, encInt w (sext v) = v ∧ -(2 ^ (w - 1) : Int) ≤ sext v ∧ sext v < (2 ^ (w - 1) : Int))

/-- R209: bytes behind the layout are ignored, for all four commands; `UNPACK` leaves them in `PB`. -/
def Obligations.ExcessPayloadIgnored : Prop :=
  (∀ (id : Option U16) (func : U16) (c : Cmd) (p extra : List Byte), cmdOf id func = .ok c → schemaSize c ≤ p.length →
    interpret id func (schemaDir c) (p ++ extra) = .ok (schemaDecode c p)) ∧
  (∀ s t : State, exec .unpack s = .next t → t.pb = s.pb ∧ t.pbLen = s.pbLen)

/-- R206 with R192: what a successful `UNPACK` leaves, command by command; only `DS_KIND`, the file it names and `ERR` change. -/
def Obligations.UnpackDelivers : Prop :=
  ∀ (s : State) (f : FrameRegs) (p : List Byte), s.fr = some f → pbBytes s = some p →
    let done (d : Decoded) : Result := .next { s with ds := d, err := .ok, reply := some ⟨.ok, none⟩ }
    (∀ id, s.setwpId = some id → isFixedId id = false → f.func = id → f.dir = .request → 21 ≤ p.length →
      exec .unpack s = done (.setWp { index := byteAt p 0, action := byteAt p 1, lat := le32 p 2, lon := le32 p 6,
                                      alt := le32 p 10, p1 := le16 p 14, p2 := le16 p 16, p3 := le16 p 18,
                                      flags := byteAt p 20 })) ∧
    (f.func = 250 → f.dir = .request → exec .unpack s = done .eepromWrite) ∧
    (f.func = 102 → f.dir = .response → 12 ≤ p.length →
      exec .unpack s = done (.rawImu { ax := le16 p 0, ay := le16 p 2, az := le16 p 4, gx := le16 p 6, gy := le16 p 8,
                                       gz := le16 p 10 })) ∧
    (f.func = 105 → f.dir = .response → 34 ≤ p.length →
      ∃ c, exec .unpack s = done (.rc c) ∧ ∀ i < 17, (rcChannels c)[i]? = some (le16 p (2 * i))) ∧
    (f.dir = .error → exec .unpack s = done .opaquePayload) ∧
    (f.dir = .request → f.func = 102 ∨ f.func = 105 → exec .unpack s = done .opaquePayload) ∧
    (f.dir = .response → f.func = 250 ∨ (isFixedId f.func = false ∧ s.setwpId = some f.func) →
      exec .unpack s = done .opaquePayload)

/-- R206, R275 to R277, R280: when `UNPACK` fails and with what; it clears `DS_KIND`, writes the code, and changes nothing else. -/
def Obligations.UnpackRefuses : Prop :=
  ∀ s : State,
    let failed (o : OutcomeCode) : Result := .next { s with ds := .none, err := o, reply := some ⟨o, none⟩ }
    (s.fr = none → exec .unpack s = failed .noValidFrame) ∧
    (∀ (f : FrameRegs) (p : List Byte), s.fr = some f → pbBytes s = some p →
      (f.dir ≠ .error → isFixedId f.func = false → s.setwpId = none → exec .unpack s = failed .configUnset) ∧
      (∀ id, f.dir ≠ .error → isFixedId f.func = false → s.setwpId = some id → f.func ≠ id →
        exec .unpack s = failed .unexpectedFunction) ∧
      (f.dir = .response → f.func = 102 → p.length < 12 → exec .unpack s = failed .payloadLayoutError) ∧
      (f.dir = .response → f.func = 105 → p.length < 34 → exec .unpack s = failed .payloadLayoutError) ∧
      (f.dir = .request → isFixedId f.func = false → s.setwpId = some f.func → p.length < 21 →
        exec .unpack s = failed .payloadLayoutError)) ∧
    outcomeNumber .payloadLayoutError = 4 ∧ outcomeNumber .unexpectedFunction = 5 ∧ outcomeNumber .configUnset = 6 ∧
    outcomeNumber .noValidFrame = 10

/-- R211, its last sentence (the spec's own inference): `PACK_x`, `ENC`, `DEC`, `UNPACK` in this order deliver in the DS group the operands
given to `PACK_x`, in both formats and from every state. -/
def Obligations.PackEncDecUnpackDelivers : Prop :=
  ∀ (v : Version) (s : State),
    (∀ (w : Waypoint) (id : U16), s.setwpId = some id → isFixedId id = false → (v = .v1 → id.toNat ≤ 255) →
      ∃ t, runOps [.packSetWp w, .enc v 0 id, .dec, .unpack] s = .next t ∧ t.ds = .setWp w ∧ t.err = .ok) ∧
    (∀ m : ImuSample, ∃ t, runOps [.packRawImu m, .enc v 1 102, .dec, .unpack] s = .next t ∧ t.ds = .rawImu m ∧
      t.err = .ok) ∧
    (∀ c : RcSample, ∃ t, runOps [.packRc c, .enc v 1 105, .dec, .unpack] s = .next t ∧ t.ds = .rc c ∧ t.err = .ok) ∧
    (∃ t, runOps [.packEepromWrite, .enc v 0 250, .dec, .unpack] s = .next t ∧ t.ds = .eepromWrite ∧ t.err = .ok)

/-- R207, R208, R210: the worked examples of the spec at the default scales, and the sentinel of the last waypoint. -/
def Obligations.PhysicalUnits : Prop :=
  accelG {} (encInt 16 512) = 1 ∧ accelG {} (encInt 16 0) = 0 ∧ accelG {} (encInt 16 (-512)) = -1 ∧
  gyroDps {} (encInt 16 (-4)) = -1 ∧
  (∀ w : Waypoint, w.lat = encInt 32 423601000 → w.lon = encInt 32 (-710589000) → w.alt = encInt 32 2000 →
    latDegrees w = 423601 / 10000 ∧ lonDegrees w = -710589 / 10000 ∧ altMetres w = 20) ∧
  (∀ w : Waypoint, isLast w = true ↔ w.flags = 0xA5)

/-! ### The host port -/

/-- R242, R245: a push stores its byte at the valid length, which grows by one, and clears `FR_VALID` and `DS_KIND`; every other byte of both
buffers reads as before. At capacity it is `BufferFull` and nothing but `ERR` changes. -/
def Obligations.PushResult : Prop :=
  ∀ (b : Byte) (s : State),
    (s.fbLen.toNat = 65544 →
      exec (.fbPush b) s = .next { s with err := .bufferFull, reply := some ⟨.bufferFull, none⟩ }) ∧
    (s.fbLen.toNat ≠ 65544 → ∃ m : Memory,
      exec (.fbPush b) s = .next { s with fb := m, fbLen := s.fbLen + 1, fr := none, ds := .none, err := .ok,
                                          reply := some ⟨.ok, none⟩ } ∧
      Memory.read m s.fbLen.toNat = some b ∧ ∀ a ≠ s.fbLen.toNat, Memory.read m a = Memory.read s.fb a) ∧
    (s.pbLen.toNat = 65535 →
      exec (.pbPush b) s = .next { s with err := .bufferFull, reply := some ⟨.bufferFull, none⟩ }) ∧
    (s.pbLen.toNat ≠ 65535 → ∃ m : Memory,
      exec (.pbPush b) s = .next { s with pb := m, pbLen := s.pbLen + 1, fr := none, ds := .none, err := .ok,
                                          reply := some ⟨.ok, none⟩ } ∧
      Memory.read m s.pbLen.toNat = some b ∧ ∀ a ≠ s.pbLen.toNat, Memory.read m a = Memory.read s.pb a) ∧
    outcomeNumber .bufferFull = 8

/-- R243, R246: reading a buffer delivers the byte below the valid length and is `BufferRange` at or beyond it; nothing else changes. -/
def Obligations.BufferReadResult : Prop :=
  ∀ (i : U17) (j : U16) (s : State),
    (s.fbLen.toNat ≤ i.toNat → exec (.fbRd i) s = .next { s with reply := some ⟨.bufferRange, none⟩ }) ∧
    (∀ b, i.toNat < s.fbLen.toNat → Memory.read s.fb i.toNat = some b →
      exec (.fbRd i) s = .next { s with reply := some ⟨.ok, some (.u8 b)⟩ }) ∧
    (s.pbLen.toNat ≤ j.toNat → exec (.pbRd j) s = .next { s with reply := some ⟨.bufferRange, none⟩ }) ∧
    (∀ b, j.toNat < s.pbLen.toNat → Memory.read s.pb j.toNat = some b →
      exec (.pbRd j) s = .next { s with reply := some ⟨.ok, some (.u8 b)⟩ }) ∧
    outcomeNumber .bufferRange = 9

/-- R247, with the table of R37: what `RD` of every register number delivers, each guard tested and each undefined number refused; nothing else
changes. A delivered value stands for its number: a signed register, held as its pattern (log 13), for a signed integer. -/
def Obligations.RegisterReadResult : Prop :=
  ∀ s : State,
    let gives (r : Nat) (v : Value) : Prop :=
      exec (.rd (BitVec.ofNat 8 r)) s = .next { s with reply := some ⟨.ok, some v⟩ }
    let fails (r : Nat) (o : OutcomeCode) : Prop :=
      exec (.rd (BitVec.ofNat 8 r)) s = .next { s with reply := some ⟨o, none⟩ }
    (gives 0x00 (.u8 (outcomeNumber s.err)) ∧ gives 0x01 (.u8 s.csAcc) ∧
      gives 0x02 (.u1 (match s.csMode with | .v1 => 0 | .v2 => 1)) ∧ gives 0x03 (.u17 s.fbLen) ∧ gives 0x04 (.u16 s.pbLen)) ∧
    (∀ id, s.setwpId = some id → gives 0x05 (.u1 1) ∧ gives 0x06 (.u16 id)) ∧
    (s.setwpId = none → gives 0x05 (.u1 0) ∧ fails 0x06 .configUnset) ∧
    (∀ f, s.fr = some f →
      gives 0x10 (.u1 1) ∧ gives 0x11 (.u1 (match f.ver with | .v1 => 0 | .v2 => 1)) ∧
      gives 0x12 (.u2 (match f.dir with | .request => 0 | .response => 1 | .error => 2)) ∧ gives 0x13 (.u8 f.flag) ∧
      gives 0x14 (.u16 f.func) ∧ gives 0x15 (.u8 f.ck) ∧ gives 0x16 (.u17 f.size)) ∧
    (s.fr = none → gives 0x10 (.u1 0) ∧ ∀ r, 0x11 ≤ r → r ≤ 0x16 → fails r .noValidFrame) ∧
    gives 0x20 (.u3 (match s.ds with
      | .none => 0 | .setWp _ => 1 | .eepromWrite => 2 | .rawImu _ => 3 | .rc _ => 4 | .opaquePayload => 5)) ∧
    (∀ w, s.ds = .setWp w →
      gives 0x21 (.u8 w.index) ∧ gives 0x22 (.u8 w.action) ∧ gives 0x23 (.i32 w.lat) ∧ gives 0x24 (.i32 w.lon) ∧
      gives 0x25 (.i32 w.alt) ∧ gives 0x26 (.i16 w.p1) ∧ gives 0x27 (.i16 w.p2) ∧ gives 0x28 (.i16 w.p3) ∧
      gives 0x29 (.u8 w.flags)) ∧
    (dsKind s.ds ≠ 1 → ∀ r, 0x21 ≤ r → r ≤ 0x29 → fails r .noValidStruct) ∧
    (∀ m, s.ds = .rawImu m →
      gives 0x30 (.i16 m.ax) ∧ gives 0x31 (.i16 m.ay) ∧ gives 0x32 (.i16 m.az) ∧ gives 0x33 (.i16 m.gx) ∧
      gives 0x34 (.i16 m.gy) ∧ gives 0x35 (.i16 m.gz)) ∧
    (dsKind s.ds ≠ 3 → ∀ r, 0x30 ≤ r → r ≤ 0x35 → fails r .noValidStruct) ∧
    (∀ c, s.ds = .rc c → ∀ i v, (rcChannels c)[i]? = some v → gives (0x40 + i) (.i16 v)) ∧
    (dsKind s.ds ≠ 4 → ∀ r, 0x40 ≤ r → r ≤ 0x50 → fails r .noValidStruct) ∧
    (∀ r, r < 256 → (0x07 ≤ r ∧ r ≤ 0x0F) ∨ (0x17 ≤ r ∧ r ≤ 0x1F) ∨ (0x2A ≤ r ∧ r ≤ 0x2F) ∨ (0x36 ≤ r ∧ r ≤ 0x3F) ∨
      0x51 ≤ r → fails r .illegalOperation) ∧
    (∀ v, valueNumber (.i16 v) = sext v) ∧ (∀ v, valueNumber (.i32 v) = sext v) ∧
    (∀ v, valueNumber (.u1 v) = v.toNat) ∧ (∀ v, valueNumber (.u2 v) = v.toNat) ∧ (∀ v, valueNumber (.u3 v) = v.toNat) ∧
    (∀ v, valueNumber (.u8 v) = v.toNat) ∧ (∀ v, valueNumber (.u16 v) = v.toNat) ∧ (∀ v, valueNumber (.u17 v) = v.toNat)

/-- R66: no read has a side effect: a read changes nothing but the delivery, and repeated at once it delivers the same. A
push is not idempotent. -/
def Obligations.ReadsChangeNothing : Prop :=
  (∀ (i : Instr) (s t : State), isRead i = true → exec i s = .next t →
    t = { s with reply := t.reply } ∧ exec i t = .next t) ∧
  (∃ (b : Byte) (s t : State), exec (.fbPush b) s = .next t ∧ exec (.fbPush b) t ≠ .next t)

/-- R248: `CFG_SETWP_ID` of any id but 250, 102 and 105 sets the register and its valid bit and clears `DS_KIND`; `FR_VALID` stays. Those three are
`FieldRange`, and nothing but `ERR` changes. -/
def Obligations.ConfigureResult : Prop :=
  ∀ (v : U16) (s : State),
    (v ≠ 250 → v ≠ 102 → v ≠ 105 → exec (.cfgSetwpId v) s
      = .next { s with setwpId := some v, ds := .none, err := .ok, reply := some ⟨.ok, none⟩ }) ∧
    (v = 250 ∨ v = 102 ∨ v = 105 → exec (.cfgSetwpId v) s
      = .next { s with err := .fieldRange, reply := some ⟨.fieldRange, none⟩ }) ∧
    (operationBytes (.cfgSetwpId v)).head? = some 0x41

/-- R249: after `RESET` every register of the block has its reset value, and the outcome is `Ok`. (What the host still presents, `port`, is no
register: log 18.) -/
def Obligations.ResetResult : Prop :=
  (∀ s : State, ∃ t, exec .reset s = .next t ∧
    t.csAcc = 0x00 ∧ t.csMode = .v1 ∧ t.fbLen = 0 ∧ t.pbLen = 0 ∧ t.fr = none ∧ t.ds = .none ∧ t.setwpId = none ∧
    t.err = .ok ∧ t.reply = some ⟨.ok, none⟩) ∧
  (operationBytes .reset).head? = some 0x7F

/-- R301 (the spec's own inference): the outcome, and for a read the value, of each operation issued directly after reset. -/
def Obligations.FirstOperationAfterReset : Prop :=
  ∀ s t : State, exec .reset s = .next t →
    let ends (i : Instr) (o : OutcomeCode) (v : Option Value) : Prop := ∃ u, exec i t = .next u ∧ u.reply = some ⟨o, v⟩
    (∀ m, ends (.csInit m) .ok none) ∧ (∀ b, ends (.csUpd b) .ok none) ∧ ends .csRd .ok (some (.u8 0x00)) ∧
    ends (.csCmp 0x00) .ok none ∧ (∀ b, b ≠ 0x00 → ends (.csCmp b) .checksumMismatch none) ∧
    (∀ v d (func : U16), d ≠ 3 → (v = .v1 → func.toNat ≤ 255) → ends (.enc v d func) .ok none) ∧
    ends .dec .malformedHeader none ∧ ends .unpack .noValidFrame none ∧
    (∀ w, ends (.packSetWp w) .ok none) ∧ ends .packEepromWrite .ok none ∧ (∀ m, ends (.packRawImu m) .ok none) ∧
    (∀ c, ends (.packRc c) .ok none) ∧ ends .fbClr .ok none ∧ (∀ b, ends (.fbPush b) .ok none) ∧ ends .pbClr .ok none ∧
    (∀ b, ends (.pbPush b) .ok none) ∧ (∀ i, ends (.fbRd i) .bufferRange none) ∧ (∀ i, ends (.pbRd i) .bufferRange none) ∧
    (∀ v, v ≠ 250 → v ≠ 102 → v ≠ 105 → ends (.cfgSetwpId v) .ok none) ∧ ends .reset .ok none ∧
    ends (.rd 0x00) .ok (some (.u8 0)) ∧ ends (.rd 0x01) .ok (some (.u8 0)) ∧ ends (.rd 0x02) .ok (some (.u1 0)) ∧
    ends (.rd 0x03) .ok (some (.u17 0)) ∧ ends (.rd 0x04) .ok (some (.u16 0)) ∧ ends (.rd 0x05) .ok (some (.u1 0)) ∧
    ends (.rd 0x10) .ok (some (.u1 0)) ∧ ends (.rd 0x20) .ok (some (.u3 0)) ∧ ends (.rd 0x06) .configUnset none ∧
    (∀ r, 0x11 ≤ r → r ≤ 0x16 → ends (.rd (BitVec.ofNat 8 r)) .noValidFrame none) ∧
    (∀ r, (0x21 ≤ r ∧ r ≤ 0x29) ∨ (0x30 ≤ r ∧ r ≤ 0x35) ∨ (0x40 ≤ r ∧ r ≤ 0x50) →
      ends (.rd (BitVec.ofNat 8 r)) .noValidStruct none)

/-! ### The frames on the wire

That one step of a wire instruction is the pseudo-instruction `RECV` is the model's choice (log 4). -/

/-- R200, R197, R198, R199 (log 4): an ERROR frame of any id, a telemetry request and the acknowledgement of EEPROM_WRITE are received as
opaque, whatever the payload. -/
def Obligations.OpaqueFramesReceived : Prop :=
  ∀ (p : List Byte) (s : State),
    (p.length ≤ 255 → ∀ func : Byte,
      exec (.errorV1 func p (cksumV1 (BitVec.ofNat 8 p.length) func p)) s
        = .next (received ⟨.v1, .error, 0, func.setWidth 16, p, cksumV1 (BitVec.ofNat 8 p.length) func p⟩ .opaquePayload s)) ∧
    (p.length ≤ 65535 → ∀ (flag : Byte) (func : U16),
      exec (.errorV2 flag func p (cksumV2 flag func p)) s
        = .next (received ⟨.v2, .error, flag, func, p, cksumV2 flag func p⟩ .opaquePayload s)) ∧
    (p.length ≤ 255 →
      exec (.rawImuReqV1 p (cksumV1 (BitVec.ofNat 8 p.length) 102 p)) s
        = .next (received ⟨.v1, .request, 0, 102, p, cksumV1 (BitVec.ofNat 8 p.length) 102 p⟩ .opaquePayload s) ∧
      exec (.rcReqV1 p (cksumV1 (BitVec.ofNat 8 p.length) 105 p)) s
        = .next (received ⟨.v1, .request, 0, 105, p, cksumV1 (BitVec.ofNat 8 p.length) 105 p⟩ .opaquePayload s) ∧
      exec (.eepromWriteAckV1 p (cksumV1 (BitVec.ofNat 8 p.length) 250 p)) s
        = .next (received ⟨.v1, .response, 0, 250, p, cksumV1 (BitVec.ofNat 8 p.length) 250 p⟩ .opaquePayload s)) ∧
    (p.length ≤ 65535 → ∀ flag : Byte,
      exec (.rawImuReqV2 flag p (cksumV2 flag 102 p)) s
        = .next (received ⟨.v2, .request, flag, 102, p, cksumV2 flag 102 p⟩ .opaquePayload s) ∧
      exec (.rcReqV2 flag p (cksumV2 flag 105 p)) s
        = .next (received ⟨.v2, .request, flag, 105, p, cksumV2 flag 105 p⟩ .opaquePayload s) ∧
      exec (.eepromWriteAckV2 flag p (cksumV2 flag 250 p)) s
        = .next (received ⟨.v2, .response, flag, 250, p, cksumV2 flag 250 p⟩ .opaquePayload s))

/-- R194 (log 4): EEPROM_WRITE is received with no field, whatever the payload. -/
def Obligations.EepromWriteReceived : Prop :=
  ∀ (p : List Byte) (s : State),
    (p.length ≤ 255 →
      exec (.eepromWriteV1 p (cksumV1 (BitVec.ofNat 8 p.length) 250 p)) s
        = .next (received ⟨.v1, .request, 0, 250, p, cksumV1 (BitVec.ofNat 8 p.length) 250 p⟩ .eepromWrite s)) ∧
    (p.length ≤ 65535 → ∀ flag : Byte,
      exec (.eepromWriteV2 flag p (cksumV2 flag 250 p)) s
        = .next (received ⟨.v2, .request, flag, 250, p, cksumV2 flag 250 p⟩ .eepromWrite s))

/-- R195, R196 (log 4): a RAW_IMU response of at least 12 bytes and an RC response of at least 34 bytes are received into their files, channel
`i` from offset `2 i`. -/
def Obligations.TelemetryReceived : Prop :=
  ∀ (p : List Byte) (s : State),
    let imu : Decoded := .rawImu { ax := le16 p 0, ay := le16 p 2, az := le16 p 4, gx := le16 p 6, gy := le16 p 8,
                                   gz := le16 p 10 }
    (12 ≤ p.length → p.length ≤ 255 →
      exec (.rawImuV1 p (cksumV1 (BitVec.ofNat 8 p.length) 102 p)) s
        = .next (received ⟨.v1, .response, 0, 102, p, cksumV1 (BitVec.ofNat 8 p.length) 102 p⟩ imu s)) ∧
    (12 ≤ p.length → p.length ≤ 65535 → ∀ flag : Byte,
      exec (.rawImuV2 flag p (cksumV2 flag 102 p)) s
        = .next (received ⟨.v2, .response, flag, 102, p, cksumV2 flag 102 p⟩ imu s)) ∧
    (34 ≤ p.length → p.length ≤ 255 → ∃ c,
      exec (.rcV1 p (cksumV1 (BitVec.ofNat 8 p.length) 105 p)) s
        = .next (received ⟨.v1, .response, 0, 105, p, cksumV1 (BitVec.ofNat 8 p.length) 105 p⟩ (.rc c) s) ∧
      ∀ i < 17, (rcChannels c)[i]? = some (le16 p (2 * i))) ∧
    (34 ≤ p.length → p.length ≤ 65535 → ∀ flag : Byte, ∃ c,
      exec (.rcV2 flag p (cksumV2 flag 105 p)) s
        = .next (received ⟨.v2, .response, flag, 105, p, cksumV2 flag 105 p⟩ (.rc c) s) ∧
      ∀ i < 17, (rcChannels c)[i]? = some (le16 p (2 * i)))

/-- R193, R199 (log 4): with `SETWP_ID` configured, a SET_WP request of that id of at least 21 bytes is received into the WP file, and the response of
that id (the acknowledgement) as opaque. -/
def Obligations.SetWpReceived : Prop :=
  ∀ (p : List Byte) (s : State) (id : U16), s.setwpId = some id → isFixedId id = false →
    let wp : Decoded := .setWp { index := byteAt p 0, action := byteAt p 1, lat := le32 p 2, lon := le32 p 6,
                                 alt := le32 p 10, p1 := le16 p 14, p2 := le16 p 16, p3 := le16 p 18, flags := byteAt p 20 }
    (∀ func : Byte, func.setWidth 16 = id → p.length ≤ 255 →
      (21 ≤ p.length → exec (.setWpV1 func p (cksumV1 (BitVec.ofNat 8 p.length) func p)) s
        = .next (received ⟨.v1, .request, 0, id, p, cksumV1 (BitVec.ofNat 8 p.length) func p⟩ wp s)) ∧
      exec (.setWpAckV1 func p (cksumV1 (BitVec.ofNat 8 p.length) func p)) s
        = .next (received ⟨.v1, .response, 0, id, p, cksumV1 (BitVec.ofNat 8 p.length) func p⟩ .opaquePayload s)) ∧
    (∀ flag : Byte, p.length ≤ 65535 →
      (21 ≤ p.length → exec (.setWpV2 flag id p (cksumV2 flag id p)) s
        = .next (received ⟨.v2, .request, flag, id, p, cksumV2 flag id p⟩ wp s)) ∧
      exec (.setWpAckV2 flag id p (cksumV2 flag id p)) s
        = .next (received ⟨.v2, .response, flag, id, p, cksumV2 flag id p⟩ .opaquePayload s))

/-- R192, R193, R195, R196, R201 (log 4): a well-formed frame whose payload or id the registry refuses is held all the same, and the outcome is the
registry's. -/
def Obligations.ReceivedButRefused : Prop :=
  ∀ (i : Instr) (f : Frame) (s : State), i.frame? = some f → i.WellFormed → f.checksum = frameChecksum f →
    let ends (o : OutcomeCode) : Prop := exec i s = .next (receivedRefused f o s)
    (f.direction = .response → f.func = 102 → f.payload.length < 12 → ends .payloadLayoutError) ∧
    (f.direction = .response → f.func = 105 → f.payload.length < 34 → ends .payloadLayoutError) ∧
    (f.direction = .request → isFixedId f.func = false → s.setwpId = some f.func → f.payload.length < 21 →
      ends .payloadLayoutError) ∧
    (f.direction ≠ .error → isFixedId f.func = false → s.setwpId = none → ends .configUnset) ∧
    (∀ id, f.direction ≠ .error → isFixedId f.func = false → s.setwpId = some id → f.func ≠ id →
      ends .unexpectedFunction)

/-- R165, R160 (log 4): a frame whose checksum byte is not the one its bytes demand is discarded whatever its row: `FB` holds its bytes, no frame is
held, `PB` and everything else stays. -/
def Obligations.BadChecksumDiscarded : Prop :=
  ∀ (i : Instr) (f : Frame) (s : State), i.frame? = some f → i.WellFormed → f.checksum ≠ frameChecksum f →
    exec i s = .next (rejected (frameBytes f) .checksumMismatch s)

/-- R107, R277 (the sequence of `SEND_SET_WP`): with `SETWP_ID` set it leaves in `FB` the request frame of that id with the packed waypoint; with the
id unset it stops at `ConfigUnset`, the waypoint packed and `FB` untouched. -/
def Obligations.SendSetWpResult : Prop :=
  ∀ (v : Version) (w : Waypoint) (s : State),
    (∀ id, s.setwpId = some id → (v = .v1 → id.toNat ≤ 255) → ∃ t, sendSetWp v w s = .next t ∧
      fbBytes t = some (frameEncode v .request id (packSetwp w)) ∧ pbBytes t = some (packSetwp w) ∧ t.err = .ok ∧ t.fr.isSome = true) ∧
    (s.setwpId = none → ∃ t, sendSetWp v w s = .next t ∧ t.reply = some ⟨.configUnset, none⟩ ∧
      pbBytes t = some (packSetwp w) ∧ t.fb = s.fb ∧ t.fbLen = s.fbLen ∧ t.fr = none)

/-- R107, R252 (log 4): the meaning of a wire instruction is the pseudo-instruction `RECV` on the bytes of its frame, built from the host
operations `FB_CLR`, `FB_PUSH`, `DEC` and `UNPACK`. -/
def Obligations.WireStepIsRecv : Prop :=
  ∀ (i : Instr) (f : Frame) (s : State), i.frame? = some f → exec i s = recv (frameBytes f) s

/-! ### Encoding and the step -/

/-- For every well-formed instruction, decode of encode is that instruction (R91, R92, R102; the packing of operands is the model's, log 1). -/
def Obligations.DecodeEncode : Prop := ∀ i : Instr, i.WellFormed → decode (encode i) = .ok i

/-- What decodes is well-formed and encodes back to the same bytes: no packet has two meanings and no bit of one is dropped (packing: log 1). -/
def Obligations.EncodeDecode : Prop := ∀ (p : Packet) (i : Instr), decode p = .ok i → i.WellFormed ∧ encode i = p

/-- R108: the first row of the opcode table, in file order, whose masked header matches a well-formed frame is the row of its instruction. The
extra condition `func = SETWP_ID` of the SET_WP rows is not part of this selection: that it is tested when the instruction runs is the
model's choice (log 6; ReceivedButRefused says what it does then, R201). -/
def Obligations.TableSelectsInstruction : Prop :=
  ∀ (i : Instr) (f : Frame), i.WellFormed → i.frame? = some f → tableSelect (frameBytes f) = some i.mnemonic

/-- R240: with a packet presented that decodes to `i`, a step takes it from the port and is `exec i`; with nothing presented it changes nothing
(the model's choice, log 3). -/
def Obligations.StepRunsDecoded : Prop :=
  (∀ (s : State) (p : Packet) (rest : List Packet) (i : Instr), s.port = p :: rest → decode p = .ok i →
    step s = exec i { s with port := rest }) ∧
  (∀ s : State, s.port = [] → step s = .next s)

/-- R250, R104: an undefined operation number, with whatever bytes behind it, is `IllegalOperation`, code 12, and changes nothing but `ERR`. -/
def Obligations.UndefinedOperationNumber : Prop :=
  ∀ (s : State) (n : Byte) (bytes : List Byte) (rest : List Packet),
    n ∉ [0x01, 0x02, 0x03, 0x04, 0x10, 0x11, 0x20, 0x21, 0x22, 0x23, 0x2F, 0x30, 0x31, 0x32, 0x34, 0x35, 0x36, 0x40, 0x41, 0x7F] →
    s.port = .operation (n :: bytes) :: rest →
    step s = .next { s with port := rest, err := .illegalOperation, reply := some ⟨.illegalOperation, none⟩ } ∧
    outcomeNumber .illegalOperation = 12

/-- R100 (a), (b), R170, R272, R273 (log 5): received bytes that are not exactly one frame. Those that do not begin with a whole frame are rejected with the
outcome `DEC` finds and never reach a payload decoder; of a whole frame with bytes behind it the frame is received, `FB` holding all the
bytes; bytes beyond the capacity of `FB` have no effect. -/
def Obligations.InexactBytesReceived : Prop :=
  (∀ (s : State) (bs : List Byte) (rest : List Packet) (e : FrameError), s.port = .frame bs :: rest → bs.length ≤ 65544 →
    splitFrame bs = .error e →
    step s = .next (rejected bs (frameErrorOutcome e) { s with port := rest }) ∧ e ≠ .checksumMismatch) ∧
  (∀ (s : State) (f : Frame) (extra : List Byte) (rest : List Packet), f.inRange = true → extra ≠ [] →
    (frameBytes f ++ extra).length ≤ 65544 → s.port = .frame (frameBytes f ++ extra) :: rest →
    let bs := frameBytes f ++ extra
    let holdingAll (t : State) : State := { t with fb := Memory.ofBytes bs, fbLen := BitVec.ofNat 17 bs.length }
    decode (.frame bs) = .error .trailingBytes ∧
    (f.checksum ≠ frameChecksum f → step s = .next (rejected bs .checksumMismatch { s with port := rest })) ∧
    (f.checksum = frameChecksum f → ∀ d, interpret s.setwpId f.func f.direction f.payload = .ok d →
      step s = .next (holdingAll (received f d { s with port := rest }))) ∧
    (f.checksum = frameChecksum f → ∀ o, interpret s.setwpId f.func f.direction f.payload = .error o →
      step s = .next (holdingAll (receivedRefused f o { s with port := rest })))) ∧
  (∀ (s : State) (bs : List Byte) (rest : List Packet), s.port = .frame bs :: rest → 65544 < bs.length →
    step s = step { s with port := .frame (bs.take 65544) :: rest })

/-- The model's own stops (logs 8 and 9). A step is refused exactly for a badly packed operation: no number, a wrong number of operand bytes, a `mode` or
`ver` byte over 1, a `dir` byte over 3, the top byte of an `FB_RD` index over 1. Where the memory does not list a valid cell, which no run
reaches, `FB_RD` or `PB_RD` of it, `DEC`, `ENC` in range, and `UNPACK` of a held frame stop at an unlisted cell. -/
def Obligations.StopsByName : Prop :=
  (∀ (s : State) (bytes : List Byte) (rest : List Packet), s.port = .operation bytes :: rest →
    (step s = .refused .badCommandWord ↔
      bytes = [] ∨
      (∃ n operands k, bytes = n :: operands ∧ operandBytes n = some k ∧ operands.length ≠ k) ∨
      (∃ b : Byte, 1 < b.toNat ∧ bytes = [0x01, b]) ∨
      (∃ v d x y : Byte, (1 < v.toNat ∨ 3 < d.toNat) ∧ bytes = [0x10, v, d, x, y]) ∨
      (∃ x y z : Byte, 1 < z.toNat ∧ bytes = [0x32, x, y, z]))) ∧
  (∀ (s : State) (i : U17), i.toNat < s.fbLen.toNat → Memory.read s.fb i.toNat = none →
    exec (.fbRd i) s = .fault (.unwrittenCell true i.toNat) ∧
    ∃ a ≤ i.toNat, Memory.read s.fb a = none ∧ exec .dec s = .fault (.unwrittenCell true a)) ∧
  (∀ (s : State) (i : U16), i.toNat < s.pbLen.toNat → Memory.read s.pb i.toNat = none →
    exec (.pbRd i) s = .fault (.unwrittenCell false i.toNat) ∧
    ∃ a ≤ i.toNat, Memory.read s.pb a = none ∧
      (∀ (v : Version) (d : Direction) (func : U16), (v = .v1 → func.toNat ≤ 255 ∧ s.pbLen.toNat ≤ 255) →
        exec (.enc v (dirNumber d) func) s = .fault (.unwrittenCell false a)) ∧
      (∀ f, s.fr = some f → exec .unpack s = .fault (.unwrittenCell false a)))

/-- Words of the spec's own examples decode to the instructions they stand for (R109, R194, R195, R102). -/
def Obligations.WordsDecode : Prop :=
  decode (.frame [0x24, 0x4D, 0x3C, 0x00, 0x66, 0x66]) = .ok (.rawImuReqV1 [] 0x66) ∧
  decode (.frame [0x24, 0x58, 0x3C, 0x00, 0x66, 0x00, 0x00, 0x00, 0x05]) = .ok (.rawImuReqV2 0x00 [] 0x05) ∧
  decode (.frame [0x24, 0x58, 0x3C, 0x00, 0xFA, 0x00, 0x00, 0x00, 0x66]) = .ok (.eepromWriteV2 0x00 [] 0x66) ∧
  decode (.frame [0x24, 0x4D, 0x3E, 0x02, 0x69, 0x01, 0x02, 0x68]) = .ok (.rcV1 [0x01, 0x02] 0x68) ∧
  decode (.operation [0x11]) = .ok .dec ∧ decode (.operation [0x2F]) = .ok .unpack ∧
  decode (.operation [0x7F]) = .ok .reset

/-! ### The whole machine -/

/-- R38, both columns and the rows that cannot fail: what each host operation leaves, empties or writes, by its outcome. The rows of the frames on the wire
are the model's (log 4), and so is that an emptied buffer lists no cell (log 8). -/
def Obligations.WriteMatrix : Prop :=
  ∀ (i : Instr) (s t : State), exec i s = .next t → ∃ o v, t.reply = some ⟨o, v⟩ ∧ (cannotFail i = true → o = .ok) ∧
    let w := writesOf i o
    (w.csAcc = false → t.csAcc = s.csAcc) ∧ (w.csMode = false → t.csMode = s.csMode) ∧ (w.err = false → t.err = s.err) ∧
    (w.fb = .kept → t.fb = s.fb ∧ t.fbLen = s.fbLen) ∧ (w.fb = .cleared → t.fb = [] ∧ t.fbLen = 0) ∧
    (w.pb = .kept → t.pb = s.pb ∧ t.pbLen = s.pbLen) ∧ (w.pb = .cleared → t.pb = [] ∧ t.pbLen = 0) ∧
    (w.frame = .kept → t.fr = s.fr) ∧ (w.frame = .cleared → t.fr = none) ∧ (w.frame = .written → t.fr.isSome = true) ∧
    (w.decoded = .kept → t.ds = s.ds) ∧ (w.decoded = .cleared → t.ds = .none) ∧ (w.decoded = .written → t.ds ≠ .none) ∧
    (w.config = .kept → t.setwpId = s.setwpId) ∧ (w.config = .cleared → t.setwpId = none) ∧
    (w.config = .written → t.setwpId.isSome = true) ∧
    t.port = s.port

/-- R33, R270: every operation but the four reads stores in `ERR` the outcome it delivers, and delivers no value; the four reads leave `ERR`
alone and deliver a value exactly when they are `Ok`. -/
def Obligations.OutcomeIsStoredAndDelivered : Prop :=
  ∀ (i : Instr) (s t : State), exec i s = .next t →
    (isRead i = false → t.reply = some ⟨t.err, none⟩) ∧
    (isRead i = true → t.err = s.err ∧ ∃ o v, t.reply = some ⟨o, v⟩ ∧ (o = .ok ↔ v.isSome = true))

/-- R27, R28: whatever an operation does, no decoded structure survives the frame it came from: where `FR_VALID` or `PB` or `SETWP_ID` changed,
`DS_KIND` is 0 unless the operation ends with an `UNPACK`. -/
def Obligations.DecodedNeverStale : Prop :=
  ∀ (i : Instr) (s t : State), exec i s = .next t → i ≠ .unpack → i.frame? = none →
    t.ds = .none ∨ (t.ds = s.ds ∧ t.fr = s.fr ∧ t.pb = s.pb ∧ t.pbLen = s.pbLen ∧ t.setwpId = s.setwpId)

/-- R251, R24: in a state whose buffers hold their valid bytes every instruction, with every operand, ends in a next state; a frame on the wire (log 4)
does so in every state, since it replaces both buffers before it reads them. -/
def Obligations.EveryInstructionCompletes : Prop :=
  (∀ (i : Instr) (s : State), s.buffersHeld = true → ∃ t, exec i s = .next t) ∧
  (∀ (i : Instr) (f : Frame) (s : State), i.frame? = some f → ∃ t, exec i s = .next t)

/-- R24, R25, R27, R28, R32: the invariant of the block is kept by every step: the buffers hold exactly their valid bytes, in canonical form; the
FR group and `PB` describe a frame that `decode` finds in `FB`; the DS group is what the registry gives for it; `SETWP_ID` is no other command's
id. -/
def Obligations.StepKeepsInvariant : Prop :=
  ∀ s t : State, s.inv = true → step s = .next t → t.inv = true ∧ Memory.wf t.fb = true ∧ Memory.wf t.pb = true

/-- R39: the invariant holds after reset. -/
def Obligations.ResetHasInvariant : Prop := State.reset.inv = true

/-- R251: no sequence of packets the host presents ever makes the block fault; the one refusal is a badly packed command word (log 9). -/
def Obligations.NoSequenceIsStuck : Prop :=
  (∀ s : State, s.inv = true → safeResult (step s) = true) ∧
  (∀ (k : Nat) (packets : List Packet), safeResult (Host.Core.run Sys2Proof.core k { State.reset with port := packets }) = true)

/-- R9, R61, R63 (the last is the spec's own inference): byte order. A multi-byte read of a buffer after a multi-byte write gives the value written, and a
32-bit read is its two 16-bit halves, the low half at the lower address. The 16- and 32-bit fields of frames and payloads are put together
from bytes and taken apart into bytes with the least significant byte first. -/
def Obligations.MemoryIsLittleEndian : Prop :=
  (∀ (m : Memory) (a n v : Nat), Memory.readLE (Memory.writeLE m a n v) a n = some (v % 256 ^ n)) ∧
  (∀ (m : Memory) (a n v x : Nat), x < a ∨ a + n ≤ x → Memory.read (Memory.writeLE m a n v) x = Memory.read m x) ∧
  (∀ (m : Memory) (a lo hi : Nat), Memory.readLE m a 2 = some lo → Memory.readLE m (a + 2) 2 = some hi →
    Memory.readLE m a 4 = some (lo + 65536 * hi)) ∧
  (∀ (p : List Byte) (a : Nat) (b : Byte), p[a]? = some b → byteAt p a = b) ∧
  (∀ (p : List Byte) (a : Nat), (le16 p a).toNat = (byteAt p a).toNat + 256 * (byteAt p (a + 1)).toNat) ∧
  (∀ (p : List Byte) (a : Nat), (le32 p a).toNat = (byteAt p a).toNat + 256 * (byteAt p (a + 1)).toNat
    + 65536 * (byteAt p (a + 2)).toNat + 16777216 * (byteAt p (a + 3)).toNat) ∧
  (∀ v : BitVec 16, leBytes16 v = [BitVec.ofNat 8 v.toNat, BitVec.ofNat 8 (v.toNat / 256)]) ∧
  (∀ v : BitVec 32, leBytes32 v = [BitVec.ofNat 8 v.toNat, BitVec.ofNat 8 (v.toNat / 256), BitVec.ofNat 8 (v.toNat / 65536),
    BitVec.ofNat 8 (v.toNat / 16777216)])
end

