-- ==== Sys2Proof/Laws/Bytes.lean ====
section
/-!
SUPPORT. Laws of the byte-order and signed-pattern helpers.
-/

namespace Sys2Proof.Machine

@[simp] theorem byteAt_cons_zero (x : Byte) (s : List Byte) : byteAt (x :: s) 0 = x := rfl

@[simp] theorem byteAt_cons_succ (x : Byte) (s : List Byte) (n : Nat) : byteAt (x :: s) (n + 1) = byteAt s n := rfl

@[simp] theorem leBytes16_length (v : BitVec 16) : (leBytes16 v).length = 2 := rfl

@[simp] theorem leBytes32_length (v : BitVec 32) : (leBytes32 v).length = 4 := rfl

theorem byteAt_append_left {s t : List Byte} {n : Nat} (h : n < s.length) : byteAt (s ++ t) n = byteAt s n := by
  simp only [byteAt, List.getD_eq_getElem?_getD, List.getElem?_append_left h]

theorem byteAt_append_right {s t : List Byte} {n : Nat} (h : s.length ≤ n) :
    byteAt (s ++ t) n = byteAt t (n - s.length) := by
  simp only [byteAt, List.getD_eq_getElem?_getD, List.getElem?_append_right h]

theorem byteAt_eq_getElem {s : List Byte} {n : Nat} (h : n < s.length) : byteAt s n = s[n] := by
  simp [byteAt, List.getD_eq_getElem?_getD, h]

/-- Two bytes put together give back the pattern they were taken from. -/
theorem join16 (v : BitVec 16) :
    ((v.setWidth 8).setWidth 16 ||| ((v >>> 8).setWidth 8).setWidth 16 <<< 8) = v := by
  ext i hi
  simp only [BitVec.getElem_or, BitVec.getElem_setWidth, BitVec.getElem_shiftLeft, BitVec.getLsbD_setWidth,
    BitVec.getLsbD_ushiftRight]
  by_cases h : i < 8
  · simp [h, BitVec.getLsbD_eq_getElem hi]
  · have h2 : 8 + (i - 8) = i := by omega
    simp [h, h2, BitVec.getLsbD_eq_getElem hi, show i - 8 < 8 by omega]

/-- Four bytes put together give back the pattern they were taken from. -/
theorem join32 (v : BitVec 32) :
    ((v.setWidth 8).setWidth 32 ||| ((v >>> 8).setWidth 8).setWidth 32 <<< 8
      ||| ((v >>> 16).setWidth 8).setWidth 32 <<< 16 ||| ((v >>> 24).setWidth 8).setWidth 32 <<< 24) = v := by
  ext i hi
  simp only [BitVec.getElem_or, BitVec.getElem_setWidth, BitVec.getElem_shiftLeft, BitVec.getLsbD_setWidth,
    BitVec.getLsbD_ushiftRight]
  rcases (by omega : i < 8 ∨ (8 ≤ i ∧ i < 16) ∨ (16 ≤ i ∧ i < 24) ∨ (24 ≤ i ∧ i < 32)) with h | h | h | h
  · simp [h, BitVec.getLsbD_eq_getElem hi, show i < 16 by omega, show i < 24 by omega]
  · have h2 : 8 + (i - 8) = i := by omega
    simp [h2, BitVec.getLsbD_eq_getElem hi, show ¬ i < 8 by omega, show i < 16 by omega, show i < 24 by omega,
      show i - 8 < 8 by omega]
  · have h2 : 16 + (i - 16) = i := by omega
    simp [h2, BitVec.getLsbD_eq_getElem hi, show ¬ i < 8 by omega, show ¬ i < 16 by omega, show i < 24 by omega,
      show ¬ i - 8 < 8 by omega, show i - 16 < 8 by omega]
  · have h2 : 24 + (i - 24) = i := by omega
    simp [h2, BitVec.getLsbD_eq_getElem hi, show ¬ i < 8 by omega, show ¬ i < 16 by omega, show ¬ i < 24 by omega,
      show ¬ i - 8 < 8 by omega, show ¬ i - 16 < 8 by omega, show i - 24 < 8 by omega]

/-- The low byte of two bytes put together. -/
theorem split16_low (a b : Byte) : (a.setWidth 16 ||| b.setWidth 16 <<< 8).setWidth 8 = a := by
  ext i hi
  simp

/-- The high byte of two bytes put together. -/
theorem split16_high (a b : Byte) : ((a.setWidth 16 ||| b.setWidth 16 <<< 8) >>> 8).setWidth 8 = b := by
  ext i hi
  simp [BitVec.getElem_setWidth, BitVec.getLsbD_ushiftRight, BitVec.getLsbD_eq_getElem hi, show 8 + i < 16 by omega]

/-- `lebytes_16` of a number put together from two bytes. -/
theorem leBytes16_le16 (s : List Byte) (a : Nat) : leBytes16 (le16 s a) = [byteAt s a, byteAt s (a + 1)] := by
  simp only [leBytes16, le16, split16_low, split16_high]

/-- `lebytes_32` of a number put together from four bytes. -/
theorem leBytes32_le32 (s : List Byte) (a : Nat) :
    leBytes32 (le32 s a) = [byteAt s a, byteAt s (a + 1), byteAt s (a + 2), byteAt s (a + 3)] := by
  have bits : ∀ (w x y z : Byte) (k : Nat) (i : Nat), i < 8 → k ∈ [0, 8, 16, 24] →
      (w.setWidth 32 ||| x.setWidth 32 <<< 8 ||| y.setWidth 32 <<< 16 ||| z.setWidth 32 <<< 24).getLsbD (k + i)
        = (if k = 0 then w else if k = 8 then x else if k = 16 then y else z).getLsbD i := by
    intro w x y z k i hi hk
    have off : ∀ (b : Byte) (j : Nat), 8 ≤ j → b.getLsbD j = false := fun b j h => BitVec.getLsbD_of_ge b j h
    simp only [List.mem_cons, List.not_mem_nil, or_false] at hk
    rcases hk with rfl | rfl | rfl | rfl
    · simp [hi, show i < 16 by omega, show i < 24 by omega, show i < 32 by omega]
    · simp [show 8 + i < 16 by omega, show 8 + i < 24 by omega, show 8 + i < 32 by omega]
    · have : 16 + i - 8 = 8 + i := by omega
      simp [off w (16 + i) (by omega), this, show 16 + i < 24 by omega, show 16 + i < 32 by omega]
    · have h1 : 24 + i - 8 = 16 + i := by omega
      have h2 : 24 + i - 16 = 8 + i := by omega
      simp [off w (24 + i) (by omega), h1, h2, off x (16 + i) (by omega), show 24 + i < 32 by omega]
  have get : ∀ k ∈ [8, 16, 24], ∀ w x y z : Byte,
      ((w.setWidth 32 ||| x.setWidth 32 <<< 8 ||| y.setWidth 32 <<< 16 ||| z.setWidth 32 <<< 24) >>> k).setWidth 8
        = (if k = 0 then w else if k = 8 then x else if k = 16 then y else z) := by
    intro k hk w x y z
    ext i hi
    rw [BitVec.getElem_setWidth, BitVec.getLsbD_ushiftRight, bits w x y z k i hi (List.mem_cons_of_mem 0 hk),
      BitVec.getLsbD_eq_getElem hi]
  have low : ∀ w x y z : Byte,
      (w.setWidth 32 ||| x.setWidth 32 <<< 8 ||| y.setWidth 32 <<< 16 ||| z.setWidth 32 <<< 24).setWidth 8 = w := by
    intro w x y z
    ext i hi
    have := bits w x y z 0 i hi (by simp)
    rw [BitVec.getElem_setWidth, ← BitVec.getLsbD_eq_getElem hi]
    simpa using this
  simp only [leBytes32, le32, low, get 8 (by simp), get 16 (by simp), get 24 (by simp)]
  simp

/-- The signed value of R62 is the two's complement one of the library. -/
theorem sext_eq_toInt {w : Nat} (v : BitVec w) (hw : 0 < w) : sext v = v.toInt := by
  have h2 : 2 ^ w = 2 * 2 ^ (w - 1) := by
    rw [← Nat.pow_succ']
    congr 1
    omega
  unfold sext
  rw [BitVec.toInt_eq_toNat_cond]
  by_cases h : v.toNat < 2 ^ (w - 1)
  · rw [if_pos h, if_pos (by omega)]
  · rw [if_neg h, if_neg (by omega)]

end Sys2Proof.Machine
end

