-- ==== Sys2Proof/Laws/Codec.lean ====
section
/-!
SUPPORT. Laws of the frame codec's functions: the fixed bytes, the cut of a byte sequence that begins with a frame, and what a
successful cut says of the bytes.
-/

namespace Sys2Proof.Machine

@[simp] theorem verOf_verByte (v : Version) : verOf (verByte v) = some v := by cases v <;> rfl

@[simp] theorem dirOf_dirByte (d : Direction) : dirOf (dirByte d) = some d := by cases d <;> rfl

@[simp] theorem dirOfNumber_dirNumber (d : Direction) : dirOfNumber (dirNumber d) = some d := by cases d <;> rfl

theorem verByte_of_verOf {b : Byte} {v : Version} (h : verOf b = some v) : b = verByte v := by
  unfold verOf at h
  split at h
  · cases h; assumption
  · split at h
    · cases h; assumption
    · cases h

theorem dirByte_of_dirOf {b : Byte} {d : Direction} (h : dirOf b = some d) : b = dirByte d := by
  unfold dirOf at h
  split at h
  · cases h; assumption
  · split at h
    · cases h; assumption
    · split at h
      · cases h; assumption
      · cases h

theorem dirNumber_of_dirOfNumber {n : BitVec 2} {d : Direction} (h : dirOfNumber n = some d) : n = dirNumber d := by
  unfold dirOfNumber at h
  split at h
  · cases h; assumption
  · split at h
    · cases h; assumption
    · split at h
      · cases h; assumption
      · cases h

@[simp] theorem frameHeader_length (f : Frame) : (frameHeader f).length = hdr f.version := by
  unfold frameHeader
  cases f.version <;> rfl

/-- A frame has `size(ver, L)` bytes (R171). -/
@[simp] theorem frameBytes_length (f : Frame) : (frameBytes f).length = frameSize f.version f.payload.length := by
  simp [frameBytes, frameSize]
  omega

/-- The first bytes of a frame are its header's. -/
theorem byteAt_frameBytes_header (f : Frame) (rest : List Byte) {n : Nat} (h : n < hdr f.version) :
    byteAt (frameBytes f ++ rest) n = byteAt (frameHeader f) n := by
  rw [frameBytes, List.append_assoc, List.append_assoc, byteAt_append_left (by simpa using h)]

/-- The byte behind the payload is the checksum byte. -/
theorem byteAt_frameBytes_checksum (f : Frame) (rest : List Byte) :
    byteAt (frameBytes f ++ rest) (hdr f.version + f.payload.length) = f.checksum := by
  rw [byteAt_append_left (by simp [frameSize]), frameBytes, byteAt_append_right (by simp)]
  simp

/-- The payload stands between the header and the checksum byte. -/
theorem payload_of_frameBytes (f : Frame) (rest : List Byte) :
    ((frameBytes f ++ rest).drop (hdr f.version)).take f.payload.length = f.payload := by
  have h := frameHeader_length f
  rw [frameBytes, List.append_assoc, List.append_assoc, ← h, List.drop_left]
  simp

theorem fitsV1_iff (p : List Byte) : fitsV1 p = true ↔ p.length ≤ 255 := decide_eq_true_iff

theorem fitsV2_iff (p : List Byte) : fitsV2 p = true ↔ p.length ≤ 65535 := decide_eq_true_iff

/-- R160: the range of a V1 frame's fields. -/
theorem inRange_v1_iff {f : Frame} (hv : f.version = .v1) :
    f.inRange = true ↔ f.flag = 0 ∧ f.func.toNat ≤ 255 ∧ f.payload.length ≤ 255 := by
  unfold Frame.inRange
  rw [hv]
  simp only [Bool.and_eq_true, beq_iff_eq, fitsV1_iff, and_assoc]
  exact and_congr_right fun _ => and_congr_left fun _ => decide_eq_true_iff

/-- R160: the range of a V2 frame's fields. -/
theorem inRange_v2_iff {f : Frame} (hv : f.version = .v2) : f.inRange = true ↔ f.payload.length ≤ 65535 := by
  unfold Frame.inRange
  rw [hv]
  exact fitsV2_iff _

/-- The header fields of a frame in range, read back from its header (R96). -/
theorem header_fields (f : Frame) (rest : List Byte) (h : f.inRange = true) :
    declaredLength f.version (frameBytes f ++ rest) = f.payload.length ∧
    headerFlag f.version (frameBytes f ++ rest) = f.flag ∧
    headerFunc f.version (frameBytes f ++ rest) = f.func := by
  have hb : ∀ n < hdr f.version, byteAt (frameBytes f ++ rest) n = byteAt (frameHeader f) n :=
    fun n hn => byteAt_frameBytes_header f rest hn
  cases hv : f.version with
  | v1 =>
    obtain ⟨hflag, hfunc, hlen⟩ := (inRange_v1_iff hv).1 h
    rw [hv] at hb
    simp only [declaredLength, headerFlag, headerFunc, hb 3 (by decide), hb 4 (by decide), frameHeader, hv,
      byteAt_cons_zero, byteAt_cons_succ, hflag]
    refine ⟨?_, trivial, ?_⟩
    · rw [BitVec.toNat_ofNat]
      omega
    · apply BitVec.eq_of_toNat_eq
      simp only [BitVec.toNat_setWidth]
      omega
  | v2 =>
    have hlen := (inRange_v2_iff hv).1 h
    rw [hv] at hb
    simp only [declaredLength, headerFlag, headerFunc, le16, hb 3 (by decide), hb 4 (by decide), hb 5 (by decide),
      hb 6 (by decide), hb 7 (by decide), frameHeader, hv, leBytes16, List.cons_append, List.nil_append,
      byteAt_cons_zero, byteAt_cons_succ, Nat.reduceAdd, join16]
    refine ⟨?_, trivial, trivial⟩
    rw [BitVec.toNat_ofNat]
    omega

/-- A byte sequence that begins with a frame in range is cut into exactly that frame (steps 1 to 3 of R163; R170). -/
theorem splitFrame_frameBytes (f : Frame) (rest : List Byte) (h : f.inRange = true) :
    splitFrame (frameBytes f ++ rest) = .ok (f, frameSize f.version f.payload.length) := by
  have hlen : (frameBytes f ++ rest).length = frameSize f.version f.payload.length + rest.length := by simp
  have hsz : frameSize f.version f.payload.length = hdr f.version + f.payload.length + 1 := rfl
  have h5 : 5 ≤ hdr f.version := by cases f.version <;> decide
  obtain ⟨hL, hG, hF⟩ := header_fields f rest h
  have b0 : byteAt (frameBytes f ++ rest) 0 = Config.dollar := by
    rw [byteAt_frameBytes_header f rest (by omega)]
    unfold frameHeader
    cases f.version <;> rfl
  have b1 : byteAt (frameBytes f ++ rest) 1 = verByte f.version := by
    rw [byteAt_frameBytes_header f rest (by omega)]
    unfold frameHeader
    cases f.version <;> rfl
  have b2 : byteAt (frameBytes f ++ rest) 2 = dirByte f.direction := by
    rw [byteAt_frameBytes_header f rest (by omega)]
    unfold frameHeader
    cases f.version <;> rfl
  unfold splitFrame
  rw [if_neg (by omega), if_neg (by simp [b0]), b1, b2, verOf_verByte, dirOf_dirByte]
  simp only
  rw [if_neg (by omega), hL, if_neg (by omega), hG, hF, payload_of_frameBytes, byteAt_frameBytes_checksum]

theorem splitFrame_bytes_append_rest {s : List Byte} {f : Frame} {n : Nat} (h : splitFrame s = .ok (f, n)) :
    f.inRange = true ∧ n = frameSize f.version f.payload.length ∧ ∃ rest, s = frameBytes f ++ rest := by
  unfold splitFrame at h
  split at h
  · cases h
  rename_i h3
  split at h
  · cases h
  rename_i h0
  split at h
  · rename_i v d hv hd
    split at h
    · cases h
    rename_i hh
    simp only at h
    split at h
    · cases h
    rename_i hn
    simp only [Except.ok.injEq, Prod.mk.injEq] at h
    obtain ⟨hf, hn'⟩ := h
    simp only [frameSize] at hn
    have hlenp : ((s.drop (hdr v)).take (declaredLength v s)).length = declaredLength v s := by
      simp only [List.length_take, List.length_drop]
      omega
    have hb1 := verByte_of_verOf hv
    have hb2 := dirByte_of_dirOf hd
    have hb0 : byteAt s 0 = Config.dollar := by simpa using h0
    have hsplit : s = s.take (hdr v) ++ (s.drop (hdr v)).take (declaredLength v s) ++ [byteAt s (hdr v + declaredLength v s)]
        ++ s.drop (hdr v + declaredLength v s + 1) := by
      have e1 : (s.drop (hdr v)).drop (declaredLength v s) = s.drop (hdr v + declaredLength v s) := by
        rw [List.drop_drop]
      have e2 : s.drop (hdr v + declaredLength v s)
          = byteAt s (hdr v + declaredLength v s) :: s.drop (hdr v + declaredLength v s + 1) := by
        rw [List.drop_eq_getElem_cons (by omega), byteAt_eq_getElem (by omega)]
      calc s = s.take (hdr v) ++ s.drop (hdr v) := (List.take_append_drop _ _).symm
        _ = s.take (hdr v) ++ ((s.drop (hdr v)).take (declaredLength v s)
              ++ (s.drop (hdr v)).drop (declaredLength v s)) := by rw [List.take_append_drop (declaredLength v s)]
        _ = _ := by rw [e1, e2]; simp
    have htake : ∀ k, k ≤ s.length → s.take k = (List.range k).map (byteAt s) := by
      intro k hk
      apply List.ext_getElem
      · simp [hk]
      · intro i h1 h2
        simp only [List.length_map, List.length_range] at h2
        simp [byteAt_eq_getElem (show i < s.length by omega)]
    subst hf
    refine ⟨?_, ?_, s.drop (hdr v + declaredLength v s + 1), ?_⟩
    · cases v with
      | v1 =>
        have h1 := (byteAt s 3).isLt
        have h2 := (byteAt s 4).isLt
        rw [inRange_v1_iff rfl]
        refine ⟨rfl, ?_, ?_⟩
        · simp only [headerFunc, BitVec.toNat_setWidth]
          omega
        · rw [hlenp, declaredLength]
          omega
      | v2 =>
        have h1 := (le16 s 6).isLt
        rw [inRange_v2_iff rfl, hlenp, declaredLength]
        omega
    · rw [hlenp, hn']
    · have hheader : frameHeader
          { version := v, direction := d, flag := headerFlag v s, func := headerFunc v s,
            payload := (s.drop (hdr v)).take (declaredLength v s), checksum := byteAt s (hdr v + declaredLength v s) }
          = s.take (hdr v) := by
        rw [htake (hdr v) (by omega)]
        cases v with
        | v1 =>
          simp only [frameHeader]
          rw [hlenp]
          simp only [declaredLength, headerFunc, hdr]
          have : BitVec.ofNat 8 (byteAt s 3).toNat = byteAt s 3 := by simp
          have h16 : ((byteAt s 4).setWidth 16).setWidth 8 = byteAt s 4 := by
            apply BitVec.eq_of_toNat_eq
            have := (byteAt s 4).isLt
            simp only [BitVec.toNat_setWidth]
            omega
          simp only [verByte] at hb1
          rw [this, h16, ← hb0, ← hb1, ← hb2]
          rfl
        | v2 =>
          simp only [frameHeader]
          rw [hlenp]
          simp only [declaredLength, headerFunc, headerFlag, hdr]
          have : BitVec.ofNat 16 (le16 s 6).toNat = le16 s 6 := by simp
          simp only [verByte] at hb1
          rw [this, leBytes16_le16, leBytes16_le16, ← hb0, ← hb1, ← hb2]
          rfl
      rw [frameBytes, hheader]
      exact hsplit
  · cases h

/-- Everything a successful cut says: the bytes begin with the frame, whose fields are in range. -/
theorem splitFrame_ok_iff (s : List Byte) (f : Frame) (n : Nat) :
    splitFrame s = .ok (f, n) ↔
      f.inRange = true ∧ n = frameSize f.version f.payload.length ∧ ∃ rest, s = frameBytes f ++ rest := by
  constructor
  · exact splitFrame_bytes_append_rest
  · rintro ⟨hr, rfl, rest, rfl⟩
    exact splitFrame_frameBytes f rest hr

/-- The covered bytes of a frame are the header from its fourth byte on, and the payload (R133, R134). -/
theorem coveredBytes_frameBytes (f : Frame) (rest : List Byte) :
    coveredBytes f.version f.payload.length (frameBytes f ++ rest) = (frameHeader f).drop 3 ++ f.payload := by
  have h := frameHeader_length f
  have h3 : 3 ≤ (frameHeader f).length := by rw [h]; cases f.version <;> decide
  have ht : (frameBytes f ++ rest).take (hdr f.version + f.payload.length) = frameHeader f ++ f.payload := by
    rw [← h, ← List.length_append, frameBytes, List.append_assoc]
    exact List.take_left
  rw [coveredBytes, ht, List.drop_append_of_le_length h3]

/-- The checksum over the covered bytes is the one that belongs to the frame's fields (R163). -/
theorem checksum_coveredBytes (f : Frame) (rest : List Byte) :
    checksum f.version (coveredBytes f.version f.payload.length (frameBytes f ++ rest)) = frameChecksum f := by
  rw [coveredBytes_frameBytes]
  unfold frameChecksum frameHeader
  cases f.version <;> rfl

/-- `decode` of bytes that begin with a frame in range: its checksum byte decides (R163). -/
theorem frameDecode_frameBytes (f : Frame) (rest : List Byte) (h : f.inRange = true) :
    frameDecode (frameBytes f ++ rest)
      = if frameChecksum f = f.checksum then .ok (f, frameSize f.version f.payload.length)
        else .error .checksumMismatch := by
  rw [frameDecode, splitFrame_frameBytes f rest h]
  simp only [checksum_coveredBytes]
  by_cases hc : frameChecksum f = f.checksum <;> simp [hc]

/-- What `decode` accepts: bytes that begin with a well-formed frame (R160, R163). -/
theorem frameDecode_ok_iff (s : List Byte) (f : Frame) (n : Nat) :
    frameDecode s = .ok (f, n) ↔
      frameWellFormed f = true ∧ n = frameSize f.version f.payload.length ∧ ∃ rest, s = frameBytes f ++ rest := by
  constructor
  · intro h
    have hs : splitFrame s = .ok (f, n) := by
      unfold frameDecode at h
      split at h
      · cases h
      · rename_i f' n' hs
        split at h
        · cases h
        · cases h
          exact hs
    obtain ⟨hr, hn, rest, rfl⟩ := (splitFrame_ok_iff s f n).1 hs
    rw [frameDecode_frameBytes f rest hr] at h
    split at h
    · rename_i hc
      exact ⟨by simp [frameWellFormed, hr, verify, hc], hn, rest, rfl⟩
    · cases h
  · rintro ⟨hw, rfl, rest, rfl⟩
    simp only [frameWellFormed, verify, Bool.and_eq_true, beq_iff_eq] at hw
    rw [frameDecode_frameBytes f rest hw.1, if_pos hw.2.symm]

end Sys2Proof.Machine
end

