-- ==== Sys2Proof/Laws/Memory.lean ====
section
/-!
SUPPORT. Laws of the buffers: read after write, the canonical form kept by every operation, and what a buffer that holds a byte
sequence reads as.
-/

namespace Sys2Proof.Machine

/-! ### Read after write -/

@[simp] theorem Memory.read_write_same (m : Memory) (a : Nat) (v : Byte) :
    Memory.read (Memory.write m a v) a = some v := by
  induction m with
  | nil => simp [Memory.write, Memory.read]
  | cons c m ih =>
    obtain ⟨k, b⟩ := c
    unfold Memory.write
    split
    · simp [Memory.read]
    · split
      · rename_i h
        simp [Memory.read, h]
      · rename_i h
        simp [Memory.read, h, ih]

theorem Memory.read_write_other (m : Memory) {a x : Nat} (v : Byte) (h : x ≠ a) :
    Memory.read (Memory.write m a v) x = Memory.read m x := by
  induction m with
  | nil => simp [Memory.write, Memory.read, h]
  | cons c m ih =>
    obtain ⟨k, b⟩ := c
    unfold Memory.write
    split
    · simp [Memory.read, h]
    · split
      · rename_i hk
        subst hk
        simp [Memory.read, h]
      · simp [Memory.read, ih]

/-! ### The canonical form -/

theorem Memory.wfFrom_mono {m : Memory} {lo lo' : Nat} (h : Memory.wfFrom lo m = true) (hle : lo' ≤ lo) :
    Memory.wfFrom lo' m = true := by
  cases m with
  | nil => rfl
  | cons c m =>
    obtain ⟨k, b⟩ := c
    simp only [Memory.wfFrom, Bool.and_eq_true, decide_eq_true_eq] at h ⊢
    exact ⟨by omega, h.2⟩

theorem Memory.wfFrom_write {m : Memory} {lo a : Nat} (v : Byte) (h : Memory.wfFrom lo m = true) (ha : lo ≤ a) :
    Memory.wfFrom lo (Memory.write m a v) = true := by
  induction m generalizing lo with
  | nil => simp [Memory.write, Memory.wfFrom, ha]
  | cons c m ih =>
    obtain ⟨k, b⟩ := c
    simp only [Memory.wfFrom, Bool.and_eq_true, decide_eq_true_eq] at h
    unfold Memory.write
    split
    · simp only [Memory.wfFrom, Bool.and_eq_true, decide_eq_true_eq]
      exact ⟨ha, by omega, h.2⟩
    · split
      · simp only [Memory.wfFrom, Bool.and_eq_true, decide_eq_true_eq]
        exact ⟨h.1, h.2⟩
      · simp only [Memory.wfFrom, Bool.and_eq_true, decide_eq_true_eq]
        exact ⟨h.1, ih h.2 (by omega)⟩

/-- A write keeps the canonical form. -/
theorem Memory.wf_write {m : Memory} (a : Nat) (v : Byte) (h : Memory.wf m = true) :
    Memory.wf (Memory.write m a v) = true := Memory.wfFrom_write v h (Nat.zero_le a)

/-- A write of several bytes keeps the canonical form. -/
theorem Memory.wf_writeBytes {m : Memory} (a : Nat) (bs : List Byte) (h : Memory.wf m = true) :
    Memory.wf (Memory.writeBytes m a bs) = true := by
  induction bs generalizing m a with
  | nil => exact h
  | cons b bs ih => exact ih (a + 1) (Memory.wf_write a b h)

/-- `MemWrite` keeps the canonical form. -/
theorem Memory.wf_writeLE {m : Memory} (a n v : Nat) (h : Memory.wf m = true) :
    Memory.wf (Memory.writeLE m a n v) = true := Memory.wf_writeBytes a _ h

theorem Memory.wfFrom_ofBytesFrom (a : Nat) (bs : List Byte) : Memory.wfFrom a (Memory.ofBytesFrom a bs) = true := by
  induction bs generalizing a with
  | nil => rfl
  | cons b bs ih => simp [Memory.ofBytesFrom, Memory.wfFrom, ih]

/-- A buffer made from a byte sequence is in canonical form. -/
theorem Memory.wf_ofBytes (bs : List Byte) : Memory.wf (Memory.ofBytes bs) = true := Memory.wfFrom_ofBytesFrom 0 bs

/-- Nothing listed is in canonical form. -/
theorem Memory.wf_nil : Memory.wf [] = true := rfl

/-! ### Buffers that hold a byte sequence -/

theorem Memory.read_ofBytesFrom (a : Nat) (bs : List Byte) (x : Nat) :
    Memory.read (Memory.ofBytesFrom a bs) x = if a ≤ x then bs[x - a]? else none := by
  induction bs generalizing a with
  | nil => simp [Memory.ofBytesFrom, Memory.read]
  | cons b bs ih =>
    simp only [Memory.ofBytesFrom, Memory.read, ih]
    by_cases h : x = a
    · simp [h]
    · by_cases hle : a ≤ x
      · have : x - a = (x - (a + 1)) + 1 := by omega
        simp [h, hle, show a + 1 ≤ x by omega, this]
      · simp [h, hle, show ¬ a + 1 ≤ x by omega]

/-- A buffer that holds `bs` reads byte `x` of `bs` at address `x`, and nothing beyond. -/
theorem Memory.read_ofBytes (bs : List Byte) (x : Nat) : Memory.read (Memory.ofBytes bs) x = bs[x]? := by
  simp [Memory.ofBytes, Memory.read_ofBytesFrom]

theorem Memory.readBytes_ofBytes_drop (bs : List Byte) (a n : Nat) (h : a + n ≤ bs.length) :
    Memory.readBytes (Memory.ofBytes bs) a n = some ((bs.drop a).take n) := by
  induction n generalizing a with
  | zero => simp [Memory.readBytes]
  | succ n ih =>
    have ha : a < bs.length := by omega
    rw [Memory.readBytes, Memory.read_ofBytes, ih (a + 1) (by omega), List.getElem?_eq_getElem ha,
      List.drop_eq_getElem_cons ha]
    rfl

/-- A buffer that holds `bs`, read as a whole, is `bs`. -/
@[simp] theorem Memory.readBytes_ofBytes (bs : List Byte) :
    Memory.readBytes (Memory.ofBytes bs) 0 bs.length = some bs := by
  simpa using Memory.readBytes_ofBytes_drop bs 0 bs.length (by omega)

theorem Memory.readBytes_length {m : Memory} {a n : Nat} {bs : List Byte} (h : Memory.readBytes m a n = some bs) :
    bs.length = n := by
  induction n generalizing a bs with
  | zero => simp only [Memory.readBytes, Option.some.injEq] at h; simp [← h]
  | succ n ih =>
    rw [Memory.readBytes] at h
    split at h
    · rename_i b bs' hb hbs
      have := ih hbs
      cases h
      simp [this]
    · cases h

theorem Memory.map_fst_ofBytesFrom (a : Nat) (bs : List Byte) :
    (Memory.ofBytesFrom a bs).map Prod.fst = List.range' a bs.length := by
  induction bs generalizing a with
  | nil => rfl
  | cons b bs ih => simp [Memory.ofBytesFrom, ih, List.range'_succ]

/-- A buffer made from `bs` lists exactly the addresses below its length. -/
@[simp] theorem denseTo_ofBytes (bs : List Byte) : denseTo (Memory.ofBytes bs) bs.length = true := by
  simp [denseTo, Memory.ofBytes, Memory.map_fst_ofBytesFrom, List.range_eq_range']

theorem Memory.eq_ofBytesFrom {m : Memory} {a n : Nat} (h : m.map Prod.fst = List.range' a n) :
    m = Memory.ofBytesFrom a (m.map Prod.snd) := by
  induction m generalizing a n with
  | nil => rfl
  | cons c m ih =>
    obtain ⟨k, b⟩ := c
    cases n with
    | zero => simp at h
    | succ n =>
      simp only [List.map_cons, List.range'_succ, List.cons.injEq] at h
      obtain ⟨hk, hm⟩ := h
      subst hk
      simp only [List.map_cons, Memory.ofBytesFrom]
      rw [← ih hm]

/-- A buffer that lists exactly the addresses below `n` holds some byte sequence of length `n`. -/
theorem denseTo_iff (m : Memory) (n : Nat) :
    denseTo m n = true ↔ ∃ bs : List Byte, bs.length = n ∧ m = Memory.ofBytes bs := by
  constructor
  · intro h
    simp only [denseTo, beq_iff_eq, List.range_eq_range'] at h
    exact ⟨m.map Prod.snd, by simpa using congrArg List.length h, Memory.eq_ofBytesFrom h⟩
  · rintro ⟨bs, rfl, rfl⟩
    exact denseTo_ofBytes bs

theorem Memory.write_ofBytesFrom_end (a : Nat) (bs : List Byte) (v : Byte) :
    Memory.write (Memory.ofBytesFrom a bs) (a + bs.length) v = Memory.ofBytesFrom a (bs ++ [v]) := by
  induction bs generalizing a with
  | nil => rfl
  | cons b bs ih =>
    have h1 : a + (b :: bs).length = a + 1 + bs.length := by simp; omega
    simp only [Memory.ofBytesFrom, List.cons_append, h1]
    rw [Memory.write, if_neg (by omega), if_neg (by omega), ih]

/-- Appending a byte: a write at the end of a buffer that holds `bs`. -/
theorem Memory.write_ofBytes_end (bs : List Byte) (v : Byte) :
    Memory.write (Memory.ofBytes bs) bs.length v = Memory.ofBytes (bs ++ [v]) := by
  simpa [Memory.ofBytes] using Memory.write_ofBytesFrom_end 0 bs v

/-- `MemWrite` of one byte is a write of that byte. -/
@[simp] theorem Memory.writeLE_one (m : Memory) (a : Nat) (b : Byte) :
    Memory.writeLE m a 1 b.toNat = Memory.write m a b := by
  simp [Memory.writeLE, bytesOfNat, Memory.writeBytes]

/-- `MemRead` of one byte is that byte. -/
@[simp] theorem Memory.readLE_one (m : Memory) (a : Nat) :
    Memory.readLE m a 1 = (Memory.read m a).map BitVec.toNat := by
  unfold Memory.readLE Memory.readBytes Memory.readBytes
  cases Memory.read m a <;> simp [natOfBytes]

end Sys2Proof.Machine
end

