-- ==== Sys2Proof/Laws/State.lean ====
section
/-!
SUPPORT. What every update of the state does to every field: one lemma per field per update, all by rfl.
-/

namespace Sys2Proof.Machine

/-! ### `finish` -/

@[simp] theorem finish_csAcc (o : OutcomeCode) (s : State) : (finish o s).csAcc = s.csAcc := rfl
@[simp] theorem finish_csMode (o : OutcomeCode) (s : State) : (finish o s).csMode = s.csMode := rfl
@[simp] theorem finish_fb (o : OutcomeCode) (s : State) : (finish o s).fb = s.fb := rfl
@[simp] theorem finish_fbLen (o : OutcomeCode) (s : State) : (finish o s).fbLen = s.fbLen := rfl
@[simp] theorem finish_pb (o : OutcomeCode) (s : State) : (finish o s).pb = s.pb := rfl
@[simp] theorem finish_pbLen (o : OutcomeCode) (s : State) : (finish o s).pbLen = s.pbLen := rfl
@[simp] theorem finish_fr (o : OutcomeCode) (s : State) : (finish o s).fr = s.fr := rfl
@[simp] theorem finish_ds (o : OutcomeCode) (s : State) : (finish o s).ds = s.ds := rfl
@[simp] theorem finish_setwpId (o : OutcomeCode) (s : State) : (finish o s).setwpId = s.setwpId := rfl
@[simp] theorem finish_err (o : OutcomeCode) (s : State) : (finish o s).err = o := rfl
@[simp] theorem finish_port (o : OutcomeCode) (s : State) : (finish o s).port = s.port := rfl
@[simp] theorem finish_reply (o : OutcomeCode) (s : State) : (finish o s).reply = some ⟨o, none⟩ := rfl

/-! ### `failRead` -/

@[simp] theorem failRead_csAcc (o : OutcomeCode) (s : State) : (failRead o s).csAcc = s.csAcc := rfl
@[simp] theorem failRead_csMode (o : OutcomeCode) (s : State) : (failRead o s).csMode = s.csMode := rfl
@[simp] theorem failRead_fb (o : OutcomeCode) (s : State) : (failRead o s).fb = s.fb := rfl
@[simp] theorem failRead_fbLen (o : OutcomeCode) (s : State) : (failRead o s).fbLen = s.fbLen := rfl
@[simp] theorem failRead_pb (o : OutcomeCode) (s : State) : (failRead o s).pb = s.pb := rfl
@[simp] theorem failRead_pbLen (o : OutcomeCode) (s : State) : (failRead o s).pbLen = s.pbLen := rfl
@[simp] theorem failRead_fr (o : OutcomeCode) (s : State) : (failRead o s).fr = s.fr := rfl
@[simp] theorem failRead_ds (o : OutcomeCode) (s : State) : (failRead o s).ds = s.ds := rfl
@[simp] theorem failRead_setwpId (o : OutcomeCode) (s : State) : (failRead o s).setwpId = s.setwpId := rfl
@[simp] theorem failRead_err (o : OutcomeCode) (s : State) : (failRead o s).err = s.err := rfl
@[simp] theorem failRead_port (o : OutcomeCode) (s : State) : (failRead o s).port = s.port := rfl
@[simp] theorem failRead_reply (o : OutcomeCode) (s : State) : (failRead o s).reply = some ⟨o, none⟩ := rfl

/-! ### `deliver` -/

@[simp] theorem deliver_csAcc (v : Value) (s : State) : (deliver v s).csAcc = s.csAcc := rfl
@[simp] theorem deliver_csMode (v : Value) (s : State) : (deliver v s).csMode = s.csMode := rfl
@[simp] theorem deliver_fb (v : Value) (s : State) : (deliver v s).fb = s.fb := rfl
@[simp] theorem deliver_fbLen (v : Value) (s : State) : (deliver v s).fbLen = s.fbLen := rfl
@[simp] theorem deliver_pb (v : Value) (s : State) : (deliver v s).pb = s.pb := rfl
@[simp] theorem deliver_pbLen (v : Value) (s : State) : (deliver v s).pbLen = s.pbLen := rfl
@[simp] theorem deliver_fr (v : Value) (s : State) : (deliver v s).fr = s.fr := rfl
@[simp] theorem deliver_ds (v : Value) (s : State) : (deliver v s).ds = s.ds := rfl
@[simp] theorem deliver_setwpId (v : Value) (s : State) : (deliver v s).setwpId = s.setwpId := rfl
@[simp] theorem deliver_err (v : Value) (s : State) : (deliver v s).err = s.err := rfl
@[simp] theorem deliver_port (v : Value) (s : State) : (deliver v s).port = s.port := rfl
@[simp] theorem deliver_reply (v : Value) (s : State) : (deliver v s).reply = some ⟨.ok, some v⟩ := rfl

/-! ### `invalidate` -/

@[simp] theorem invalidate_csAcc (s : State) : (invalidate s).csAcc = s.csAcc := rfl
@[simp] theorem invalidate_csMode (s : State) : (invalidate s).csMode = s.csMode := rfl
@[simp] theorem invalidate_fb (s : State) : (invalidate s).fb = s.fb := rfl
@[simp] theorem invalidate_fbLen (s : State) : (invalidate s).fbLen = s.fbLen := rfl
@[simp] theorem invalidate_pb (s : State) : (invalidate s).pb = s.pb := rfl
@[simp] theorem invalidate_pbLen (s : State) : (invalidate s).pbLen = s.pbLen := rfl
@[simp] theorem invalidate_fr (s : State) : (invalidate s).fr = none := rfl
@[simp] theorem invalidate_ds (s : State) : (invalidate s).ds = .none := rfl
@[simp] theorem invalidate_setwpId (s : State) : (invalidate s).setwpId = s.setwpId := rfl
@[simp] theorem invalidate_err (s : State) : (invalidate s).err = s.err := rfl
@[simp] theorem invalidate_port (s : State) : (invalidate s).port = s.port := rfl
@[simp] theorem invalidate_reply (s : State) : (invalidate s).reply = s.reply := rfl

/-! ### `stagePayload` -/

@[simp] theorem stagePayload_csAcc (p : List Byte) (s : State) : (stagePayload p s).csAcc = s.csAcc := rfl
@[simp] theorem stagePayload_csMode (p : List Byte) (s : State) : (stagePayload p s).csMode = s.csMode := rfl
@[simp] theorem stagePayload_fb (p : List Byte) (s : State) : (stagePayload p s).fb = s.fb := rfl
@[simp] theorem stagePayload_fbLen (p : List Byte) (s : State) : (stagePayload p s).fbLen = s.fbLen := rfl
@[simp] theorem stagePayload_pb (p : List Byte) (s : State) : (stagePayload p s).pb = Memory.ofBytes p := rfl
@[simp] theorem stagePayload_pbLen (p : List Byte) (s : State) : (stagePayload p s).pbLen = BitVec.ofNat 16 p.length := rfl
@[simp] theorem stagePayload_fr (p : List Byte) (s : State) : (stagePayload p s).fr = none := rfl
@[simp] theorem stagePayload_ds (p : List Byte) (s : State) : (stagePayload p s).ds = .none := rfl
@[simp] theorem stagePayload_setwpId (p : List Byte) (s : State) : (stagePayload p s).setwpId = s.setwpId := rfl
@[simp] theorem stagePayload_err (p : List Byte) (s : State) : (stagePayload p s).err = .ok := rfl
@[simp] theorem stagePayload_port (p : List Byte) (s : State) : (stagePayload p s).port = s.port := rfl
@[simp] theorem stagePayload_reply (p : List Byte) (s : State) : (stagePayload p s).reply = some ⟨.ok, none⟩ := rfl

/-! ### `clearFrameBuffer` -/

@[simp] theorem clearFrameBuffer_csAcc (s : State) : (clearFrameBuffer s).csAcc = s.csAcc := rfl
@[simp] theorem clearFrameBuffer_csMode (s : State) : (clearFrameBuffer s).csMode = s.csMode := rfl
@[simp] theorem clearFrameBuffer_fb (s : State) : (clearFrameBuffer s).fb = [] := rfl
@[simp] theorem clearFrameBuffer_fbLen (s : State) : (clearFrameBuffer s).fbLen = 0 := rfl
@[simp] theorem clearFrameBuffer_pb (s : State) : (clearFrameBuffer s).pb = s.pb := rfl
@[simp] theorem clearFrameBuffer_pbLen (s : State) : (clearFrameBuffer s).pbLen = s.pbLen := rfl
@[simp] theorem clearFrameBuffer_fr (s : State) : (clearFrameBuffer s).fr = none := rfl
@[simp] theorem clearFrameBuffer_ds (s : State) : (clearFrameBuffer s).ds = .none := rfl
@[simp] theorem clearFrameBuffer_setwpId (s : State) : (clearFrameBuffer s).setwpId = s.setwpId := rfl
@[simp] theorem clearFrameBuffer_err (s : State) : (clearFrameBuffer s).err = .ok := rfl
@[simp] theorem clearFrameBuffer_port (s : State) : (clearFrameBuffer s).port = s.port := rfl
@[simp] theorem clearFrameBuffer_reply (s : State) : (clearFrameBuffer s).reply = some ⟨.ok, none⟩ := rfl

/-! ### `illegalOperation` -/

@[simp] theorem illegalOperation_csAcc (s : State) : (illegalOperation s).csAcc = s.csAcc := rfl
@[simp] theorem illegalOperation_csMode (s : State) : (illegalOperation s).csMode = s.csMode := rfl
@[simp] theorem illegalOperation_fb (s : State) : (illegalOperation s).fb = s.fb := rfl
@[simp] theorem illegalOperation_fbLen (s : State) : (illegalOperation s).fbLen = s.fbLen := rfl
@[simp] theorem illegalOperation_pb (s : State) : (illegalOperation s).pb = s.pb := rfl
@[simp] theorem illegalOperation_pbLen (s : State) : (illegalOperation s).pbLen = s.pbLen := rfl
@[simp] theorem illegalOperation_fr (s : State) : (illegalOperation s).fr = s.fr := rfl
@[simp] theorem illegalOperation_ds (s : State) : (illegalOperation s).ds = s.ds := rfl
@[simp] theorem illegalOperation_setwpId (s : State) : (illegalOperation s).setwpId = s.setwpId := rfl
@[simp] theorem illegalOperation_err (s : State) : (illegalOperation s).err = .illegalOperation := rfl
@[simp] theorem illegalOperation_port (s : State) : (illegalOperation s).port = s.port := rfl
@[simp] theorem illegalOperation_reply (s : State) : (illegalOperation s).reply = some ⟨.illegalOperation, none⟩ := rfl

/-! ### `withFetchWord` -/

@[simp] theorem withFetchWord_csAcc (nbits w : Nat) (s : State) : (s.withFetchWord nbits w).csAcc = s.csAcc := rfl
@[simp] theorem withFetchWord_csMode (nbits w : Nat) (s : State) : (s.withFetchWord nbits w).csMode = s.csMode := rfl
@[simp] theorem withFetchWord_fb (nbits w : Nat) (s : State) : (s.withFetchWord nbits w).fb = s.fb := rfl
@[simp] theorem withFetchWord_fbLen (nbits w : Nat) (s : State) : (s.withFetchWord nbits w).fbLen = s.fbLen := rfl
@[simp] theorem withFetchWord_pb (nbits w : Nat) (s : State) : (s.withFetchWord nbits w).pb = s.pb := rfl
@[simp] theorem withFetchWord_pbLen (nbits w : Nat) (s : State) : (s.withFetchWord nbits w).pbLen = s.pbLen := rfl
@[simp] theorem withFetchWord_fr (nbits w : Nat) (s : State) : (s.withFetchWord nbits w).fr = s.fr := rfl
@[simp] theorem withFetchWord_ds (nbits w : Nat) (s : State) : (s.withFetchWord nbits w).ds = s.ds := rfl
@[simp] theorem withFetchWord_setwpId (nbits w : Nat) (s : State) : (s.withFetchWord nbits w).setwpId = s.setwpId := rfl
@[simp] theorem withFetchWord_err (nbits w : Nat) (s : State) : (s.withFetchWord nbits w).err = s.err := rfl
@[simp] theorem withFetchWord_port (nbits w : Nat) (s : State) : (s.withFetchWord nbits w).port = tablePacket nbits w :: s.port := rfl
@[simp] theorem withFetchWord_reply (nbits w : Nat) (s : State) : (s.withFetchWord nbits w).reply = s.reply := rfl

end Sys2Proof.Machine
end

