-- ==== Sys2Proof/Laws/Ops.lean ====
section
/-!
SUPPORT. One lemma for each shared operation that says once everything it can do.
-/

namespace Sys2Proof.Machine

/-! ### Buffers -/

/-- A state whose `FB` holds `bs` reads `bs` from it. -/
theorem fbBytes_of_ofBytes {s : State} {bs : List Byte} (hm : s.fb = Memory.ofBytes bs) (hl : s.fbLen.toNat = bs.length) :
    fbBytes s = some bs := by
  rw [fbBytes, hm, hl, Memory.readBytes_ofBytes]

/-- A state whose `PB` holds `p` reads `p` from it. -/
theorem pbBytes_of_ofBytes {s : State} {p : List Byte} (hm : s.pb = Memory.ofBytes p) (hl : s.pbLen.toNat = p.length) :
    pbBytes s = some p := by
  rw [pbBytes, hm, hl, Memory.readBytes_ofBytes]

theorem fbBytes_length {s : State} {bs : List Byte} (h : fbBytes s = some bs) : bs.length = s.fbLen.toNat :=
  Memory.readBytes_length h

theorem pbBytes_length {s : State} {p : List Byte} (h : pbBytes s = some p) : p.length = s.pbLen.toNat :=
  Memory.readBytes_length h

/-- What `buffersHeld` says of the two buffers. -/
theorem buffersHeld_iff (s : State) :
    s.buffersHeld = true ↔
      ∃ bs p : List Byte, bs.length = s.fbLen.toNat ∧ s.fb = Memory.ofBytes bs ∧
        p.length = s.pbLen.toNat ∧ s.pb = Memory.ofBytes p ∧ s.fbLen.toNat ≤ 65544 := by
  unfold State.buffersHeld
  rw [Bool.and_eq_true, Bool.and_eq_true, decide_eq_true_iff, denseTo_iff, denseTo_iff]
  constructor
  · rintro ⟨⟨⟨bs, h1, h2⟩, p, h3, h4⟩, h5⟩
    exact ⟨bs, p, h1, h2, h3, h4, h5⟩
  · rintro ⟨bs, p, h1, h2, h3, h4, h5⟩
    exact ⟨⟨⟨bs, h1, h2⟩, p, h3, h4⟩, h5⟩

theorem buffersHeld_fbBytes {s : State} (h : s.buffersHeld = true) :
    ∃ bs, fbBytes s = some bs ∧ s.fb = Memory.ofBytes bs ∧ bs.length = s.fbLen.toNat := by
  obtain ⟨bs, p, h1, h2, -⟩ := (buffersHeld_iff s).1 h
  exact ⟨bs, fbBytes_of_ofBytes h2 h1.symm, h2, h1⟩

theorem buffersHeld_pbBytes {s : State} (h : s.buffersHeld = true) :
    ∃ p, pbBytes s = some p ∧ s.pb = Memory.ofBytes p ∧ p.length = s.pbLen.toNat := by
  obtain ⟨bs, p, -, -, h3, h4, -⟩ := (buffersHeld_iff s).1 h
  exact ⟨p, pbBytes_of_ofBytes h4 h3.symm, h4, h3⟩

/-! ### Pushing and loading -/

/-- What `FB_PUSH` can do (R242). -/
theorem pushFrameByte_cases (b : Byte) (s : State) :
    (s.fbLen.toNat = 65544 ∧ pushFrameByte b s = finish .bufferFull s) ∨
    (s.fbLen.toNat ≠ 65544 ∧ pushFrameByte b s =
      { s with fb := Memory.write s.fb s.fbLen.toNat b, fbLen := s.fbLen + 1, fr := none, ds := .none, err := .ok,
               reply := some ⟨.ok, none⟩ }) := by
  unfold pushFrameByte
  by_cases h : s.fbLen.toNat = Config.fbSize
  · exact .inl ⟨h, if_pos h⟩
  · refine .inr ⟨h, ?_⟩
    rw [if_neg h, Memory.writeLE_one]
    rfl

/-- What `PB_PUSH` can do (R245). -/
theorem pushPayloadByte_cases (b : Byte) (s : State) :
    (s.pbLen.toNat = 65535 ∧ pushPayloadByte b s = finish .bufferFull s) ∨
    (s.pbLen.toNat ≠ 65535 ∧ pushPayloadByte b s =
      { s with pb := Memory.write s.pb s.pbLen.toNat b, pbLen := s.pbLen + 1, fr := none, ds := .none, err := .ok,
               reply := some ⟨.ok, none⟩ }) := by
  unfold pushPayloadByte
  by_cases h : s.pbLen.toNat = Config.pbSize
  · exact .inl ⟨h, if_pos h⟩
  · refine .inr ⟨h, ?_⟩
    rw [if_neg h, Memory.writeLE_one]
    rfl

/-- The state after `FB_LOAD` of bytes that fit the buffer. -/
def loaded (bs : List Byte) (s : State) : State :=
  { s with fb := Memory.ofBytes bs, fbLen := BitVec.ofNat 17 bs.length, fr := none, ds := .none, err := .ok,
           reply := some ⟨.ok, none⟩ }

theorem pushFrameByte_loaded (bs : List Byte) (b : Byte) (s : State) (h : bs.length < 65544) :
    pushFrameByte b (loaded bs s) = loaded (bs ++ [b]) s := by
  have hn : (BitVec.ofNat 17 bs.length).toNat = bs.length := by
    rw [BitVec.toNat_ofNat]
    omega
  rcases pushFrameByte_cases b (loaded bs s) with ⟨hf, -⟩ | ⟨-, he⟩
  · simp only [loaded, hn] at hf
    omega
  · rw [he]
    simp only [loaded, hn, Memory.write_ofBytes_end, List.length_append, List.length_singleton, State.mk.injEq, true_and,
      and_true]
    apply BitVec.eq_of_toNat_eq
    rw [BitVec.toNat_add, hn, BitVec.toNat_ofNat]
    rfl

theorem foldl_pushFrameByte_loaded (bs cs : List Byte) (s : State) (h : bs.length + cs.length ≤ 65544) :
    cs.foldl (fun t b => pushFrameByte b t) (loaded bs s) = loaded (bs ++ cs) s := by
  induction cs generalizing bs with
  | nil => simp
  | cons c cs ih =>
    simp only [List.length_cons] at h
    rw [List.foldl_cons, pushFrameByte_loaded bs c s (by omega), ih (bs ++ [c]) (by simp; omega)]
    simp

/-- `FB_LOAD` of bytes that fit leaves exactly them in `FB` (R107). -/
theorem loadFrameBytes_eq (bs : List Byte) (s : State) (h : bs.length ≤ 65544) : loadFrameBytes bs s = loaded bs s := by
  have h0 : clearFrameBuffer s = loaded [] s := rfl
  rw [loadFrameBytes, h0, foldl_pushFrameByte_loaded [] bs s (by simpa using h), List.nil_append]

theorem fbBytes_loaded (bs : List Byte) (s : State) (h : bs.length ≤ 65544) : fbBytes (loaded bs s) = some bs := by
  refine fbBytes_of_ofBytes rfl ?_
  change (BitVec.ofNat 17 bs.length).toNat = bs.length
  rw [BitVec.toNat_ofNat]
  omega

/-! ### DEC, UNPACK, RECV -/

/-- `DEC` in a state whose `FB` reads as `bs` (R165). -/
theorem decodeFrameBuffer_eq {s : State} {bs : List Byte} (h : fbBytes s = some bs) :
    decodeFrameBuffer s = .next (acceptDecoded (frameDecode bs) s) := by
  rw [decodeFrameBuffer, h]

/-- What a `decode` that succeeds says of the frame: its length fits `PB` and `FB` (R98, R171). -/
theorem frameDecode_ok {s : List Byte} {f : Frame} {n : Nat} (h : frameDecode s = .ok (f, n)) :
    splitFrame s = .ok (f, n) ∧
      checksum f.version (coveredBytes f.version f.payload.length s) = f.checksum := by
  unfold frameDecode at h
  split at h
  · cases h
  · rename_i f' n' hs
    split at h
    · cases h
    · rename_i hc
      cases h
      exact ⟨hs, by simpa using hc⟩

/-- The payload of a frame in range has a length that `PB_LEN` can hold. -/
theorem payload_length_of_inRange {f : Frame} (h : f.inRange = true) : f.payload.length ≤ 65535 := by
  cases hv : f.version with
  | v1 =>
    have := ((inRange_v1_iff hv).1 h).2.2
    omega
  | v2 => exact (inRange_v2_iff hv).1 h

/-- What `UNPACK` can do where it does not stop (R206). -/
theorem unpackFrame_cases {s t : State} (h : unpackFrame s = .next t) :
    (s.fr = none ∧ t = finish .noValidFrame { s with ds := .none }) ∨
    (∃ f p e, s.fr = some f ∧ pbBytes s = some p ∧ interpret s.setwpId f.func f.dir p = .error e ∧
      t = finish e { s with ds := .none }) ∨
    (∃ f p d, s.fr = some f ∧ pbBytes s = some p ∧ interpret s.setwpId f.func f.dir p = .ok d ∧
      t = finish .ok { s with ds := d }) := by
  unfold unpackFrame at h
  split at h
  · rename_i hf
    cases h
    exact .inl ⟨hf, rfl⟩
  · rename_i f hf
    split at h
    · cases h
    · rename_i p hp
      cases h
      cases hi : interpret s.setwpId f.func f.dir p with
      | error e => exact .inr (.inl ⟨f, p, e, hf, hp, hi, rfl⟩)
      | ok d => exact .inr (.inr ⟨f, p, d, hf, hp, hi, rfl⟩)

/-- What `DEC` can do where it does not stop (R165). -/
theorem decodeFrameBuffer_cases {s t : State} (h : decodeFrameBuffer s = .next t) :
    (∃ bs e, fbBytes s = some bs ∧ frameDecode bs = .error e ∧ t = finish (frameErrorOutcome e) (invalidate s)) ∨
    (∃ bs f n, fbBytes s = some bs ∧ frameDecode bs = .ok (f, n) ∧
      t = finish .ok { s with pb := Memory.ofBytes f.payload, pbLen := BitVec.ofNat 16 f.payload.length,
                              fr := some (frameRegsOf f n), ds := .none }) := by
  unfold decodeFrameBuffer at h
  split at h
  · cases h
  · rename_i bs hb
    cases h
    cases hd : frameDecode bs with
    | error e => exact .inl ⟨bs, e, hb, hd, rfl⟩
    | ok r =>
      obtain ⟨f, n⟩ := r
      exact .inr ⟨bs, f, n, hb, hd, rfl⟩

@[simp] theorem frameErrorOutcome_ne_ok (e : FrameError) : frameErrorOutcome e ≠ .ok := by cases e <;> decide

/-- The state after `DEC` accepted the frame `f` of `n` bytes at the front of the loaded bytes. -/
def accepted (bs : List Byte) (f : Frame) (n : Nat) (s : State) : State :=
  { s with fb := Memory.ofBytes bs, fbLen := BitVec.ofNat 17 bs.length, pb := Memory.ofBytes f.payload,
           pbLen := BitVec.ofNat 16 f.payload.length, fr := some (frameRegsOf f n), ds := .none, err := .ok,
           reply := some ⟨.ok, none⟩ }

/-- Everything `RECV` of bytes that fit the buffer does (R107, R252). -/
theorem receiveBytes_eq (bs : List Byte) (s : State) (h : bs.length ≤ 65544) :
    receiveBytes bs s = .next
      (match frameDecode bs with
       | .error e => rejected bs (frameErrorOutcome e) s
       | .ok (f, n) => acceptInterpreted (interpret s.setwpId f.func f.direction f.payload) (accepted bs f n s)) := by
  have hd := decodeFrameBuffer_eq (fbBytes_loaded bs s h)
  rw [receiveBytes, loadFrameBytes_eq bs s h, hd]
  cases hr : frameDecode bs with
  | error e =>
    have : (acceptDecoded (.error e) (loaded bs s)).err ≠ .ok := frameErrorOutcome_ne_ok e
    simp only
    rw [if_neg this]
    rfl
  | ok r =>
    obtain ⟨f, n⟩ := r
    have ha : acceptDecoded (.ok (f, n)) (loaded bs s) = accepted bs f n s := rfl
    have hp : pbBytes (accepted bs f n s) = some f.payload := by
      refine pbBytes_of_ofBytes rfl ?_
      change (BitVec.ofNat 16 f.payload.length).toNat = f.payload.length
      have := payload_length_of_inRange ((splitFrame_ok_iff bs f n).1 (frameDecode_ok hr).1).1
      rw [BitVec.toNat_ofNat]
      omega
    simp only [ha]
    rw [if_pos (show (accepted bs f n s).err = .ok from rfl), unpackFrame, hp]
    rfl

/-- A refused push, repeated, leaves what it left the first time (R242). -/
theorem foldl_pushFrameByte_full (bs : List Byte) (t : State) (h : t.fbLen.toNat = 65544) (hne : bs ≠ []) :
    bs.foldl (fun t b => pushFrameByte b t) t = finish .bufferFull t := by
  have full : ∀ (u : State) (b : Byte), u.fbLen.toNat = 65544 → pushFrameByte b u = finish .bufferFull u := fun u b hu => by
    rcases pushFrameByte_cases b u with ⟨-, e⟩ | ⟨hn, -⟩
    · exact e
    · exact absurd hu hn
  induction bs generalizing t with
  | nil => exact absurd rfl hne
  | cons b bs ih =>
    rw [List.foldl_cons, full t b h]
    by_cases e : bs = []
    · rw [e, List.foldl_nil]
    · rw [ih (finish .bufferFull t) h e]
      rfl

/-- Bytes beyond the capacity of `FB` have no effect on `RECV` (R107, R242). -/
theorem receiveBytes_take (bs : List Byte) (s : State) (h : 65544 < bs.length) :
    receiveBytes bs s = receiveBytes (bs.take 65544) s := by
  have hl : (bs.take 65544).length = 65544 := by
    rw [List.length_take]
    omega
  have hne : bs.drop 65544 ≠ [] := fun e => by
    have := congrArg List.length e
    simp only [List.length_drop, List.length_nil] at this
    omega
  have hload : loadFrameBytes bs s = finish .bufferFull (loaded (bs.take 65544) s) := by
    have hfull : (loaded (bs.take 65544) s).fbLen.toNat = 65544 := by
      change (BitVec.ofNat 17 (bs.take 65544).length).toNat = 65544
      rw [hl]
      rfl
    rw [← foldl_pushFrameByte_full (bs.drop 65544) _ hfull hne, ← loadFrameBytes_eq _ s (by omega), loadFrameBytes,
      loadFrameBytes, ← List.foldl_append, List.take_append_drop]
  have h1 := fbBytes_loaded (bs.take 65544) s (by omega)
  have h2 : fbBytes (finish .bufferFull (loaded (bs.take 65544) s)) = some (bs.take 65544) := h1
  rw [receiveBytes, receiveBytes, hload, loadFrameBytes_eq _ s (by omega), decodeFrameBuffer_eq h1, decodeFrameBuffer_eq h2]
  cases frameDecode (bs.take 65544) <;> rfl

/-! ### The registry -/

/-- What the registry can answer for a payload (R192). -/
theorem interpret_cases (id : Option U16) (func : U16) (dir : Direction) (p : List Byte) :
    (dir = .error ∧ interpret id func dir p = .ok .opaquePayload) ∨
    (dir ≠ .error ∧ ∃ e, cmdOf id func = .error e ∧ interpret id func dir p = .error e) ∨
    (dir ≠ .error ∧ ∃ c, cmdOf id func = .ok c ∧ dir ≠ schemaDir c ∧ interpret id func dir p = .ok .opaquePayload) ∨
    (∃ c, cmdOf id func = .ok c ∧ dir = schemaDir c ∧ p.length < schemaSize c ∧
      interpret id func dir p = .error .payloadLayoutError) ∨
    (∃ c, cmdOf id func = .ok c ∧ dir = schemaDir c ∧ schemaSize c ≤ p.length ∧
      interpret id func dir p = .ok (schemaDecode c p)) := by
  by_cases hd : dir = .error
  · exact .inl ⟨hd, by rw [interpret, if_pos hd]⟩
  · cases hc : cmdOf id func with
    | error e => exact .inr (.inl ⟨hd, e, rfl, by rw [interpret, if_neg hd, hc]⟩)
    | ok c =>
      by_cases hs : dir = schemaDir c
      · by_cases hl : p.length < schemaSize c
        · refine .inr (.inr (.inr (.inl ⟨c, rfl, hs, hl, ?_⟩)))
          rw [interpret, if_neg hd, hc]
          simp only [hs, ne_eq, not_true_eq_false, if_false, hl, if_true]
        · refine .inr (.inr (.inr (.inr ⟨c, rfl, hs, by omega, ?_⟩)))
          rw [interpret, if_neg hd, hc]
          simp only [hs, ne_eq, not_true_eq_false, if_false, hl]
      · refine .inr (.inr (.inl ⟨hd, c, rfl, hs, ?_⟩))
        rw [interpret, if_neg hd, hc]
        simp only [ne_eq, hs, not_false_eq_true, if_true]

/-- The registry never answers "nothing decoded" (R192). -/
theorem interpret_ne_none {id : Option U16} {func : U16} {dir : Direction} {p : List Byte} {d : Decoded}
    (h : interpret id func dir p = .ok d) : d ≠ .none := by
  rcases interpret_cases id func dir p with ⟨-, e⟩ | ⟨-, x, -, e⟩ | ⟨-, x, -, -, e⟩ | ⟨x, -, -, -, e⟩ | ⟨c, -, -, -, e⟩
  all_goals rw [e] at h; cases h
  · exact Decoded.noConfusion
  · exact Decoded.noConfusion
  · cases c <;> exact Decoded.noConfusion

/-- The registry's lookup of an id that is none of the three fixed ones (R191). -/
theorem cmdOf_free (o : Option U16) (f : U16) (h : isFixedId f = false) :
    cmdOf o f = (match o with
      | none => .error .configUnset
      | some id => if f = id then .ok .setWp else .error .unexpectedFunction) := by
  simp only [isFixedId, Bool.or_eq_false_iff, beq_eq_false_iff_ne] at h
  cases o <;> rw [cmdOf.eq_def, if_neg h.1.1, if_neg h.1.2, if_neg h.2]

/-- Everything the reception of a frame in range does: its checksum byte decides, then the registry (R165, R206). -/
theorem receiveFrame_eq (f : Frame) (s : State) (h : f.inRange = true) :
    receiveFrame f s = .next
      (if frameChecksum f = f.checksum then
        match interpret s.setwpId f.func f.direction f.payload with
        | .ok d => received f d s
        | .error o => receivedRefused f o s
      else rejected (frameBytes f) .checksumMismatch s) := by
  have hl := payload_length_of_inRange h
  have hh : hdr f.version ≤ 8 := by cases f.version <;> decide
  have hlen : (frameBytes f).length ≤ 65544 := by
    simp only [frameBytes_length, frameSize]
    omega
  have hd := frameDecode_frameBytes f [] h
  rw [List.append_nil] at hd
  rw [receiveFrame, receiveBytes_eq _ _ hlen, hd]
  by_cases hc : frameChecksum f = f.checksum
  · simp only [hc, if_true]
    cases interpret s.setwpId f.func f.direction f.payload <;>
      simp [acceptInterpreted, receivedRefused, received, accepted, finish, frameRegsOf]
  · simp only [hc, if_false]
    rfl

/-! ### Reads -/

/-- `RD` delivers a value or a failing outcome and changes nothing else (R66, R247). -/
theorem execRd_cases (s : State) (reg : Byte) :
    (∃ v, readRegister s reg = .ok v ∧ exec (.rd reg) s = .next (deliver v s)) ∨
    (∃ o, readRegister s reg = .error o ∧ exec (.rd reg) s = .next (failRead o s)) := by
  cases h : readRegister s reg with
  | ok v => exact .inl ⟨v, rfl, by simp only [exec, execRd, h]⟩
  | error o => exact .inr ⟨o, rfl, by simp only [exec, execRd, h]⟩

end Sys2Proof.Machine
end

