-- ==== Sys2Proof/Laws/PerInstr.lean ====
section
/-!
SUPPORT. Statements for all instructions, made instruction by instruction.
-/

namespace Sys2Proof.Laws.FrameInRange

open Sys2Proof.Machine

/-- R98, R160: the frame of a well-formed wire instruction has its fields in range for its format. -/
def Statement (i : Instr) : Prop := i.WellFormed → ∀ f, i.frame? = some f → f.inRange = true

theorem func_fits (func : Byte) : (func.setWidth 16 : U16).toNat ≤ 255 := by
  have := func.isLt
  rw [BitVec.toNat_setWidth]
  omega

theorem of_v1 {f : Frame} (hv : f.version = .v1) (hg : f.flag = 0) (hf : f.func.toNat ≤ 255)
    (hp : fitsV1 f.payload = true) : f.inRange = true :=
  (inRange_v1_iff hv).2 ⟨hg, hf, (fitsV1_iff _).1 hp⟩

theorem of_v2 {f : Frame} (hv : f.version = .v2) (hp : fitsV2 f.payload = true) : f.inRange = true :=
  (inRange_v2_iff hv).2 ((fitsV2_iff _).1 hp)

theorem of_none {i : Instr} (h : i.frame? = none) : Statement i := fun _ f hf => by
  rw [h] at hf
  cases hf

theorem errorV1 (func : Byte) (payload : List Byte) (ck : Byte) : Statement (.errorV1 func payload ck) := by
  intro hw f hf
  cases hf
  exact of_v1 rfl rfl (func_fits func) hw

theorem errorV2 (flag : Byte) (func : U16) (payload : List Byte) (ck : Byte) : Statement (.errorV2 flag func payload ck) := by
  intro hw f hf
  cases hf
  exact of_v2 rfl hw

theorem eepromWriteV1 (payload : List Byte) (ck : Byte) : Statement (.eepromWriteV1 payload ck) := by
  intro hw f hf
  cases hf
  exact of_v1 rfl rfl (Nat.le_of_ble_eq_true rfl) hw

theorem rawImuReqV1 (payload : List Byte) (ck : Byte) : Statement (.rawImuReqV1 payload ck) := by
  intro hw f hf
  cases hf
  exact of_v1 rfl rfl (Nat.le_of_ble_eq_true rfl) hw

theorem rcReqV1 (payload : List Byte) (ck : Byte) : Statement (.rcReqV1 payload ck) := by
  intro hw f hf
  cases hf
  exact of_v1 rfl rfl (Nat.le_of_ble_eq_true rfl) hw

theorem rawImuV1 (payload : List Byte) (ck : Byte) : Statement (.rawImuV1 payload ck) := by
  intro hw f hf
  cases hf
  exact of_v1 rfl rfl (Nat.le_of_ble_eq_true rfl) hw

theorem rcV1 (payload : List Byte) (ck : Byte) : Statement (.rcV1 payload ck) := by
  intro hw f hf
  cases hf
  exact of_v1 rfl rfl (Nat.le_of_ble_eq_true rfl) hw

theorem eepromWriteAckV1 (payload : List Byte) (ck : Byte) : Statement (.eepromWriteAckV1 payload ck) := by
  intro hw f hf
  cases hf
  exact of_v1 rfl rfl (Nat.le_of_ble_eq_true rfl) hw

theorem eepromWriteV2 (flag : Byte) (payload : List Byte) (ck : Byte) : Statement (.eepromWriteV2 flag payload ck) := by
  intro hw f hf
  cases hf
  exact of_v2 rfl hw

theorem rawImuReqV2 (flag : Byte) (payload : List Byte) (ck : Byte) : Statement (.rawImuReqV2 flag payload ck) := by
  intro hw f hf
  cases hf
  exact of_v2 rfl hw

theorem rcReqV2 (flag : Byte) (payload : List Byte) (ck : Byte) : Statement (.rcReqV2 flag payload ck) := by
  intro hw f hf
  cases hf
  exact of_v2 rfl hw

theorem rawImuV2 (flag : Byte) (payload : List Byte) (ck : Byte) : Statement (.rawImuV2 flag payload ck) := by
  intro hw f hf
  cases hf
  exact of_v2 rfl hw

theorem rcV2 (flag : Byte) (payload : List Byte) (ck : Byte) : Statement (.rcV2 flag payload ck) := by
  intro hw f hf
  cases hf
  exact of_v2 rfl hw

theorem eepromWriteAckV2 (flag : Byte) (payload : List Byte) (ck : Byte) : Statement (.eepromWriteAckV2 flag payload ck) := by
  intro hw f hf
  cases hf
  exact of_v2 rfl hw

theorem setWpV1 (func : Byte) (payload : List Byte) (ck : Byte) : Statement (.setWpV1 func payload ck) := by
  intro hw f hf
  cases hf
  exact of_v1 rfl rfl (func_fits func) (Bool.and_eq_true_iff.1 hw).1

theorem setWpAckV1 (func : Byte) (payload : List Byte) (ck : Byte) : Statement (.setWpAckV1 func payload ck) := by
  intro hw f hf
  cases hf
  exact of_v1 rfl rfl (func_fits func) (Bool.and_eq_true_iff.1 hw).1

theorem setWpV2 (flag : Byte) (func : U16) (payload : List Byte) (ck : Byte) : Statement (.setWpV2 flag func payload ck) := by
  intro hw f hf
  cases hf
  exact of_v2 rfl (Bool.and_eq_true_iff.1 hw).1

theorem setWpAckV2 (flag : Byte) (func : U16) (payload : List Byte) (ck : Byte) : Statement (.setWpAckV2 flag func payload ck) := by
  intro hw f hf
  cases hf
  exact of_v2 rfl (Bool.and_eq_true_iff.1 hw).1

theorem csInit (mode : Version) : Statement (.csInit mode) := of_none rfl

theorem csUpd (b : Byte) : Statement (.csUpd b) := of_none rfl

theorem csRd : Statement .csRd := of_none rfl

theorem csCmp (b : Byte) : Statement (.csCmp b) := of_none rfl

theorem enc (ver : Version) (dir : BitVec 2) (func : U16) : Statement (.enc ver dir func) := of_none rfl

theorem dec : Statement .dec := of_none rfl

theorem packSetWp (w : Waypoint) : Statement (.packSetWp w) := of_none rfl

theorem packEepromWrite : Statement .packEepromWrite := of_none rfl

theorem packRawImu (m : ImuSample) : Statement (.packRawImu m) := of_none rfl

theorem packRc (c : RcSample) : Statement (.packRc c) := of_none rfl

theorem unpack : Statement .unpack := of_none rfl

theorem fbClr : Statement .fbClr := of_none rfl

theorem fbPush (b : Byte) : Statement (.fbPush b) := of_none rfl

theorem fbRd (i : U17) : Statement (.fbRd i) := of_none rfl

theorem pbClr : Statement .pbClr := of_none rfl

theorem pbPush (b : Byte) : Statement (.pbPush b) := of_none rfl

theorem pbRd (i : U16) : Statement (.pbRd i) := of_none rfl

theorem rd (reg : Byte) : Statement (.rd reg) := of_none rfl

theorem cfgSetwpId (v : U16) : Statement (.cfgSetwpId v) := of_none rfl

theorem reset : Statement .reset := of_none rfl

end Sys2Proof.Laws.FrameInRange
end

