-- ==== Sys2Proof/Laws/Step.lean ====
section
/-!
SUPPORT. What a step does with received bytes, and what the instruction of a frame is.
-/

namespace Sys2Proof.Machine

/-- Every wire instruction receives its frame (log 4). -/
theorem exec_of_frame {i : Instr} {f : Frame} (h : i.frame? = some f) (s : State) : exec i s = receiveFrame f s := by
  cases i <;> cases h <;> rfl

/-- The instruction that a frame in range selects stands for exactly that frame (R99, R108). -/
theorem selectInstr_frame (f : Frame) (h : f.inRange = true) : (selectInstr f).frame? = some f := by
  obtain ⟨v, d, g, func, p, c⟩ := f
  cases v with
  | v1 =>
    obtain ⟨rfl, hf, -⟩ := (inRange_v1_iff rfl).1 h
    have hw : (func.setWidth 8).setWidth 16 = func := by
      apply BitVec.eq_of_toNat_eq
      simp only [BitVec.toNat_setWidth] at hf ⊢
      omega
    cases d <;> simp only [selectInstr] <;> (repeat' split) <;> simp_all [Instr.frame?]
  | v2 => cases d <;> simp only [selectInstr] <;> (repeat' split) <;> simp_all [Instr.frame?]

/-- A step with received bytes at the port runs `RECV` on them, whether they are exactly one frame or not (logs 4 and 5). -/
theorem step_frame {s : State} {bs : List Byte} {rest : List Packet} (h : s.port = .frame bs :: rest) :
    step s = receiveBytes bs { s with port := rest } := by
  simp only [step, fetch, h, decode, decodeFramePacket]
  cases hs : splitFrame bs with
  | error e => rfl
  | ok r =>
    obtain ⟨f, n⟩ := r
    obtain ⟨hr, hn, tail, hb⟩ := (splitFrame_ok_iff bs f n).1 hs
    by_cases hl : bs.length = n
    · have ht : tail = [] := by
        have := congrArg List.length hb
        simp only [List.length_append, frameBytes_length] at this
        exact List.eq_nil_of_length_eq_zero (by omega)
      rw [ht, List.append_nil] at hb
      simp only [hl, if_true]
      rw [exec_of_frame (selectInstr_frame f hr), receiveFrame, hb]
    · simp only [hl, if_false]
      rfl

end Sys2Proof.Machine
end

