-- ==== Sys2Proof/Machine/Assembler.lean ====
section
/-!
DEFINITION. The text forms of 30_encoding.md: a host operation in text (R105) and a frame in text (R106). Notation only (D28); no
operation reads it.
-/

namespace Sys2Proof.Machine

/-- A digit, or a capital hexadecimal digit. -/
def digitChar (n : Nat) : Char := if n < 10 then Char.ofNat (48 + n) else Char.ofNat (55 + n)

/-- A byte as two hexadecimal digits (R106). -/
def hexByte (b : Byte) : String := String.ofList [digitChar (b.toNat / 16), digitChar (b.toNat % 16)]

/-- Decimal digits of a number below `10 ^ fuel`. -/
def decimalDigits : Nat → Nat → List Char
  | 0, _ => []
  | fuel + 1, n => if n < 10 then [digitChar n] else decimalDigits fuel (n / 10) ++ [digitChar (n % 10)]

/-- A decimal numeral (R105); every operand has at most ten digits. -/
def decimal (n : Nat) : String := String.ofList (decimalDigits 10 n)

/-- A signed operand: negative values with a leading minus sign (R105). -/
def signedDecimal (x : Int) : String := if x < 0 then "-" ++ decimal x.natAbs else decimal x.natAbs

/-- `ver` and `mode` operands (R105). -/
def verText : Version → String
  | .v1 => "V1"
  | .v2 => "V2"

/-- `dir` operands (R105); 3 has no name and is written as its numeral. -/
def dirText (d : BitVec 2) : String :=
  if d = 0 then "REQ" else if d = 1 then "RSP" else if d = 2 then "ERRDIR" else "3"

/-- The registers of R37 by number, with the names of R37. -/
def registerNames : List (Nat × String) :=
  [(0x00, "ERR"), (0x01, "CS_ACC"), (0x02, "CS_MODE"), (0x03, "FB_LEN"), (0x04, "PB_LEN"), (0x05, "SETWP_ID_SET"),
   (0x06, "SETWP_ID"), (0x10, "FR_VALID"), (0x11, "FR_VER"), (0x12, "FR_DIR"), (0x13, "FR_FLAG"), (0x14, "FR_FUNC"),
   (0x15, "FR_CK"), (0x16, "FR_SIZE"), (0x20, "DS_KIND"), (0x21, "WP_INDEX"), (0x22, "WP_ACTION"), (0x23, "WP_LAT"),
   (0x24, "WP_LON"), (0x25, "WP_ALT"), (0x26, "WP_P1"), (0x27, "WP_P2"), (0x28, "WP_P3"), (0x29, "WP_FLAGS"),
   (0x30, "IMU_AX"), (0x31, "IMU_AY"), (0x32, "IMU_AZ"), (0x33, "IMU_GX"), (0x34, "IMU_GY"), (0x35, "IMU_GZ")]

/-- A register number by the register's name (R105), `RC_CH[i]` for 0x40 + i; an undefined number as a numeral. -/
def registerText (r : Byte) : String :=
  match registerNames.find? (fun e => e.1 == r.toNat) with
  | some e => e.2
  | none =>
    if 0x40 ≤ r.toNat ∧ r.toNat < 0x40 + Config.rcChannels then "RC_CH[" ++ decimal (r.toNat - 0x40) ++ "]"
    else decimal r.toNat

/-- Operands separated by a comma and a space, behind the mnemonic (R105). -/
def operationLine (mnemonic : String) (operands : List String) : String :=
  match operands with
  | [] => mnemonic
  | _ :: _ => mnemonic ++ " " ++ String.intercalate ", " operands

/-- The bytes of a frame in wire order (R106). -/
def frameText (bs : List Byte) : String := String.intercalate " " (bs.map hexByte)

/-- The text of an instruction: a host operation as R105 writes it, a wire instruction as its frame (R106). -/
def instrText (i : Instr) : String :=
  match i with
  | .csInit m => operationLine i.mnemonic [verText m]
  | .csUpd b => operationLine i.mnemonic [decimal b.toNat]
  | .csCmp b => operationLine i.mnemonic [decimal b.toNat]
  | .enc v d f => operationLine i.mnemonic [verText v, dirText d, decimal f.toNat]
  | .packSetWp w =>
    operationLine i.mnemonic
      [decimal w.index.toNat, decimal w.action.toNat, signedDecimal (sext w.lat), signedDecimal (sext w.lon),
       signedDecimal (sext w.alt), signedDecimal (sext w.p1), signedDecimal (sext w.p2), signedDecimal (sext w.p3),
       decimal w.flags.toNat]
  | .packRawImu m => operationLine i.mnemonic ([m.ax, m.ay, m.az, m.gx, m.gy, m.gz].map fun v => signedDecimal (sext v))
  | .packRc c => operationLine i.mnemonic ((rcChannels c).map fun v => signedDecimal (sext v))
  | .fbPush b => operationLine i.mnemonic [decimal b.toNat]
  | .fbRd k => operationLine i.mnemonic [decimal k.toNat]
  | .pbPush b => operationLine i.mnemonic [decimal b.toNat]
  | .pbRd k => operationLine i.mnemonic [decimal k.toNat]
  | .rd r => operationLine i.mnemonic [registerText r]
  | .cfgSetwpId v => operationLine i.mnemonic [decimal v.toNat]
  | .csRd | .dec | .packEepromWrite | .unpack | .fbClr | .pbClr | .reset => operationLine i.mnemonic []
  | .errorV1 _ _ _ | .errorV2 _ _ _ _ | .eepromWriteV1 _ _ | .rawImuReqV1 _ _ | .rcReqV1 _ _ | .rawImuV1 _ _
  | .rcV1 _ _ | .eepromWriteAckV1 _ _ | .eepromWriteV2 _ _ _ | .rawImuReqV2 _ _ _ | .rcReqV2 _ _ _ | .rawImuV2 _ _ _
  | .rcV2 _ _ _ | .eepromWriteAckV2 _ _ _ | .setWpV1 _ _ _ | .setWpAckV1 _ _ _ | .setWpV2 _ _ _ _
  | .setWpAckV2 _ _ _ _ =>
    match i.frame? with
    | some f => frameText (frameBytes f)
    | none => i.mnemonic

end Sys2Proof.Machine
end

