-- ==== Sys2Proof/Tests/Slice0.lean ====
section
/-!
SUPPORT. Our own tests: the refusals of `WellFormed`, the decoding of one word for every constructor, small steps with results from the spec's
test vectors (95_test_vectors.md), and for every statement with hypotheses a state and operands that meet them.
-/

namespace Sys2Proof.Tests

set_option Elab.async false

open Sys2Proof Sys2Proof.Machine

/-! ### Frames of 95_test_vectors.md, sections 1.3, 1.7 and 2.3 -/

def imuPayload : List Byte := [0x00, 0x02, 0x00, 0x00, 0x00, 0xFE, 0x04, 0x00, 0x00, 0x00, 0xFC, 0xFF]
def imuV1 : Frame := ⟨.v1, .response, 0x00, 102, imuPayload, 0x91⟩
def imuV2 : Frame := ⟨.v2, .response, 0x00, 102, imuPayload, 0x10⟩
def imuSample : ImuSample := ⟨512, 0, 0xFE00, 4, 0, 0xFFFC⟩

def wpPayload : List Byte :=
  [0x01, 0x01, 0x68, 0xA3, 0x3F, 0x19, 0xB8, 0x45, 0xA5, 0xD5, 0xD0, 0x07, 0x00, 0x00, 0x00, 0x00, 0x00, 0x00, 0x00, 0x00, 0xA5]
def wpV1 : Frame := ⟨.v1, .request, 0x00, 209, wpPayload, 0xD6⟩
def wpV2 : Frame := ⟨.v2, .request, 0x00, 209, wpPayload, 0xF2⟩
def waypoint : Waypoint := ⟨1, 1, encInt 32 423601000, encInt 32 (-710589000), 2000, 0, 0, 0, 0xA5⟩

def rcPayload : List Byte :=
  [0xDC, 0x05, 0xDC, 0x05, 0xDC, 0x05, 0xE8, 0x03] ++ (List.replicate 13 [0xDC, 0x05]).flatten
def rcV2 : Frame := ⟨.v2, .response, 0x00, 105, rcPayload, 0x72⟩
def rcSample : RcSample :=
  ⟨1500, 1500, 1500, 1000, 1500, 1500, 1500, 1500, 1500, 1500, 1500, 1500, 1500, 1500, 1500, 1500, 1500⟩

def reqV1 : Frame := ⟨.v1, .request, 0x00, 102, [], 0x66⟩
def errV1 : Frame := ⟨.v1, .error, 0x00, 102, [0x07], 0x60⟩

/-- The state after `DEC` of a frame from reset, with `SETWP_ID` as given. -/
def holding (id : Option U16) (f : Frame) : State := received f .none { State.reset with setwpId := id }

/-- The reset state with these bytes in `FB`. -/
def loadedFB (bs : List Byte) : State := { State.reset with fb := Memory.ofBytes bs, fbLen := BitVec.ofNat 17 bs.length }

/-- The outcome and value that `exec` delivers. -/
def delivers (r : Result) : Option Reply :=
  match r with
  | .next t => t.reply
  | .fault _ | .refused _ => none

/-- One field of the next state. -/
def after {α : Type} (r : Result) (pick : State → α) : Option α :=
  match r with
  | .next t => some (pick t)
  | .fault _ | .refused _ => none

/-! ### WellFormed refuses what is no instruction -/

theorem test_wf_v1_payload_255 : (Instr.rcV1 (List.replicate 255 0) 0x00).wf = true := by decide +kernel
theorem test_wf_v1_payload_256_refused : (Instr.rcV1 (List.replicate 256 0) 0x00).wf = false := by decide +kernel
theorem test_wf_v2_payload_65536_refused (p : List Byte) (h : p.length = 65536) : (Instr.rcV2 0x00 p 0x00).wf = false := by
  simp [Instr.wf, fitsV2, h, Config.v2MaxPayload]
theorem test_wf_setWpV1_of_fixed_id_refused : (Instr.setWpV1 250 [] 0x00).wf = false := by decide
theorem test_wf_setWpAckV2_of_fixed_id_refused : (Instr.setWpAckV2 0x00 102 [] 0x00).wf = false := by decide
theorem test_wf_setWpV2_of_fixed_id_refused : (Instr.setWpV2 0x00 105 [] 0x00).wf = false := by decide

/-! ### One word for every constructor: frames as 95_test_vectors.md prints them, operation numbers of R102 -/

theorem test_decode_errorV1 : decode (.frame [0x24, 0x4D, 0x21, 0x01, 0x66, 0x07, 0x60]) = .ok (.errorV1 0x66 [0x07] 0x60) := by
  decide
theorem test_decode_errorV2 :
    decode (.frame [0x24, 0x58, 0x21, 0x00, 0xD2, 0x04, 0x01, 0x00, 0x01, 0xA7]) = .ok (.errorV2 0x00 1234 [0x01] 0xA7) := by decide
theorem test_decode_eepromWriteV1 : decode (.frame [0x24, 0x4D, 0x3C, 0x00, 0xFA, 0xFA]) = .ok (.eepromWriteV1 [] 0xFA) := by
  decide
theorem test_decode_rawImuReqV1 : decode (.frame [0x24, 0x4D, 0x3C, 0x00, 0x66, 0x66]) = .ok (.rawImuReqV1 [] 0x66) := by decide
theorem test_decode_rcReqV1 : decode (.frame [0x24, 0x4D, 0x3C, 0x00, 0x69, 0x69]) = .ok (.rcReqV1 [] 0x69) := by decide
theorem test_decode_rawImuV1 :
    decode (.frame [0x24, 0x4D, 0x3E, 0x0C, 0x66, 0x00, 0x02, 0x00, 0x00, 0x00, 0xFE, 0x04, 0x00, 0x00, 0x00, 0xFC, 0xFF, 0x91])
      = .ok (.rawImuV1 imuPayload 0x91) := by decide
theorem test_decode_rcV1 : decode (.frame [0x24, 0x4D, 0x3E, 0x02, 0x69, 0x01, 0x02, 0x68]) = .ok (.rcV1 [0x01, 0x02] 0x68) := by
  decide
theorem test_decode_eepromWriteAckV1 :
    decode (.frame [0x24, 0x4D, 0x3E, 0x00, 0xFA, 0xFA]) = .ok (.eepromWriteAckV1 [] 0xFA) := by decide
theorem test_decode_eepromWriteV2 :
    decode (.frame [0x24, 0x58, 0x3C, 0x00, 0xFA, 0x00, 0x00, 0x00, 0x66]) = .ok (.eepromWriteV2 0x00 [] 0x66) := by decide
theorem test_decode_rawImuReqV2 :
    decode (.frame [0x24, 0x58, 0x3C, 0x01, 0x66, 0x00, 0x00, 0x00, 0xB3]) = .ok (.rawImuReqV2 0x01 [] 0xB3) := by decide
theorem test_decode_rcReqV2 :
    decode (.frame [0x24, 0x58, 0x3C, 0x00, 0x69, 0x00, 0x00, 0x00, 0x5C]) = .ok (.rcReqV2 0x00 [] 0x5C) := by decide
theorem test_decode_rawImuV2 :
    decode (.frame [0x24, 0x58, 0x3E, 0x01, 0x66, 0x00, 0x0C, 0x00, 0x00, 0x02, 0x00, 0x00, 0x00, 0xFE, 0x04, 0x00, 0x00, 0x00,
      0xFC, 0xFF, 0x8B]) = .ok (.rawImuV2 0x01 imuPayload 0x8B) := by decide
theorem test_decode_rcV2 :
    decode (.frame ([0x24, 0x58, 0x3E, 0x00, 0x69, 0x00, 0x22, 0x00] ++ rcPayload ++ [0x72])) = .ok (.rcV2 0x00 rcPayload 0x72) := by
  decide +kernel
theorem test_decode_eepromWriteAckV2 :
    decode (.frame [0x24, 0x58, 0x3E, 0x00, 0xFA, 0x00, 0x00, 0x00, 0x66]) = .ok (.eepromWriteAckV2 0x00 [] 0x66) := by decide
theorem test_decode_setWpV1 :
    decode (.frame ([0x24, 0x4D, 0x3C, 0x15, 0xD1] ++ wpPayload ++ [0xD6])) = .ok (.setWpV1 209 wpPayload 0xD6) := by decide +kernel
theorem test_decode_setWpAckV1 : decode (.frame [0x24, 0x4D, 0x3E, 0x00, 0xD6, 0xD6]) = .ok (.setWpAckV1 214 [] 0xD6) := by decide
theorem test_decode_setWpV2 :
    decode (.frame ([0x24, 0x58, 0x3C, 0x00, 0x34, 0x12, 0x15, 0x00] ++ wpPayload ++ [0x47]))
      = .ok (.setWpV2 0x00 0x1234 wpPayload 0x47) := by decide +kernel
theorem test_decode_setWpAckV2 :
    decode (.frame [0x24, 0x58, 0x3E, 0x00, 0xD1, 0x00, 0x00, 0x00, 0x77]) = .ok (.setWpAckV2 0x00 209 [] 0x77) := by decide
theorem test_decode_csInit : decode (.operation [0x01, 0x01]) = .ok (.csInit .v2) := by decide
theorem test_decode_csUpd : decode (.operation [0x02, 0x66]) = .ok (.csUpd 0x66) := by decide
theorem test_decode_csRd : decode (.operation [0x03]) = .ok .csRd := by decide
theorem test_decode_csCmp : decode (.operation [0x04, 0x3F]) = .ok (.csCmp 0x3F) := by decide
theorem test_decode_enc : decode (.operation [0x10, 0x01, 0x02, 0x34, 0x12]) = .ok (.enc .v2 2 0x1234) := by decide
theorem test_decode_dec : decode (.operation [0x11]) = .ok .dec := by decide
theorem test_decode_packSetWp : decode (.operation (0x20 :: wpPayload)) = .ok (.packSetWp waypoint) := by decide +kernel
theorem test_decode_packEepromWrite : decode (.operation [0x21]) = .ok .packEepromWrite := by decide
theorem test_decode_packRawImu : decode (.operation (0x22 :: imuPayload)) = .ok (.packRawImu imuSample) := by decide +kernel
theorem test_decode_packRc : decode (.operation (0x23 :: rcPayload)) = .ok (.packRc rcSample) := by decide +kernel
theorem test_decode_unpack : decode (.operation [0x2F]) = .ok .unpack := by decide
theorem test_decode_fbClr : decode (.operation [0x30]) = .ok .fbClr := by decide
theorem test_decode_fbPush : decode (.operation [0x31, 0x24]) = .ok (.fbPush 0x24) := by decide
theorem test_decode_fbRd : decode (.operation [0x32, 0x07, 0x00, 0x01]) = .ok (.fbRd 65543) := by decide
theorem test_decode_pbClr : decode (.operation [0x34]) = .ok .pbClr := by decide
theorem test_decode_pbPush : decode (.operation [0x35, 0xFF]) = .ok (.pbPush 0xFF) := by decide
theorem test_decode_pbRd : decode (.operation [0x36, 0xFE, 0xFF]) = .ok (.pbRd 65534) := by decide
theorem test_decode_rd : decode (.operation [0x40, 0x14]) = .ok (.rd 0x14) := by decide
theorem test_decode_cfgSetwpId : decode (.operation [0x41, 0xD1, 0x00]) = .ok (.cfgSetwpId 209) := by decide
theorem test_decode_reset : decode (.operation [0x7F]) = .ok .reset := by decide

theorem test_decode_undefined_number : decode (.operation [0x33]) = .error .illegalOperation := by decide
theorem test_decode_direction_4_refused : decode (.operation [0x10, 0x00, 0x04, 0x66, 0x00]) = .error .badCommandWord := by decide
theorem test_decode_stray_byte_in_front :
    decode (.frame [0x00, 0x24, 0x4D, 0x3E, 0x0C, 0x66]) = .error (.notAFrame .malformedHeader) := by decide
theorem test_decodeTableWord_operation : decodeTableWord 8 0x2F = some .unpack := by decide
theorem test_decodeTableWord_frame : decodeTableWord 40 0x6600_3C4D24 = some (.rawImuReqV1 [] 0x00) := by decide
theorem test_text_form : instrText (.enc .v2 0 209) = "ENC V2, REQ, 209" := by decide +kernel

/-! ### Checksums (95_test_vectors.md, 1.2 and 2.1) -/

theorem test_crc8_printed_bytes : crc8 [0x00, 0x66, 0x00, 0x06, 0x00] = 0x3F := by decide +kernel
theorem test_crc8_annotated_bytes : crc8 [0x00, 0x66, 0x00, 0x00, 0x00] = 0x05 := by decide +kernel
theorem test_crc8_check_value : crc8 [0x31, 0x32, 0x33, 0x34, 0x35, 0x36, 0x37, 0x38, 0x39] = 0xBC := by decide +kernel
theorem test_xor8_imu : xor8 ([0x0C, 0x66] ++ imuPayload) = 0x91 := by decide +kernel
theorem test_csInit_clears : after (exec (.csInit .v1) { State.reset with csAcc := 0xA5, csMode := .v2 }) (·.csAcc) = some 0x00 := by
  decide
theorem test_csUpd_crc : after (exec (.csUpd 0x66) { State.reset with csMode := .v2 }) (·.csAcc) = some 0xB8 := by decide +kernel
theorem test_csUpd_xor : after (exec (.csUpd 0x66) { State.reset with csAcc := 0x66 }) (·.csAcc) = some 0x00 := by decide
theorem test_csCmp_mismatch_leaves_acc :
    after (exec (.csCmp 0x01) State.reset) (fun t => (t.csAcc, t.err)) = some (0x00, .checksumMismatch) := by decide
theorem test_csRd : delivers (exec .csRd { State.reset with csAcc := 0x91 }) = some ⟨.ok, some (.u8 0x91)⟩ := by decide

/-! ### Frames (2.3, 2.4) -/

theorem test_enc_v2_func_little_endian :
    frameEncode .v2 .request 1000 [] = [0x24, 0x58, 0x3C, 0x00, 0xE8, 0x03, 0x00, 0x00, 0x12] := by decide +kernel
theorem test_enc_setwp_v2 :
    frameEncode .v2 .request 209 wpPayload = [0x24, 0x58, 0x3C, 0x00, 0xD1, 0x00, 0x15, 0x00] ++ wpPayload ++ [0xF2] := by
  decide +kernel
theorem test_enc_rc_v1 : (frameEncode .v1 .response 105 rcPayload).getLast? = some 0xA0 := by decide +kernel
theorem test_enc_direction_3 : after (exec (.enc .v2 3 102) State.reset) (fun t => (t.err, t.fb)) = some (.fieldRange, []) := by decide
theorem test_dec_fr_size :
    after (exec .dec (loadedFB [0x24, 0x4D, 0x3C, 0x00, 0x66, 0x66, 0x24])) (fun t => t.fr.map (·.size)) = some (some 6) := by
  decide +kernel
theorem test_dec_empty : after (exec .dec State.reset) (·.err) = some .malformedHeader := by decide

/-! ### Payloads (1.3, 1.7, 2.3, 2.6) and reception -/

theorem test_packSetWp : packSetwp waypoint = wpPayload := by decide +kernel
theorem test_packRawImu : packRawimu imuSample = imuPayload := by decide +kernel
theorem test_packRc : packRcSample rcSample = rcPayload := by decide +kernel
theorem test_packEepromWrite : after (exec .packEepromWrite (holding none imuV1)) (fun t => (t.pbLen, t.fr)) = some (0, none) := by
  decide +kernel
theorem test_unpack_imu : after (exec .unpack (holding none imuV1)) (·.ds) = some (.rawImu imuSample) := by decide +kernel
theorem test_unpack_setwp_wrong_id : after (exec .unpack (holding (some 214) wpV2)) (·.err) = some .unexpectedFunction := by
  decide +kernel
theorem test_receive_rawImuV1 : after (exec (.rawImuV1 imuPayload 0x91) State.reset) (·.ds) = some (.rawImu imuSample) := by
  decide +kernel
theorem test_receive_rawImuV2 : after (exec (.rawImuV2 0x01 imuPayload 0x8B) State.reset) (·.ds) = some (.rawImu imuSample) := by
  decide +kernel
theorem test_receive_rcV2_corrupt : after (exec (.rcV2 0x00 (rcPayload.set 6 0xE0) 0x72) State.reset) (fun t => (t.err, t.pbLen))
    = some (.checksumMismatch, 0) := by decide +kernel
theorem test_receive_rcV1 : after (exec (.rcV1 rcPayload 0xA0) State.reset) (·.ds) = some (.rc rcSample) := by decide +kernel
theorem test_receive_setWpV2 : after (exec (.setWpV2 0x00 209 wpPayload 0xF2) { State.reset with setwpId := some 209 }) (·.ds)
    = some (.setWp waypoint) := by decide +kernel
theorem test_receive_setWpV1_unset :
    after (exec (.setWpV1 209 wpPayload 0xD6) State.reset) (fun t => (t.err, t.ds, t.fr.map (·.func)))
      = some (.configUnset, .none, some 209) := by decide +kernel
theorem test_receive_setWpAckV2 : after (exec (.setWpAckV2 0x00 209 [] 0x77) { State.reset with setwpId := some 209 }) (·.ds)
    = some .opaquePayload := by decide +kernel
theorem test_receive_setWpAckV1 : after (exec (.setWpAckV1 100 [] 0x64) { State.reset with setwpId := some 214 }) (·.err)
    = some .unexpectedFunction := by decide +kernel
theorem test_receive_eepromWriteV1_excess : after (exec (.eepromWriteV1 [0x01] 0xFA) State.reset) (·.ds) = some .eepromWrite := by
  decide +kernel
theorem test_receive_eepromWriteV2 : after (exec (.eepromWriteV2 0x00 [] 0x66) State.reset) (·.ds) = some .eepromWrite := by
  decide +kernel
theorem test_receive_eepromWriteAckV1 : after (exec (.eepromWriteAckV1 [] 0xFA) State.reset) (·.ds) = some .opaquePayload := by
  decide +kernel
theorem test_receive_eepromWriteAckV2 : after (exec (.eepromWriteAckV2 0x00 [] 0x66) State.reset) (·.ds) = some .opaquePayload := by
  decide +kernel
theorem test_receive_errorV1 : after (exec (.errorV1 0x66 [0x07] 0x60) State.reset) (·.ds) = some .opaquePayload := by decide +kernel
theorem test_receive_errorV2 : after (exec (.errorV2 0x00 1234 [0x01] 0xA7) State.reset) (·.ds) = some .opaquePayload := by
  decide +kernel
theorem test_receive_rawImuReqV1 : after (exec (.rawImuReqV1 [] 0x66) State.reset) (·.ds) = some .opaquePayload := by decide +kernel
theorem test_receive_rawImuReqV2 : after (exec (.rawImuReqV2 0x01 [] 0xB3) State.reset) (fun t => t.fr.map (·.flag))
    = some (some 0x01) := by decide +kernel
theorem test_receive_rcReqV1 : after (exec (.rcReqV1 [] 0x69) State.reset) (·.ds) = some .opaquePayload := by decide +kernel
theorem test_receive_rcReqV2 : after (exec (.rcReqV2 0x00 [] 0x5C) State.reset) (·.err) = some .ok := by decide +kernel

/-! ### The host port (2.7) -/

theorem test_fbPush : after (exec (.fbPush 0x24) State.reset) (fun t => (t.fb, t.fbLen)) = some ([(0, 0x24)], 1) := by decide
theorem test_fbPush_full_keeps_frame :
    after (exec (.fbPush 0x00) { holding none imuV1 with fbLen := 65544 }) (fun t => (t.err, t.fr.isSome)) = some (.bufferFull, true) := by
  decide +kernel
theorem test_fbClr : after (exec .fbClr (holding none imuV1)) (fun t => (t.fb, t.fr)) = some ([], none) := by decide +kernel
theorem test_fbRd : delivers (exec (.fbRd 17) (holding none imuV1)) = some ⟨.ok, some (.u8 0x91)⟩ := by decide +kernel
theorem test_pbPush : after (exec (.pbPush 0xA5) (holding none imuV1)) (fun t => (t.pbLen, t.fr)) = some (13, none) := by decide +kernel
theorem test_pbClr : after (exec .pbClr (holding none imuV1)) (fun t => (t.pb, t.pbLen)) = some ([], 0) := by decide +kernel
theorem test_pbRd : delivers (exec (.pbRd 5) (holding none imuV1)) = some ⟨.ok, some (.u8 0xFE)⟩ := by decide +kernel
theorem test_rd_signed : delivers (exec (.rd 0x32) { State.reset with ds := .rawImu imuSample }) = some ⟨.ok, some (.i16 0xFE00)⟩ ∧
    valueNumber (.i16 0xFE00) = -512 := by decide +kernel
theorem test_rd_failing_leaves_err : after (exec (.rd 0x11) State.reset) (·.err) = some .ok := by decide
theorem test_cfgSetwpId_of_other_command :
    after (exec (.cfgSetwpId 102) { State.reset with setwpId := some 209 }) (fun t => (t.err, t.setwpId)) = some (.fieldRange, some 209) := by
  decide
theorem test_reset : exec .reset (holding (some 209) wpV2) = .next { State.reset with reply := some ⟨.ok, none⟩ } := rfl
theorem test_step_takes_packet : after (step (State.withFetchWord State.reset 8 0x11)) (fun t => (t.err, t.port))
    = some (.malformedHeader, []) := by decide
theorem test_step_undefined_number : after (step { State.reset with port := [.operation [0xFF]] }) (·.err) = some .illegalOperation := by
  decide
theorem test_last_waypoint : isLast waypoint = true ∧ isLast { waypoint with flags := 0x00 } = false := by decide

/-! ### States and operands that meet the hypotheses of the statements, clause by clause -/

/-- A buffer of `n` zero bytes. -/
def zeros (n : Nat) : List Byte := List.replicate n 0

theorem zeros_length (n : Nat) : (zeros n).length = n := List.length_replicate

theorem test_witness_ChecksumWritersResult :
    State.reset.csMode = .v1 ∧ ({ State.reset with csMode := .v2 } : State).csMode = .v2 := ⟨rfl, rfl⟩

theorem test_witness_ChecksumReadersResult : State.reset.csAcc = (0x00 : Byte) ∧ State.reset.csAcc ≠ (0xFF : Byte) := by decide

theorem test_witness_ChecksumStateNotShared :
    (∀ x, Instr.dec ≠ .csInit x) ∧ (∀ b, Instr.dec ≠ .csUpd b) ∧ Instr.dec ≠ .csRd ∧ (∀ b, Instr.dec ≠ .csCmp b) ∧
      (∀ r, Instr.dec ≠ .rd r) ∧ Instr.dec ≠ .reset := by
  simp

theorem test_witness_CrcTableIsPermutation : crcTable 0x80 = crcTable 0x80 := rfl

theorem test_witness_ChecksumsAreLinear : ([0x01, 0x02] : List Byte).length = ([0xA0, 0xFF] : List Byte).length := rfl

theorem test_witness_OneBitPatternHasChecksum : 0 < 8 ∧ 7 < 8 := by decide

theorem test_witness_XorWeaknessExactly :
    imuV1.version = .v1 ∧ frameWellFormed imuV1 = true ∧ ([1, 0, 1] ++ zeros 9).length = imuV1.payload.length ∧
      xor8 ([1, 0, 1] ++ zeros 9) = 0 := by decide +kernel

theorem test_witness_FrameRoundTrip :
    (255 : U16).toNat ≤ 255 ∧ (zeros 255).length ≤ 255 ∧ (zeros 65535).length ≤ 65535 := by
  simp [zeros_length]

theorem test_witness_FrameDecodeSound :
    frameDecode (frameBytes imuV1) = .ok (imuV1, 18) ∧ imuV1.version = .v1 ∧
      frameDecode (frameBytes imuV2) = .ok (imuV2, 21) ∧ imuV2.version = .v2 := by decide +kernel

theorem test_witness_DecodeFromIndexZeroOnly :
    ([] : List Byte).head? ≠ some 0x24 ∧ ([0x00, 0x24, 0x4D, 0x3E] : List Byte).head? ≠ some 0x24 ∧
      frameDecode (frameBytes imuV2 ++ [0x24]) = .ok (imuV2, 21) := by decide +kernel

theorem test_witness_DecodeResultExactly :
    frameDecode [0x24, 0x4D] = .error .malformedHeader ∧ frameDecode [0x24, 0x4D, 0x3C] = .error .truncatedPayload ∧
      frameDecode [0x24, 0x4D, 0x3C, 0x00, 0x66, 0x67] = .error .checksumMismatch ∧
      5 + (byteAt (frameBytes imuV1) 3).toNat + 1 ≤ (frameBytes imuV1).length ∧
      xor8 (((frameBytes imuV1).take 17).drop 3) = byteAt (frameBytes imuV1) 17 ∧
      8 + ((byteAt (frameBytes imuV2) 6).toNat + 256 * (byteAt (frameBytes imuV2) 7).toNat) + 1 ≤ (frameBytes imuV2).length ∧
      crc8 (((frameBytes imuV2).take 20).drop 3) = byteAt (frameBytes imuV2) 20 := by decide +kernel

theorem test_witness_OneBitFlipIsCaught :
    frameWellFormed imuV1 = true ∧ imuV1.version = .v1 ∧ 4 ≤ 4 ∧ 17 < (frameBytes imuV1).length ∧
      frameWellFormed imuV2 = true ∧ imuV2.version = .v2 ∧
      (∀ i ∈ [3, 4, 5, 8, 20], i < (frameBytes imuV2).length ∧ ((3 ≤ i ∧ i ≤ 5) ∨ 8 ≤ i)) := by decide +kernel

theorem test_witness_OneBitFlipInMarkers :
    frameWellFormed reqV1 = true ∧ reqV1.direction = .request ∧ frameWellFormed imuV2 = true ∧ imuV2.direction = .response ∧
      frameWellFormed errV1 = true ∧ errV1.direction = .error := by decide +kernel

theorem test_witness_OneBitFlipInLength_raised :
    frameWellFormed imuV1 = true ∧ imuV1.payload.length.testBit 0 = false ∧ imuV1.payload.length.testBit 7 = false ∧
      frameWellFormed imuV2 = true ∧ imuV2.payload.length.testBit 7 = false ∧ imuV2.payload.length.testBit (8 + 0) = false ∧
      imuV2.payload.length.testBit (8 + 7) = false := by decide +kernel

/-- A V1 frame with two payload bytes whose length bit 1 inverted leaves a frame that `decode` accepts. -/
def recutFits : Frame := ⟨.v1, .request, 0x00, 102, [0x66, 0x00], 0x02⟩

theorem test_witness_OneBitFlipInLength_lowered :
    imuV1.payload.length.testBit 2 = true ∧ imuV1.payload.length.testBit 3 = true ∧ imuV2.payload.length.testBit 3 = true ∧
      frameWellFormed recutFits = true ∧ recutFits.payload.length.testBit 1 = true ∧
      byteAt recutFits.payload 0 = frameChecksum (recut recutFits 0) ∧
      byteAt imuV1.payload 8 ≠ frameChecksum (recut imuV1 8) := by decide +kernel

theorem test_witness_OneBitFlipInLength_high_byte :
    let f : Frame := sealFrame ⟨.v2, .response, 0x00, 105, zeros 256, 0x00⟩
    frameWellFormed f = true ∧ f.version = .v2 ∧ f.payload.length.testBit (8 + 0) = true := by
  refine ⟨?_, rfl, ?_⟩
  · have hr : (sealFrame ⟨.v2, .response, 0x00, 105, zeros 256, 0x00⟩).inRange = true :=
      (inRange_v2_iff rfl).2 (by simp [sealFrame, zeros_length])
    rw [frameWellFormed, hr]
    simp [verify, sealFrame, frameChecksum]
  · rw [show (sealFrame ⟨.v2, .response, 0x00, 105, zeros 256, 0x00⟩).payload.length = 256 from zeros_length 256]
    decide

theorem test_witness_EncResult :
    pbBytes State.reset = some [] ∧ (255 : U16).toNat ≤ 255 ∧ State.reset.pbLen.toNat ≤ 255 ∧
      pbBytes { State.reset with pb := Memory.ofBytes (zeros 255), pbLen := 255 } = some (zeros 255) ∧ 255 < (256 : U16).toNat ∧
      255 < ({ State.reset with pbLen := 256 } : State).pbLen.toNat := by decide +kernel

theorem test_witness_FieldRangeRefusals :
    255 < (256 : U16).toNat ∧ 255 < ({ State.reset with pbLen := 256 } : State).pbLen.toNat ∧
      (105 : U16) ∈ ([250, 102, 105] : List U16) := by decide

theorem test_witness_DecResult :
    fbBytes (holding none imuV1) = some (frameBytes imuV1) ∧ frameDecode (frameBytes imuV1) = .ok (imuV1, 18) ∧
    fbBytes State.reset = some [] ∧ frameDecode [] = .error .malformedHeader ∧
      fbBytes (loadedFB [0x24, 0x58, 0x3C]) = some [0x24, 0x58, 0x3C] ∧
      frameDecode [0x24, 0x58, 0x3C] = .error .truncatedPayload ∧
      fbBytes (loadedFB [0x24, 0x4D, 0x3C, 0x00, 0x66, 0x67]) = some [0x24, 0x4D, 0x3C, 0x00, 0x66, 0x67] ∧
      frameDecode [0x24, 0x4D, 0x3C, 0x00, 0x66, 0x67] = .error .checksumMismatch := by decide +kernel

theorem test_witness_EncThenDecChangesNothing :
    State.reset.buffersHeld = true ∧ ∃ t, exec (.enc .v2 0 102) State.reset = .next t ∧ t.err = .ok :=
  ⟨by decide, _, rfl, rfl⟩

theorem test_witness_DecodingIsIdempotent :
    (∃ t, exec .dec State.reset = .next t) ∧ (∃ t, exec .unpack State.reset = .next t) := ⟨⟨_, rfl⟩, ⟨_, rfl⟩⟩

theorem test_witness_LayoutsRoundTrip : wpPayload.length = 21 ∧ imuPayload.length = 12 ∧ rcPayload.length = 34 := by decide

theorem test_witness_SignedPatternsRoundTrip :
    0 < 1 ∧ -(2 ^ (16 - 1) : Int) ≤ -32768 ∧ (32767 : Int) < (2 ^ (16 - 1) : Int) := by decide

theorem test_witness_ExcessPayloadIgnored_unpack : ∃ t, exec .unpack State.reset = .next t := ⟨_, rfl⟩

theorem test_witness_ExcessPayloadIgnored :
    cmdOf (some 209) 209 = .ok .setWp ∧ schemaSize .setWp ≤ wpPayload.length ∧
      cmdOf none 250 = .ok .eepromWrite ∧ schemaSize .eepromWrite ≤ ([] : List Byte).length ∧
      cmdOf none 102 = .ok .rawImu ∧ schemaSize .rawImu ≤ imuPayload.length ∧
      cmdOf none 105 = .ok .rc ∧ schemaSize .rc ≤ rcPayload.length := by decide

/-- The FR group that a frame leaves. -/
def regs (f : Frame) : FrameRegs := frameRegsOf f (frameSize f.version f.payload.length)

theorem test_witness_UnpackDelivers_layouts :
    ((holding (some 209) wpV2).fr = some (regs wpV2) ∧ pbBytes (holding (some 209) wpV2) = some wpPayload ∧
      (holding (some 209) wpV2).setwpId = some 209 ∧ isFixedId 209 = false ∧ (regs wpV2).func = 209 ∧
      (regs wpV2).dir = .request ∧ 21 ≤ wpPayload.length) ∧
    ((holding none imuV1).fr = some (regs imuV1) ∧ pbBytes (holding none imuV1) = some imuPayload ∧ (regs imuV1).func = 102 ∧
      (regs imuV1).dir = .response ∧ 12 ≤ imuPayload.length) ∧
    ((holding none rcV2).fr = some (regs rcV2) ∧ pbBytes (holding none rcV2) = some rcPayload ∧ (regs rcV2).func = 105 ∧
      (regs rcV2).dir = .response ∧ 34 ≤ rcPayload.length) := by decide +kernel

theorem test_witness_UnpackDelivers_others :
    ((holding none ⟨.v1, .request, 0, 250, [], 0xFA⟩).fr = some (regs ⟨.v1, .request, 0, 250, [], 0xFA⟩)) ∧
    ((holding none errV1).fr = some (regs errV1) ∧ (regs errV1).dir = .error) ∧
    ((holding none reqV1).fr = some (regs reqV1) ∧ (regs reqV1).dir = .request ∧ (regs reqV1).func = 102) ∧
    ((holding (some 209) ⟨.v1, .response, 0, 209, [], 0xD1⟩).fr = some (regs ⟨.v1, .response, 0, 209, [], 0xD1⟩)) := by
  decide +kernel

theorem test_witness_UnpackRefuses :
    State.reset.fr = none ∧
    ((holding none wpV2).setwpId = none ∧ (regs wpV2).dir ≠ .error ∧ isFixedId (regs wpV2).func = false) ∧
    ((holding (some 214) wpV2).setwpId = some 214 ∧ (regs wpV2).func ≠ 214) ∧
    (pbBytes (holding none { imuV1 with payload := imuPayload.dropLast }) = some imuPayload.dropLast ∧
      imuPayload.dropLast.length = 11) ∧
    (pbBytes (holding none { rcV2 with payload := rcPayload.dropLast }) = some rcPayload.dropLast ∧ rcPayload.dropLast.length = 33) ∧
    (pbBytes (holding (some 209) { wpV2 with payload := wpPayload.dropLast }) = some wpPayload.dropLast ∧
      wpPayload.dropLast.length = 20) := by decide +kernel

theorem test_witness_PackEncDecUnpackDelivers :
    ({ State.reset with setwpId := some 255 } : State).setwpId = some 255 ∧ isFixedId 255 = false ∧ (255 : U16).toNat ≤ 255 ∧
      isFixedId 65535 = false := by decide

theorem test_witness_PhysicalUnits :
    waypoint.lat = encInt 32 423601000 ∧ waypoint.lon = encInt 32 (-710589000) ∧ waypoint.alt = encInt 32 2000 := by decide +kernel

theorem test_witness_PushResult :
    ({ State.reset with fbLen := 65544 } : State).fbLen.toNat = 65544 ∧ ({ State.reset with fbLen := 65543 } : State).fbLen.toNat ≠ 65544 ∧
      ({ State.reset with pbLen := 65535 } : State).pbLen.toNat = 65535 ∧
      ({ State.reset with pbLen := 65534 } : State).pbLen.toNat ≠ 65535 := by decide

theorem test_witness_BufferReadResult :
    (holding none imuV1).fbLen.toNat ≤ (18 : U17).toNat ∧ (17 : U17).toNat < (holding none imuV1).fbLen.toNat ∧
      Memory.read (holding none imuV1).fb (17 : U17).toNat = some 0x91 ∧
      (holding none imuV1).pbLen.toNat ≤ (12 : U16).toNat ∧ (11 : U16).toNat < (holding none imuV1).pbLen.toNat ∧
      Memory.read (holding none imuV1).pb (11 : U16).toNat = some 0xFF := by decide +kernel

theorem test_witness_RegisterReadResult :
    (holding (some 209) imuV1).setwpId = some 209 ∧ State.reset.setwpId = none ∧ (holding none imuV1).fr = some (regs imuV1) ∧
      State.reset.fr = none ∧ ({ State.reset with ds := .setWp waypoint } : State).ds = .setWp waypoint ∧
      ({ State.reset with ds := .rawImu imuSample } : State).ds = .rawImu imuSample ∧
      ({ State.reset with ds := .rc rcSample } : State).ds = .rc rcSample ∧ (rcChannels rcSample)[16]? = some 1500 ∧
      dsKind State.reset.ds ≠ 1 ∧ dsKind State.reset.ds ≠ 3 ∧ dsKind State.reset.ds ≠ 4 := by decide +kernel

theorem test_witness_ReadsChangeNothing : isRead (.rd 0x11) = true ∧ ∃ t, exec (.rd 0x11) State.reset = .next t := ⟨rfl, _, rfl⟩

theorem test_witness_ConfigureResult : (0 : U16) ≠ 250 ∧ (0 : U16) ≠ 102 ∧ (0 : U16) ≠ 105 ∧ (65535 : U16) ≠ 250 ∧ (251 : U16) ≠ 250 ∧
    ((105 : U16) = 250 ∨ (105 : U16) = 102 ∨ (105 : U16) = 105) := by decide

theorem test_witness_FirstOperationAfterReset :
    ∃ t, exec .reset (holding (some 209) wpV2) = .next t ∧ (2 : BitVec 2) ≠ 3 ∧ (255 : U16).toNat ≤ 255 ∧ (0 : U16) ≠ 250 ∧
      (0x01 : Byte) ≠ 0x00 := ⟨_, rfl, by decide, by decide, by decide, by decide⟩

theorem test_witness_OpaqueFramesReceived :
    (zeros 0).length ≤ 255 ∧ (zeros 255).length ≤ 255 ∧ (zeros 65535).length ≤ 65535 := by
  simp [zeros_length]

theorem test_witness_EepromWriteReceived : (zeros 255).length ≤ 255 ∧ (zeros 65535).length ≤ 65535 := by simp [zeros_length]

theorem test_witness_TelemetryReceived :
    12 ≤ imuPayload.length ∧ imuPayload.length ≤ 255 ∧ 34 ≤ rcPayload.length ∧ rcPayload.length ≤ 255 ∧
      12 ≤ (zeros 65535).length ∧ 34 ≤ (zeros 65535).length ∧ (zeros 65535).length ≤ 65535 := by
  simp only [zeros_length]
  decide

theorem test_witness_SetWpReceived :
    ({ State.reset with setwpId := some 209 } : State).setwpId = some 209 ∧ isFixedId 209 = false ∧
      (209 : Byte).setWidth 16 = (209 : U16) ∧ 21 ≤ wpPayload.length ∧ wpPayload.length ≤ 255 ∧ (0 : Nat) ≤ 65535 := by decide

theorem test_witness_ReceivedButRefused :
    let imu : Frame := sealFrame { imuV1 with payload := imuPayload.dropLast }
    let rc : Frame := sealFrame { rcV2 with payload := rcPayload.dropLast }
    let wp : Frame := sealFrame { wpV2 with payload := wpPayload.dropLast }
    ((selectInstr imu).frame? = some imu ∧ (selectInstr imu).WellFormed ∧ imu.checksum = frameChecksum imu ∧ imu.payload.length < 12) ∧
    ((selectInstr rc).frame? = some rc ∧ (selectInstr rc).WellFormed ∧ rc.checksum = frameChecksum rc ∧ rc.payload.length < 34) ∧
    ((selectInstr wp).frame? = some wp ∧ (selectInstr wp).WellFormed ∧ wp.checksum = frameChecksum wp ∧ wp.payload.length < 21 ∧
      isFixedId wp.func = false ∧ wp.direction = .request ∧ wp.func ≠ 214) := by decide +kernel

theorem test_witness_BadChecksumDiscarded :
    (Instr.rawImuReqV1 [] 0x67).frame? = some { reqV1 with checksum := 0x67 } ∧ (Instr.rawImuReqV1 [] 0x67).WellFormed ∧
      (0x67 : Byte) ≠ frameChecksum { reqV1 with checksum := 0x67 } := by decide

theorem test_witness_WireStepIsRecv : (Instr.rawImuReqV1 [] 0x66).frame? = some reqV1 := by decide

theorem test_witness_DecodeEncode :
    (Instr.setWpV2 0xFF 65535 wpPayload 0x00).WellFormed ∧ (Instr.setWpV1 0 [] 0x00).WellFormed ∧ (Instr.fbRd 0x1FFFF).WellFormed := by
  decide

theorem test_witness_EncodeDecode :
    decode (.frame [0x24, 0x4D, 0x3C, 0x00, 0x66, 0x66]) = .ok (.rawImuReqV1 [] 0x66) ∧ decode (.operation [0x11]) = .ok .dec := by decide

theorem test_witness_TableSelectsInstruction :
    (Instr.setWpAckV2 0x00 209 [] 0x77).WellFormed ∧
      (Instr.setWpAckV2 0x00 209 [] 0x77).frame? = some ⟨.v2, .response, 0x00, 209, [], 0x77⟩ := by decide

theorem test_witness_StepRunsDecoded :
    ({ State.reset with port := [.operation [0x11]] } : State).port = .operation [0x11] :: [] ∧ decode (.operation [0x11]) = .ok .dec ∧
      State.reset.port = [] := by decide

theorem test_witness_UndefinedOperationNumber :
    ∀ n ∈ ([0x00, 0x05, 0x0F, 0x12, 0x1F, 0x24, 0x2E, 0x33, 0x37, 0x3F, 0x42, 0x7E, 0x80, 0xFF] : List Byte),
      n ∉ ([0x01, 0x02, 0x03, 0x04, 0x10, 0x11, 0x20, 0x21, 0x22, 0x23, 0x2F, 0x30, 0x31, 0x32, 0x34, 0x35, 0x36, 0x40, 0x41, 0x7F] :
        List Byte) ∧
      ({ State.reset with port := [.operation [n]] } : State).port = .operation (n :: []) :: [] := by decide +kernel

theorem test_witness_InexactBytesReceived_no_frame :
    splitFrame [] = .error .malformedHeader ∧ splitFrame [0x24, 0x4D, 0x3C, 0x00, 0x66] = .error .truncatedPayload ∧
      (zeros 65544).length ≤ 65544 ∧ 65544 < (zeros 65545).length := by
  refine ⟨by decide, by decide, ?_, ?_⟩ <;> simp [zeros_length]

theorem test_witness_InexactBytesReceived_trailing :
    imuV1.inRange = true ∧ ([0x24] : List Byte) ≠ [] ∧ (frameBytes imuV1 ++ [0x24]).length ≤ 65544 ∧
      imuV1.checksum = frameChecksum imuV1 ∧ interpret none 102 .response imuPayload = .ok (.rawImu imuSample) ∧
      interpret none 209 .request wpPayload = .error .configUnset ∧ wpV2.checksum = frameChecksum wpV2 ∧
      ({ reqV1 with checksum := 0x67 } : Frame).checksum ≠ frameChecksum { reqV1 with checksum := 0x67 } := by decide +kernel

theorem test_step_trailing_byte_ignored :
    after (step { State.reset with port := [.frame (frameBytes imuV2 ++ [0x24])] })
        (fun t => (t.ds, t.fbLen, t.fr.map (·.size)))
      = some (.rawImu imuSample, 22, some 21) := by decide +kernel

theorem test_witness_SendSetWpResult :
    ({ State.reset with setwpId := some 255 } : State).setwpId = some 255 ∧ (255 : U16).toNat ≤ 255 ∧ State.reset.setwpId = none := by
  decide

/-- The reset state with one packed operation presented. -/
def presenting (bytes : List Byte) : State := { State.reset with port := [.operation bytes] }

theorem test_witness_StopsByName_refused :
    step (presenting []) = .refused .badCommandWord ∧
      step (presenting [0x11, 0x00]) = .refused .badCommandWord ∧
      step (presenting [0x02]) = .refused .badCommandWord ∧
      step (presenting [0x01, 0x02]) = .refused .badCommandWord ∧
      step (presenting [0x10, 0x02, 0x00, 0x66, 0x00]) = .refused .badCommandWord ∧
      step (presenting [0x10, 0x00, 0x04, 0x66, 0x00]) = .refused .badCommandWord ∧
      step (presenting [0x32, 0x00, 0x00, 0x02]) = .refused .badCommandWord :=
  ⟨rfl, rfl, rfl, rfl, rfl, rfl, rfl⟩

theorem test_witness_StopsByName_port : (presenting [0x11, 0x00]).port = .operation [0x11, 0x00] :: [] := rfl

theorem test_witness_StopsByName_faults :
    let s : State := { State.reset with fbLen := 1, pbLen := 1, fr := some (regs imuV1) }
    (0 : U17).toNat < s.fbLen.toNat ∧ (0 : U16).toNat < s.pbLen.toNat ∧ Memory.read s.fb 0 = none ∧ Memory.read s.pb 0 = none ∧
      s.fr = some (regs imuV1) ∧ (255 : U16).toNat ≤ 255 ∧ s.pbLen.toNat ≤ 255 := by decide +kernel

theorem test_witness_WriteMatrix :
    (∃ t, exec (.csUpd 0x01) State.reset = .next t) ∧ (writesOf (.csUpd 0x01) .ok).csMode = false ∧ cannotFail (.csUpd 0x01) = true ∧
      (∃ t, exec .dec State.reset = .next t) ∧ (writesOf .dec .malformedHeader).pb = .kept ∧
      (writesOf .dec .malformedHeader).frame = .cleared ∧ (∃ t, exec (.cfgSetwpId 209) State.reset = .next t) ∧
      (writesOf (.cfgSetwpId 209) .ok).config = .written :=
  ⟨⟨_, rfl⟩, rfl, rfl, ⟨_, rfl⟩, rfl, rfl, ⟨_, rfl⟩, rfl⟩

theorem test_witness_OutcomeIsStoredAndDelivered :
    (∃ t, exec .dec State.reset = .next t) ∧ isRead .dec = false ∧ (∃ t, exec (.pbRd 0) State.reset = .next t) ∧ isRead (.pbRd 0) = true :=
  ⟨⟨_, rfl⟩, rfl, ⟨_, rfl⟩, rfl⟩

theorem test_witness_DecodedNeverStale :
    (∃ t, exec (.fbPush 0x24) { State.reset with ds := .eepromWrite } = .next t) ∧ Instr.fbPush 0x24 ≠ .unpack ∧
      (Instr.fbPush 0x24).frame? = none := ⟨⟨_, rfl⟩, by decide, rfl⟩

theorem test_witness_EveryInstructionCompletes :
    State.reset.buffersHeld = true ∧ (received imuV1 (.rawImu imuSample) State.reset).buffersHeld = true ∧
      (Instr.rawImuReqV1 [] 0x66).frame? = some reqV1 := by decide +kernel

theorem test_witness_StepKeepsInvariant :
    (received imuV1 (.rawImu imuSample) State.reset).inv = true ∧ State.reset.inv = true ∧ step State.reset = .next State.reset :=
  ⟨by decide +kernel, by decide +kernel, rfl⟩

theorem test_witness_NoSequenceIsStuck :
    ({ received wpV2 (.setWp waypoint) { State.reset with setwpId := some 209 } with port := [.operation [0x2F]] } : State).inv = true := by
  decide +kernel

theorem test_witness_MemoryIsLittleEndian :
    4 + 2 ≤ 6 ∧ 3 < 4 ∧ Memory.readLE (Memory.ofBytes [0x68, 0xA3, 0x3F, 0x19]) 0 2 = some 0xA368 ∧
      Memory.readLE (Memory.ofBytes [0x68, 0xA3, 0x3F, 0x19]) (0 + 2) 2 = some 0x193F ∧ wpPayload[20]? = some 0xA5 := by decide +kernel

theorem test_le32_first_byte_is_lowest : le32 wpPayload 2 = 0x193FA368 ∧ leBytes32 0x193FA368 = [0x68, 0xA3, 0x3F, 0x19] := by decide +kernel

end Sys2Proof.Tests
end

section
/-!
PROOFS of the family 00_scope.md: the sign convention of R62 (obligation O24) and the byte order of R61 and R63 (obligation O60),
each behind the general laws of the functions of R9 that it needs.
-/

namespace Sys2Proof.Machine

/-! ### Signed patterns -/

/-- The pattern of R9 is the library's, for every number from `-2^w` up (the second branch adds `2^w` once). -/
theorem encInt_eq_ofInt {w : Nat} {x : Int} (h : -(2 ^ w : Int) ≤ x) : encInt w x = BitVec.ofInt w x := by
  apply BitVec.eq_of_toInt_eq
  unfold encInt
  split
  next hx => rw [BitVec.toInt_ofNat', BitVec.toInt_ofInt, Int.toNat_of_nonneg hx]
  next =>
    have hcast : ((2 ^ w : Nat) : Int) = 2 ^ w := by push_cast; rfl
    rw [BitVec.toInt_ofNat', BitVec.toInt_ofInt, Int.toNat_of_nonneg (by omega), Int.add_bmod_right]

/-- The signed range of a width lies above the bound from which the pattern of R9 is the library's. -/
theorem neg_two_pow_le_neg_half (w : Nat) : -(2 ^ w : Int) ≤ -(2 ^ (w - 1) : Int) :=
  neg_le_neg (pow_le_pow_right₀ (by decide) (Nat.sub_le w 1))

/-- The signed value of a pattern lies in the signed range of its width. -/
theorem sext_mem_range {w : Nat} (hw : 0 < w) (v : BitVec w) :
    -(2 ^ (w - 1) : Int) ≤ sext v ∧ sext v < (2 ^ (w - 1) : Int) := by
  rw [sext_eq_toInt v hw]
  exact ⟨BitVec.le_toInt v, BitVec.toInt_lt⟩

/-- Encoding a number of the signed range loses no value. -/
theorem sext_encInt {w : Nat} (hw : 0 < w) {x : Int} (hlo : -(2 ^ (w - 1) : Int) ≤ x) (hhi : x < (2 ^ (w - 1) : Int)) :
    sext (encInt w x) = x := by
  rw [sext_eq_toInt _ hw, encInt_eq_ofInt ((neg_two_pow_le_neg_half w).trans hlo)]
  exact BitVec.toInt_ofInt_eq_self hw hlo hhi

/-- Reading a pattern as a signed number loses no pattern. -/
theorem encInt_sext {w : Nat} (hw : 0 < w) (v : BitVec w) : encInt w (sext v) = v := by
  rw [encInt_eq_ofInt ((neg_two_pow_le_neg_half w).trans (sext_mem_range hw v).1), sext_eq_toInt v hw, BitVec.ofInt_toInt]

/-- Settles O24: the two directions of the sign convention, and the range of `sext`, at every positive width. -/
theorem signedPatternsRoundTrip : Obligations.SignedPatternsRoundTrip := by
  intro w hw
  exact ⟨fun x hlo hhi => sext_encInt hw hlo hhi, fun v => ⟨encInt_sext hw v, sext_mem_range hw v⟩⟩

/-! ### The number that a byte sequence spells -/

@[simp] theorem bytesOfNat_length (n v : Nat) : (bytesOfNat n v).length = n := by
  induction n generalizing v with
  | zero => rfl
  | succ n ih => simp [bytesOfNat, ih]

/-- The `n` low bytes of a number spell its residue modulo `256^n`. -/
theorem natOfBytes_bytesOfNat (n v : Nat) : natOfBytes (bytesOfNat n v) = v % 256 ^ n := by
  induction n generalizing v with
  | zero => simp [bytesOfNat, natOfBytes, Nat.mod_one]
  | succ n ih =>
    rw [bytesOfNat, natOfBytes, ih, BitVec.toNat_ofNat, Nat.pow_succ' (m := 256), Nat.mod_mul]

/-- A sequence of bytes weighs what lies behind it by `256` to its length. -/
theorem natOfBytes_append (xs ys : List Byte) :
    natOfBytes (xs ++ ys) = natOfBytes xs + 256 ^ xs.length * natOfBytes ys := by
  induction xs with
  | nil => simp [natOfBytes]
  | cons x xs ih =>
    rw [List.cons_append, natOfBytes, natOfBytes, ih, List.length_cons, Nat.pow_succ']
    ring

/-! ### Buffer accesses of several bytes -/

/-- A write of several bytes leaves every address outside as it was. -/
theorem Memory.read_writeBytes_outside (m : Memory) {a x : Nat} (bs : List Byte) (h : x < a ∨ a + bs.length ≤ x) :
    Memory.read (Memory.writeBytes m a bs) x = Memory.read m x := by
  induction bs generalizing m a with
  | nil => rfl
  | cons b bs ih =>
    rw [List.length_cons] at h
    rw [Memory.writeBytes, ih (Memory.write m a b) (by omega), Memory.read_write_other m b (by omega)]

/-- A write of several bytes reads back as the bytes written. -/
theorem Memory.readBytes_writeBytes (m : Memory) (a : Nat) (bs : List Byte) :
    Memory.readBytes (Memory.writeBytes m a bs) a bs.length = some bs := by
  induction bs generalizing m a with
  | nil => rfl
  | cons b bs ih =>
    have hfirst : Memory.read (Memory.writeBytes (Memory.write m a b) (a + 1) bs) a = some b := by
      rw [Memory.read_writeBytes_outside _ bs (.inl (Nat.lt_succ_self a)), Memory.read_write_same]
    rw [Memory.writeBytes, List.length_cons, Memory.readBytes, hfirst, ih]

/-- Two reads of adjacent bytes make one read of all of them. -/
theorem Memory.readBytes_add {m : Memory} {a k n : Nat} {xs ys : List Byte} (hx : Memory.readBytes m a k = some xs)
    (hy : Memory.readBytes m (a + k) n = some ys) : Memory.readBytes m a (k + n) = some (xs ++ ys) := by
  induction k generalizing a xs with
  | zero =>
    cases hx
    simpa using hy
  | succ k ih =>
    rw [Memory.readBytes] at hx
    split at hx
    next b bs hb hbs =>
      cases hx
      rw [show k + 1 + n = k + n + 1 by omega, Memory.readBytes, hb, ih hbs (by rwa [show a + 1 + k = a + (k + 1) by omega])]
      rfl
    next => cases hx

/-- `MemRead` after `MemWrite` of as many bytes at the same address. -/
theorem Memory.readLE_writeLE (m : Memory) (a n v : Nat) :
    Memory.readLE (Memory.writeLE m a n v) a n = some (v % 256 ^ n) := by
  have hbytes := Memory.readBytes_writeBytes m a (bytesOfNat n v)
  rw [bytesOfNat_length] at hbytes
  rw [Memory.readLE, Memory.writeLE, hbytes, Option.map_some, natOfBytes_bytesOfNat]

/-- `MemWrite` leaves every address outside as it was. -/
theorem Memory.read_writeLE_outside (m : Memory) {a n x : Nat} (v : Nat) (h : x < a ∨ a + n ≤ x) :
    Memory.read (Memory.writeLE m a n v) x = Memory.read m x :=
  Memory.read_writeBytes_outside m (bytesOfNat n v) (by rwa [bytesOfNat_length])

/-- A `MemRead` is put together from two of adjacent bytes, the low one at the lower address. -/
theorem Memory.readLE_add {m : Memory} {a k n lo hi : Nat} (hlo : Memory.readLE m a k = some lo)
    (hhi : Memory.readLE m (a + k) n = some hi) : Memory.readLE m a (k + n) = some (lo + 256 ^ k * hi) := by
  obtain ⟨xs, hxs, rfl⟩ := Option.map_eq_some_iff.mp hlo
  obtain ⟨ys, hys, rfl⟩ := Option.map_eq_some_iff.mp hhi
  rw [Memory.readLE, Memory.readBytes_add hxs hys, Option.map_some, natOfBytes_append, Memory.readBytes_length hxs]

/-! ### Fields of 16 and 32 bits -/

theorem byteAt_of_getElem? {p : List Byte} {a : Nat} {b : Byte} (h : p[a]? = some b) : byteAt p a = b := by
  rw [byteAt, List.getD_eq_getElem?_getD, h, Option.getD_some]

/-- A byte put above the `k` bits that a pattern uses adds its value weighted by `2^k`. -/
theorem toNat_or_byte_shiftLeft {w k : Nat} {v : BitVec w} (b : Byte) (hv : v.toNat < 2 ^ k) (hk : k + 8 ≤ w) :
    (v ||| b.setWidth w <<< k).toNat = v.toNat + 2 ^ k * b.toNat := by
  have hfits : 2 ^ k * b.toNat < 2 ^ w := calc
    2 ^ k * b.toNat < 2 ^ k * 2 ^ 8 := Nat.mul_lt_mul_of_pos_left b.isLt (Nat.two_pow_pos k)
    _ = 2 ^ (k + 8) := (Nat.pow_add 2 k 8).symm
    _ ≤ 2 ^ w := Nat.pow_le_pow_right (by decide) hk
  have hb : b.toNat < 2 ^ w := b.isLt.trans_le (Nat.pow_le_pow_right (by decide) (by omega))
  rw [BitVec.toNat_or, BitVec.toNat_shiftLeft, BitVec.toNat_setWidth, Nat.mod_eq_of_lt hb, Nat.shiftLeft_eq,
    Nat.mul_comm b.toNat, Nat.mod_eq_of_lt hfits, Nat.or_comm, ← Nat.two_pow_add_eq_or_of_lt hv, Nat.add_comm]

/-- `le16` is the sum of its two bytes weighted from the lowest address up. -/
theorem le16_toNat (p : List Byte) (a : Nat) :
    (le16 p a).toNat = (byteAt p a).toNat + 256 * (byteAt p (a + 1)).toNat := by
  have low : ((byteAt p a).setWidth 16).toNat = (byteAt p a).toNat := BitVec.toNat_setWidth_of_le (by decide)
  rw [le16, toNat_or_byte_shiftLeft (k := 8) _ (low.trans_lt (byteAt p a).isLt) (by decide), low]
  rfl

/-- `le32` is the sum of its four bytes weighted from the lowest address up. -/
theorem le32_toNat (p : List Byte) (a : Nat) :
    (le32 p a).toNat = (byteAt p a).toNat + 256 * (byteAt p (a + 1)).toNat
      + 65536 * (byteAt p (a + 2)).toNat + 16777216 * (byteAt p (a + 3)).toNat := by
  have low : ((byteAt p a).setWidth 32).toNat = (byteAt p a).toNat := BitVec.toNat_setWidth_of_le (by decide)
  have h0 := (byteAt p a).isLt
  have h1 := (byteAt p (a + 1)).isLt
  have h2 := (byteAt p (a + 2)).isLt
  have two := toNat_or_byte_shiftLeft (k := 8) (byteAt p (a + 1)) (v := (byteAt p a).setWidth 32) (by omega) (by decide)
  have three := toNat_or_byte_shiftLeft (k := 16) (byteAt p (a + 2)) (two.trans_lt (by omega)) (by decide)
  have four := toNat_or_byte_shiftLeft (k := 24) (byteAt p (a + 3)) (three.trans_lt (by omega)) (by decide)
  rw [le32, four, three, two, low]
  rfl

/-- A byte of a pattern is the low byte of the pattern's value divided by the weight of its place. -/
theorem setWidth_ushiftRight_eq_ofNat {w : Nat} (v : BitVec w) (k : Nat) :
    (v >>> k).setWidth 8 = BitVec.ofNat 8 (v.toNat / 2 ^ k) := by
  apply BitVec.eq_of_toNat_eq
  rw [BitVec.toNat_setWidth, BitVec.toNat_ushiftRight, Nat.shiftRight_eq_div_pow, BitVec.toNat_ofNat]

theorem leBytes16_eq (v : BitVec 16) : leBytes16 v = [BitVec.ofNat 8 v.toNat, BitVec.ofNat 8 (v.toNat / 256)] := by
  rw [leBytes16, setWidth_ushiftRight_eq_ofNat v 8]
  rfl

theorem leBytes32_eq (v : BitVec 32) :
    leBytes32 v = [BitVec.ofNat 8 v.toNat, BitVec.ofNat 8 (v.toNat / 256), BitVec.ofNat 8 (v.toNat / 65536),
      BitVec.ofNat 8 (v.toNat / 16777216)] := by
  rw [leBytes32, setWidth_ushiftRight_eq_ofNat v 8, setWidth_ushiftRight_eq_ofNat v 16, setWidth_ushiftRight_eq_ofNat v 24]
  rfl

/-- Settles O60: the buffer accesses first (read after write, frame, the two halves of a 32-bit read), then the fields. -/
theorem memoryIsLittleEndian : Obligations.MemoryIsLittleEndian :=
  ⟨Memory.readLE_writeLE,
   fun m _ _ v _ outside => Memory.read_writeLE_outside m v outside,
   fun _ _ _ _ hlo hhi => Memory.readLE_add hlo hhi,
   fun _ _ _ h => byteAt_of_getElem? h,
   le16_toNat, le32_toNat, leBytes16_eq, leBytes32_eq⟩

end Sys2Proof.Machine
end

section
/-!
PROOFS of the family 10_state.md: the block's invariant (obligations O57, O58), what an instruction delivers, writes and leaves
(O53, O54, O55), what shares the registers of the checksum engine (O4) and the model's own stops (O51).
O57, O53, O54 and O55 rest on one inversion of `exec`: `Effect` lists every way an instruction can end in a next state.
-/

namespace Sys2Proof.Machine

/-! ### The operations on the buffers, case by case -/

theorem pushFrameByte_of_full {s : State} (b : Byte) (h : s.fbLen.toNat = 65544) :
    pushFrameByte b s = finish .bufferFull s := if_pos h

theorem pushFrameByte_of_room {s : State} (b : Byte) (h : s.fbLen.toNat ≠ 65544) :
    pushFrameByte b s = { s with fb := Memory.write s.fb s.fbLen.toNat b, fbLen := s.fbLen + 1, fr := none, ds := .none,
                                 err := .ok, reply := some ⟨.ok, none⟩ } :=
  ((pushFrameByte_cases b s).resolve_left fun full => h full.1).2

theorem pushPayloadByte_of_full {s : State} (b : Byte) (h : s.pbLen.toNat = 65535) :
    pushPayloadByte b s = finish .bufferFull s := if_pos h

theorem pushPayloadByte_of_room {s : State} (b : Byte) (h : s.pbLen.toNat ≠ 65535) :
    pushPayloadByte b s = { s with pb := Memory.write s.pb s.pbLen.toNat b, pbLen := s.pbLen + 1, fr := none, ds := .none,
                                   err := .ok, reply := some ⟨.ok, none⟩ } :=
  ((pushPayloadByte_cases b s).resolve_left fun full => h full.1).2

/-- `FB_RD` beyond the valid bytes, of a listed cell, and of an unlisted one (R243; log 8). -/
theorem execFbRd_of_le {s : State} {i : U17} (h : s.fbLen.toNat ≤ i.toNat) :
    execFbRd i s = .next (failRead .bufferRange s) := if_pos h

@[inherit_doc execFbRd_of_le]
theorem execFbRd_of_listed {s : State} {i : U17} {b : Byte} (h : i.toNat < s.fbLen.toNat)
    (hr : Memory.read s.fb i.toNat = some b) : execFbRd i s = .next (deliver (.u8 b) s) := by
  simp [execFbRd, Nat.not_le.2 h, hr]

@[inherit_doc execFbRd_of_le]
theorem execFbRd_of_hole {s : State} {i : U17} (h : i.toNat < s.fbLen.toNat) (hr : Memory.read s.fb i.toNat = none) :
    execFbRd i s = .fault (.unwrittenCell true i.toNat) := by
  simp [execFbRd, Nat.not_le.2 h, hr]

/-- `PB_RD` beyond the valid bytes, of a listed cell, and of an unlisted one (R246; log 8). -/
theorem execPbRd_of_le {s : State} {i : U16} (h : s.pbLen.toNat ≤ i.toNat) :
    execPbRd i s = .next (failRead .bufferRange s) := if_pos h

@[inherit_doc execPbRd_of_le]
theorem execPbRd_of_listed {s : State} {i : U16} {b : Byte} (h : i.toNat < s.pbLen.toNat)
    (hr : Memory.read s.pb i.toNat = some b) : execPbRd i s = .next (deliver (.u8 b) s) := by
  simp [execPbRd, Nat.not_le.2 h, hr]

@[inherit_doc execPbRd_of_le]
theorem execPbRd_of_hole {s : State} {i : U16} (h : i.toNat < s.pbLen.toNat) (hr : Memory.read s.pb i.toNat = none) :
    execPbRd i s = .fault (.unwrittenCell false i.toNat) := by
  simp [execPbRd, Nat.not_le.2 h, hr]

theorem decodeFrameBuffer_of_hole {s : State} (h : fbBytes s = none) : decodeFrameBuffer s = fbHole s := by
  rw [decodeFrameBuffer, h]

theorem unpackFrame_of_no_frame {s : State} (h : s.fr = none) :
    unpackFrame s = .next (finish .noValidFrame { s with ds := .none }) := by
  rw [unpackFrame, h]

theorem unpackFrame_of_hole {s : State} {f : FrameRegs} (hf : s.fr = some f) (hp : pbBytes s = none) :
    unpackFrame s = pbHole s := by
  rw [unpackFrame, hf, hp]

theorem unpackFrame_of_payload {s : State} {f : FrameRegs} {p : List Byte} (hf : s.fr = some f) (hp : pbBytes s = some p) :
    unpackFrame s = .next (acceptInterpreted (interpret s.setwpId f.func f.dir p) s) := by
  rw [unpackFrame, hf, hp]

/-- `ENC` refuses direction 3, and operands out of the format's range (R164). -/
theorem execEnc_of_out_of_range {v : Version} {dir : BitVec 2} {func : U16} {s : State}
    (h : dirOfNumber dir = none ∨ encInRange v func s.pbLen.toNat = false) :
    execEnc v dir func s = .next (finish .fieldRange s) := by
  unfold execEnc
  cases hd : dirOfNumber dir with
  | none => rfl
  | some d => simp [h.resolve_left (by simp [hd])]

theorem execEnc_of_hole {v : Version} {dir : BitVec 2} {func : U16} {d : Direction} {s : State}
    (hd : dirOfNumber dir = some d) (hr : encInRange v func s.pbLen.toNat = true) (hp : pbBytes s = none) :
    execEnc v dir func s = pbHole s := by
  simp only [execEnc, hd, hr, if_true, hp]

theorem execEnc_of_payload {v : Version} {dir : BitVec 2} {func : U16} {d : Direction} {p : List Byte} {s : State}
    (hd : dirOfNumber dir = some d) (hr : encInRange v func s.pbLen.toNat = true) (hp : pbBytes s = some p) :
    execEnc v dir func s = .next (installEncoded v d func p s) := by
  simp only [execEnc, hd, hr, if_true, hp]

/-- Every `ENC` is one of the three cases above. -/
theorem execEnc_trichotomy (v : Version) (dir : BitVec 2) (func : U16) (s : State) :
    (dirOfNumber dir = none ∨ encInRange v func s.pbLen.toNat = false) ∨
    ∃ d, dirOfNumber dir = some d ∧ encInRange v func s.pbLen.toNat = true ∧
      (pbBytes s = none ∨ ∃ p, pbBytes s = some p) := by
  cases dirOfNumber dir <;> cases encInRange v func s.pbLen.toNat <;> cases pbBytes s <;> simp

/-- What `ENC` can do where it does not stop (R164). -/
theorem execEnc_cases {v : Version} {dir : BitVec 2} {func : U16} {s t : State} (h : execEnc v dir func s = .next t) :
    t = finish .fieldRange s ∨
    ∃ d p, encInRange v func s.pbLen.toNat = true ∧ pbBytes s = some p ∧ t = installEncoded v d func p s := by
  rcases execEnc_trichotomy v dir func s with hr | ⟨d, hd, hr, hp | ⟨p, hp⟩⟩
  · rw [execEnc_of_out_of_range hr] at h
    cases h
    exact .inl rfl
  · rw [execEnc_of_hole hd hr hp] at h
    cases h
  · rw [execEnc_of_payload hd hr hp] at h
    cases h
    exact .inr ⟨d, p, hr, hp, rfl⟩

theorem isFixedId_iff (v : U16) :
    isFixedId v = true ↔ v = Config.eepromWriteId ∨ v = Config.rawImuId ∨ v = Config.rcId := by
  simp only [isFixedId, Bool.or_eq_true, beq_iff_eq, or_assoc]

/-- `CFG_SETWP_ID` refuses the ids of the other commands (R248). -/
theorem execCfgSetwpId_eq (v : U16) (s : State) :
    execCfgSetwpId v s
      = .next (if isFixedId v then finish .fieldRange s else finish .ok { s with setwpId := some v, ds := .none }) := by
  unfold execCfgSetwpId
  simp only [← isFixedId_iff]
  split <;> rfl

/-! ### Outcomes of the registry and of reads -/

/-- What the registry refuses a payload with (R191, R192). -/
theorem interpret_error_cases {id : Option U16} {func : U16} {dir : Direction} {p : List Byte} {o : OutcomeCode}
    (h : interpret id func dir p = .error o) :
    o = .configUnset ∨ o = .unexpectedFunction ∨ o = .payloadLayoutError := by
  rcases interpret_cases id func dir p with ⟨-, e⟩ | ⟨-, x, hc, e⟩ | ⟨-, c, -, -, e⟩ | ⟨c, -, -, -, e⟩ | ⟨c, -, -, -, e⟩
  all_goals rw [e] at h; cases h
  · unfold cmdOf at hc
    (repeat' split at hc) <;> cases hc <;> simp
  · simp

theorem interpret_error_ne_ok {id : Option U16} {func : U16} {dir : Direction} {p : List Byte} {o : OutcomeCode}
    (h : interpret id func dir p = .error o) : o ≠ .ok := by
  rcases interpret_error_cases h with rfl | rfl | rfl <;> decide

theorem readFr_error {s : State} {pick : FrameRegs → Value} {o : OutcomeCode} (h : readFr s pick = .error o) :
    o = .noValidFrame := by
  unfold readFr at h
  split at h <;> cases h
  rfl

theorem readWp_error {s : State} {pick : Waypoint → Value} {o : OutcomeCode} (h : readWp s pick = .error o) :
    o = .noValidStruct := by
  unfold readWp at h
  split at h <;> cases h <;> rfl

theorem readImu_error {s : State} {pick : ImuSample → Value} {o : OutcomeCode} (h : readImu s pick = .error o) :
    o = .noValidStruct := by
  unfold readImu at h
  split at h <;> cases h <;> rfl

theorem readRc_error {s : State} {k : Nat} {o : OutcomeCode} (h : readRc s k = .error o) : o = .noValidStruct := by
  unfold readRc at h
  split at h <;> cases h <;> rfl

theorem readBasic_error {s : State} {k : Nat} {o : OutcomeCode} (h : readBasic s k = .error o) :
    o = .configUnset ∨ o = .illegalOperation := by
  unfold readBasic at h
  (repeat' split at h) <;> cases h <;> simp

theorem readFrGroup_error {s : State} {k : Nat} {o : OutcomeCode} (h : readFrGroup s k = .error o) :
    o = .noValidFrame ∨ o = .illegalOperation := by
  unfold readFrGroup at h
  split at h
  case h_1 => cases h
  case h_8 => exact .inr (Except.error.inj h).symm
  all_goals exact .inl (readFr_error h)

theorem readWpGroup_error {s : State} {k : Nat} {o : OutcomeCode} (h : readWpGroup s k = .error o) :
    o = .noValidStruct ∨ o = .illegalOperation := by
  unfold readWpGroup at h
  split at h
  case h_1 => cases h
  case h_11 => exact .inr (Except.error.inj h).symm
  all_goals exact .inl (readWp_error h)

theorem readImuGroup_error {s : State} {k : Nat} {o : OutcomeCode} (h : readImuGroup s k = .error o) :
    o = .noValidStruct ∨ o = .illegalOperation := by
  unfold readImuGroup at h
  split at h
  case h_7 => exact .inr (Except.error.inj h).symm
  all_goals exact .inl (readImu_error h)

/-- A read that delivers no value has a failing outcome (R37). -/
theorem readRegister_error_ne_ok {s : State} {reg : Byte} {o : OutcomeCode} (h : readRegister s reg = .error o) :
    o ≠ .ok := by
  unfold readRegister at h
  split at h
  · rcases readBasic_error h with rfl | rfl <;> decide
  split at h
  · rcases readFrGroup_error h with rfl | rfl <;> decide
  split at h
  · rcases readWpGroup_error h with rfl | rfl <;> decide
  split at h
  · rcases readImuGroup_error h with rfl | rfl <;> decide
  split at h
  · rw [readRc_error h]; decide
  · cases h
    decide

/-! ### The inversion of `exec` -/

/-- The payload that a `PACK_*` operation stages (R202 to R205). -/
def packedPayload : Instr → Option (List Byte)
  | .packSetWp w => some (packSetwp w)
  | .packEepromWrite => some packEepromWrite
  | .packRawImu m => some (packRawimu m)
  | .packRc c => some (packRcSample c)
  | _ => none

/-- What `RECV` of some bytes can do to a state (R107, R252): `DEC` refuses what is loaded, or accepts it and `UNPACK` refuses
it, or both accept. -/
inductive Received (s : State) : State → Prop
  | decRefused {bs : List Byte} {e : FrameError} (fits : bs.length ≤ 65544) :
      Received s (rejected bs (frameErrorOutcome e) s)
  | unpackRefused {bs : List Byte} {f : Frame} {n : Nat} {o : OutcomeCode} (fits : bs.length ≤ 65544)
      (decoded : frameDecode bs = .ok (f, n)) (answer : interpret s.setwpId f.func f.direction f.payload = .error o) :
      Received s (finish o (accepted bs f n s))
  | unpacked {bs : List Byte} {f : Frame} {n : Nat} {d : Decoded} (fits : bs.length ≤ 65544)
      (decoded : frameDecode bs = .ok (f, n)) (answer : interpret s.setwpId f.func f.direction f.payload = .ok d) :
      Received s (finish .ok { accepted bs f n s with ds := d })

/-- What an instruction that answers a next state can have done: one case for each instruction and way it can end. -/
inductive Effect (s : State) : Instr → State → Prop
  | csInit (m : Version) : Effect s (.csInit m) (finish .ok { s with csMode := m, csAcc := 0x00 })
  | csUpd (b : Byte) : Effect s (.csUpd b) (finish .ok { s with csAcc := checksumStep s.csMode s.csAcc b })
  | csCmp (b : Byte) (o : OutcomeCode) : Effect s (.csCmp b) (finish o s)
  | read {i : Instr} (isread : isRead i = true) (v : Value) : Effect s i (deliver v s)
  | readFails {i : Instr} {o : OutcomeCode} (isread : isRead i = true) (canFail : cannotFail i = false) (failing : o ≠ .ok) :
      Effect s i (failRead o s)
  | encRefused (v : Version) (dir : BitVec 2) (func : U16) : Effect s (.enc v dir func) (finish .fieldRange s)
  | enc {v : Version} {dir : BitVec 2} {func : U16} {d : Direction} {p : List Byte}
      (inRange : encInRange v func s.pbLen.toNat = true) (payload : pbBytes s = some p) :
      Effect s (.enc v dir func) (installEncoded v d func p s)
  | decRefused (e : FrameError) : Effect s .dec (finish (frameErrorOutcome e) (invalidate s))
  | dec {bs : List Byte} {f : Frame} {n : Nat} (bytes : fbBytes s = some bs) (decoded : frameDecode bs = .ok (f, n)) :
      Effect s .dec (acceptDecoded (.ok (f, n)) s)
  | pack {i : Instr} {p : List Byte} (packs : packedPayload i = some p) : Effect s i (stagePayload p s)
  | unpackRefused {o : OutcomeCode} (failing : o ≠ .ok) : Effect s .unpack (finish o { s with ds := .none })
  | unpack {f : FrameRegs} {p : List Byte} {d : Decoded} (frame : s.fr = some f) (payload : pbBytes s = some p)
      (answer : interpret s.setwpId f.func f.dir p = .ok d) : Effect s .unpack (finish .ok { s with ds := d })
  | fbClr : Effect s .fbClr (clearFrameBuffer s)
  | fbPush (b : Byte) : Effect s (.fbPush b) (pushFrameByte b s)
  | pbClr : Effect s .pbClr (stagePayload [] s)
  | pbPush (b : Byte) : Effect s (.pbPush b) (pushPayloadByte b s)
  | cfgRefused (v : U16) : Effect s (.cfgSetwpId v) (finish .fieldRange s)
  | cfg {v : U16} (free : isFixedId v = false) :
      Effect s (.cfgSetwpId v) (finish .ok { s with setwpId := some v, ds := .none })
  | reset : Effect s .reset (finish .ok { State.reset with port := s.port })
  | wire {i : Instr} {f : Frame} {t : State} (frame : i.frame? = some f) (received : Received s t) : Effect s i t

/-- `RECV` has one of its three ends, whatever the bytes (log 5). -/
theorem received_of_receiveBytes {bs : List Byte} {s t : State} (h : receiveBytes bs s = .next t) : Received s t := by
  have short : ∀ bs : List Byte, bs.length ≤ 65544 → receiveBytes bs s = .next t → Received s t := by
    intro bs hl h
    rw [receiveBytes_eq bs s hl] at h
    split at h <;> cases h
    next => exact .decRefused hl
    next f n hd =>
      cases hi : interpret s.setwpId f.func f.direction f.payload with
      | error o => exact .unpackRefused hl hd hi
      | ok d => exact .unpacked hl hd hi
  by_cases hl : bs.length ≤ 65544
  · exact short bs hl h
  · rw [receiveBytes_take bs s (by omega)] at h
    exact short _ (by simp) h

/-- The inversion of `exec`: every next state comes from one of the cases of `Effect`. -/
theorem effect_of_exec {i : Instr} {s t : State} (h : exec i s = .next t) : Effect s i t := by
  cases hf : i.frame? with
  | some f =>
    rw [exec_of_frame hf] at h
    exact .wire hf (received_of_receiveBytes h)
  | none =>
    cases i with
    | csInit m => cases h; exact .csInit m
    | csUpd b => cases h; exact .csUpd b
    | csRd => cases h; exact .read rfl _
    | csCmp b =>
      simp only [exec, execCsCmp] at h
      split at h <;> cases h <;> exact .csCmp b _
    | enc v dir func =>
      rcases execEnc_cases h with rfl | ⟨d, p, hr, hp, rfl⟩
      · exact .encRefused v dir func
      · exact .enc hr hp
    | dec =>
      rcases decodeFrameBuffer_cases h with ⟨bs, e, -, -, rfl⟩ | ⟨bs, f, n, hb, hd, rfl⟩
      · exact .decRefused e
      · exact .dec hb hd
    | packSetWp w => cases h; exact .pack rfl
    | packEepromWrite => cases h; exact .pack rfl
    | packRawImu m => cases h; exact .pack rfl
    | packRc c => cases h; exact .pack rfl
    | unpack =>
      rcases unpackFrame_cases h with ⟨-, rfl⟩ | ⟨f, p, e, -, -, hi, rfl⟩ | ⟨f, p, d, hf, hp, hi, rfl⟩
      · exact .unpackRefused (by decide)
      · exact .unpackRefused (interpret_error_ne_ok hi)
      · exact .unpack hf hp hi
    | fbClr => cases h; exact .fbClr
    | fbPush b => cases h; exact .fbPush b
    | fbRd k =>
      change execFbRd k s = _ at h
      rcases Nat.lt_or_ge k.toNat s.fbLen.toNat with hk | hk
      · cases hb : Memory.read s.fb k.toNat with
        | none => rw [execFbRd_of_hole hk hb] at h; cases h
        | some b => rw [execFbRd_of_listed hk hb] at h; cases h; exact .read rfl (.u8 b)
      · rw [execFbRd_of_le hk] at h; cases h; exact .readFails rfl rfl (by decide)
    | pbClr => cases h; exact .pbClr
    | pbPush b => cases h; exact .pbPush b
    | pbRd k =>
      change execPbRd k s = _ at h
      rcases Nat.lt_or_ge k.toNat s.pbLen.toNat with hk | hk
      · cases hb : Memory.read s.pb k.toNat with
        | none => rw [execPbRd_of_hole hk hb] at h; cases h
        | some b => rw [execPbRd_of_listed hk hb] at h; cases h; exact .read rfl (.u8 b)
      · rw [execPbRd_of_le hk] at h; cases h; exact .readFails rfl rfl (by decide)
    | rd reg =>
      rcases execRd_cases s reg with ⟨v, -, e⟩ | ⟨o, ho, e⟩ <;> rw [e] at h <;> cases h
      · exact .read rfl v
      · exact .readFails rfl rfl (readRegister_error_ne_ok ho)
    | cfgSetwpId v =>
      change execCfgSetwpId v s = _ at h
      rw [execCfgSetwpId_eq] at h
      cases h
      split
      next => exact .cfgRefused v
      next hv => exact .cfg (Bool.eq_false_iff.2 hv)
    | reset => cases h; exact .reset
    | _ => cases hf

/-! ### The parts of the invariant -/

theorem inv_iff (s : State) :
    s.inv = true ↔ s.buffersHeld = true ∧ s.frameHeld = true ∧ s.decodedHeld = true ∧ s.configHeld = true := by
  simp only [State.inv, Bool.and_eq_true, and_assoc]

theorem buffersHeld_of_ofBytes {s : State} {bs p : List Byte} (hfb : s.fb = Memory.ofBytes bs)
    (hfbLen : s.fbLen.toNat = bs.length) (hpb : s.pb = Memory.ofBytes p) (hpbLen : s.pbLen.toNat = p.length)
    (fits : bs.length ≤ 65544) : s.buffersHeld = true :=
  (buffersHeld_iff s).2 ⟨bs, p, hfbLen.symm, hfb, hpbLen.symm, hpb, hfbLen ▸ fits⟩

theorem toNat_ofNat_of_lt {w n : Nat} (h : n < 2 ^ w) : (BitVec.ofNat w n).toNat = n := by
  rw [BitVec.toNat_ofNat, Nat.mod_eq_of_lt h]

/-- R27: the held frame is what `decode` finds; that `FR_SIZE` is within `FB_LEN` follows (R163). -/
theorem frameHeld_of_frameDecode {s : State} {f : FrameRegs} {bs p : List Byte} (hf : s.fr = some f)
    (hfb : fbBytes s = some bs) (hpb : pbBytes s = some p)
    (hd : frameDecode bs = .ok (frameOfRegs f p, f.size.toNat)) : s.frameHeld = true := by
  have hsize : f.size.toNat ≤ s.fbLen.toNat := by
    obtain ⟨-, hn, rest, hbs⟩ := (frameDecode_ok_iff _ _ _).1 hd
    rw [← fbBytes_length hfb, hn, hbs]
    simp
  simp [State.frameHeld, hf, hfb, hpb, hd, hsize]

theorem frameHeld_of_none {s : State} (hf : s.fr = none) : s.frameHeld = true := by
  simp only [State.frameHeld, hf]

theorem decodedHeld_of_none {s : State} (hd : s.ds = .none) : s.decodedHeld = true := by
  simp only [State.decodedHeld, hd]

theorem decodedHeld_of_interpret {s : State} {f : FrameRegs} {p : List Byte} (hf : s.fr = some f)
    (hp : pbBytes s = some p) (hi : interpret s.setwpId f.func f.dir p = .ok s.ds) : s.decodedHeld = true := by
  unfold State.decodedHeld
  cases hds : s.ds <;> simp [hf, hp, hi, hds]

/-- Where nothing is held as a frame the invariant is about the buffers and `SETWP_ID` alone. -/
theorem inv_of_no_frame {s : State} (hb : s.buffersHeld = true) (hf : s.fr = none) (hd : s.ds = .none)
    (hc : s.configHeld = true) : s.inv = true :=
  (inv_iff s).2 ⟨hb, frameHeld_of_none hf, decodedHeld_of_none hd, hc⟩

/-! ### What each update does to the invariant

The invariant reads neither the checksum engine's registers nor `ERR`, the port or the delivery: an operation that changes only
these keeps it as it stands. -/

/-- Dropping the decoded structure keeps the invariant (R28). -/
theorem inv_drop_decoded {s : State} (h : s.inv = true) : ({ s with ds := .none } : State).inv = true := by
  obtain ⟨hb, hf, -, hc⟩ := (inv_iff s).1 h
  exact (inv_iff _).2 ⟨hb, hf, decodedHeld_of_none rfl, hc⟩

/-- Dropping the frame and the decoded structure keeps the invariant (R27, R28). -/
theorem inv_invalidate {s : State} (h : s.inv = true) : (invalidate s).inv = true := by
  obtain ⟨hb, -, -, hc⟩ := (inv_iff s).1 h
  exact inv_of_no_frame hb rfl rfl hc

/-- Loading `FB` keeps the invariant (R107). -/
theorem inv_loaded {s : State} {bs : List Byte} (h : s.inv = true) (fits : bs.length ≤ 65544) : (loaded bs s).inv = true := by
  obtain ⟨hb, -, -, hc⟩ := (inv_iff s).1 h
  obtain ⟨p, -, hpb, hp⟩ := buffersHeld_pbBytes hb
  exact inv_of_no_frame (buffersHeld_of_ofBytes rfl (toNat_ofNat_of_lt (by omega)) hpb hp.symm fits) rfl rfl hc

theorem inv_clearFrameBuffer {s : State} (h : s.inv = true) : (clearFrameBuffer s).inv = true :=
  inv_loaded (s := s) (bs := []) h (by decide)

/-- Staging a payload that fits `PB` keeps the invariant (R202 to R205, R244). -/
theorem inv_stagePayload {s : State} {p : List Byte} (h : s.inv = true) (fits : p.length ≤ 65535) :
    (stagePayload p s).inv = true := by
  obtain ⟨hb, -, -, hc⟩ := (inv_iff s).1 h
  obtain ⟨bs, q, hbl, hfb, -, -, hle⟩ := (buffersHeld_iff s).1 hb
  exact inv_of_no_frame
    (buffersHeld_of_ofBytes hfb hbl.symm rfl (toNat_ofNat_of_lt (by omega)) (hbl ▸ hle)) rfl rfl hc

/-- A push onto `FB` appends its byte or is refused (R242). -/
theorem inv_pushFrameByte {s : State} (b : Byte) (h : s.inv = true) : (pushFrameByte b s).inv = true := by
  rcases pushFrameByte_cases b s with ⟨-, e⟩ | ⟨hne, e⟩ <;> rw [e]
  · exact h
  obtain ⟨hb, -, -, hc⟩ := (inv_iff s).1 h
  obtain ⟨bs, p, hbl, hfb, hpl, hpb, hle⟩ := (buffersHeld_iff s).1 hb
  have hlen : (s.fbLen + 1).toNat = (bs ++ [b]).length := by
    rw [BitVec.toNat_add, List.length_append, hbl]
    exact Nat.mod_eq_of_lt (by change _ + 1 < 2 ^ 17; omega)
  have hmem : Memory.write s.fb s.fbLen.toNat b = Memory.ofBytes (bs ++ [b]) := by
    rw [hfb, ← hbl, Memory.write_ofBytes_end]
  exact inv_of_no_frame (buffersHeld_of_ofBytes hmem hlen hpb hpl.symm (by simp; omega)) rfl rfl hc

/-- A push onto `PB` appends its byte or is refused (R245). -/
theorem inv_pushPayloadByte {s : State} (b : Byte) (h : s.inv = true) : (pushPayloadByte b s).inv = true := by
  rcases pushPayloadByte_cases b s with ⟨-, e⟩ | ⟨hne, e⟩ <;> rw [e]
  · exact h
  obtain ⟨hb, -, -, hc⟩ := (inv_iff s).1 h
  obtain ⟨bs, p, hbl, hfb, hpl, hpb, hle⟩ := (buffersHeld_iff s).1 hb
  have hlen : (s.pbLen + 1).toNat = (p ++ [b]).length := by
    rw [BitVec.toNat_add, List.length_append, hpl]
    exact Nat.mod_eq_of_lt (by change _ + 1 < 2 ^ 16; omega)
  have hmem : Memory.write s.pb s.pbLen.toNat b = Memory.ofBytes (p ++ [b]) := by
    rw [hpb, ← hpl, Memory.write_ofBytes_end]
  exact inv_of_no_frame (buffersHeld_of_ofBytes hfb hbl.symm hmem hlen (by omega)) rfl rfl hc

/-- `DEC` installs what `decode` finds in `FB` (R165). -/
theorem inv_acceptDecoded {s : State} {bs : List Byte} {f : Frame} {n : Nat} (h : s.inv = true)
    (hbs : fbBytes s = some bs) (hd : frameDecode bs = .ok (f, n)) : (acceptDecoded (.ok (f, n)) s).inv = true := by
  obtain ⟨hb, -, -, hc⟩ := (inv_iff s).1 h
  obtain ⟨cs, p, hbl, hfb, -, -, hle⟩ := (buffersHeld_iff s).1 hb
  obtain ⟨hr, hn, rest, hrest⟩ := (splitFrame_ok_iff bs f n).1 (frameDecode_ok hd).1
  have hpl : (BitVec.ofNat 16 f.payload.length).toNat = f.payload.length :=
    toNat_ofNat_of_lt (Nat.lt_succ_of_le (payload_length_of_inRange hr))
  have hsize : (BitVec.ofNat 17 n).toNat = n := by
    have := congrArg List.length hrest
    rw [fbBytes_length hbs, List.length_append, frameBytes_length, ← hn] at this
    exact toNat_ofNat_of_lt (by omega)
  refine (inv_iff _).2 ⟨buffersHeld_of_ofBytes hfb hbl.symm rfl hpl (hbl ▸ hle), ?_, decodedHeld_of_none rfl, hc⟩
  refine frameHeld_of_frameDecode (f := frameRegsOf f n) rfl hbs (pbBytes_of_ofBytes rfl hpl) ?_
  rw [hd, frameRegsOf, hsize]
  rfl

/-- `UNPACK` installs what the registry gives for the held frame (R206). -/
theorem inv_unpacked {s : State} {f : FrameRegs} {p : List Byte} {d : Decoded} (h : s.inv = true) (hf : s.fr = some f)
    (hp : pbBytes s = some p) (hi : interpret s.setwpId f.func f.dir p = .ok d) : ({ s with ds := d } : State).inv = true := by
  obtain ⟨hb, hframe, -, hc⟩ := (inv_iff s).1 h
  exact (inv_iff _).2 ⟨hb, hframe, decodedHeld_of_interpret hf hp hi, hc⟩

/-- `CFG_SETWP_ID` of an id that is no other command's (R248). -/
theorem inv_configured {s : State} {v : U16} (h : s.inv = true) (free : isFixedId v = false) :
    ({ s with setwpId := some v, ds := .none } : State).inv = true := by
  obtain ⟨hb, hf, -, -⟩ := (inv_iff s).1 h
  exact (inv_iff _).2 ⟨hb, hf, decodedHeld_of_none rfl, by simp only [State.configHeld, free, Bool.not_false]⟩

/-! ### `ENC` -/

/-- The frame that `ENC` writes (R164): both formats with flag 0x00 (R96). -/
def encodedFrame (v : Version) (d : Direction) (func : U16) (p : List Byte) : Frame :=
  sealFrame { version := v, direction := d, flag := 0, func := func, payload := p, checksum := 0 }

theorem frameEncode_eq (v : Version) (d : Direction) (func : U16) (p : List Byte) :
    frameEncode v d func p = frameBytes (encodedFrame v d func p) := by
  cases v <;> rfl

theorem frameChecksum_sealFrame (f : Frame) : frameChecksum (sealFrame f) = (sealFrame f).checksum := by
  obtain ⟨v, d, g, func, p, c⟩ := f
  cases v <;> rfl

/-- R98: operands that `ENC` accepts give a frame in range. -/
theorem encodedFrame_inRange {v : Version} {d : Direction} {func : U16} {p : List Byte}
    (hr : encInRange v func p.length = true) (hp : p.length ≤ 65535) : (encodedFrame v d func p).inRange = true := by
  cases v with
  | v1 =>
    obtain ⟨hfunc, hlen⟩ := Bool.and_eq_true_iff.1 hr
    exact (inRange_v1_iff rfl).2 ⟨rfl, of_decide_eq_true hfunc, of_decide_eq_true hlen⟩
  | v2 => exact (inRange_v2_iff rfl).2 hp

/-- `decode` of what `ENC` writes is the frame written (R166). -/
theorem frameDecode_frameEncode {v : Version} {d : Direction} {func : U16} {p : List Byte}
    (hr : encInRange v func p.length = true) (hp : p.length ≤ 65535) :
    frameDecode (frameEncode v d func p) = .ok (encodedFrame v d func p, (frameEncode v d func p).length) := by
  have hd := frameDecode_frameBytes _ [] (encodedFrame_inRange (d := d) hr hp)
  have hck : frameChecksum (encodedFrame v d func p) = (encodedFrame v d func p).checksum := frameChecksum_sealFrame _
  rw [List.append_nil, if_pos hck] at hd
  rw [frameEncode_eq, hd, frameBytes_length]

theorem frameEncode_length (v : Version) (d : Direction) (func : U16) (p : List Byte) :
    (frameEncode v d func p).length = frameSize v p.length := by
  rw [frameEncode_eq, frameBytes_length]
  rfl

theorem frameSize_le (v : Version) {len : Nat} (h : len ≤ 65535) : frameSize v len ≤ 65544 := by
  have : hdr v ≤ 8 := by cases v <;> decide
  unfold frameSize
  omega

/-- The last byte of what `ENC` writes is the checksum byte (R91, R92). -/
theorem byteAt_frameEncode_last (v : Version) (d : Direction) (func : U16) (p : List Byte) :
    byteAt (frameEncode v d func p) ((frameEncode v d func p).length - 1) = (encodedFrame v d func p).checksum := by
  have h := byteAt_frameBytes_checksum (encodedFrame v d func p) []
  rw [List.append_nil] at h
  rw [frameEncode_length, frameEncode_eq]
  exact h

/-- `ENC` installs a frame that `decode` finds in `FB` (R164, R166). -/
theorem inv_installEncoded {s : State} {v : Version} {func : U16} {p : List Byte} (d : Direction) (h : s.inv = true)
    (hr : encInRange v func s.pbLen.toNat = true) (hp : pbBytes s = some p) :
    (installEncoded v d func p s).inv = true := by
  obtain ⟨hb, -, -, hc⟩ := (inv_iff s).1 h
  obtain ⟨q, hq, hpb, hql⟩ := buffersHeld_pbBytes hb
  cases hp.symm.trans hq
  have hpl : p.length ≤ 65535 := by omega
  have hle : (frameEncode v d func p).length ≤ 65544 := frameEncode_length v d func p ▸ frameSize_le v hpl
  have hlen : (BitVec.ofNat 17 (frameEncode v d func p).length).toNat = (frameEncode v d func p).length :=
    toNat_ofNat_of_lt (by omega)
  refine (inv_iff _).2 ⟨buffersHeld_of_ofBytes rfl hlen hpb hql.symm hle, ?_, decodedHeld_of_none rfl, hc⟩
  refine frameHeld_of_frameDecode rfl (fbBytes_of_ofBytes rfl hlen) hp ?_
  rw [frameDecode_frameEncode (hql ▸ hr) hpl, byteAt_frameEncode_last, hlen]
  rfl

/-! ### Every instruction and every step -/

/-- `RECV` keeps the invariant (R107, R252). -/
theorem Received.inv {s t : State} (r : Received s t) (h : s.inv = true) : t.inv = true := by
  cases r with
  | decRefused fits => exact inv_invalidate (inv_loaded h fits)
  | unpackRefused fits decoded answer => exact inv_acceptDecoded (inv_loaded h fits) (fbBytes_loaded _ s fits) decoded
  | @unpacked bs f n d fits decoded answer =>
    have hr := ((splitFrame_ok_iff bs f n).1 (frameDecode_ok decoded).1).1
    have hp : pbBytes (accepted bs f n s) = some f.payload :=
      pbBytes_of_ofBytes rfl (toNat_ofNat_of_lt (Nat.lt_succ_of_le (payload_length_of_inRange hr)))
    exact inv_unpacked (s := accepted bs f n s)
      (inv_acceptDecoded (inv_loaded h fits) (fbBytes_loaded bs s fits) decoded) rfl hp answer

/-- Every `PACK_*` payload fits `PB` (R193 to R196). -/
theorem packedPayload_length_le {i : Instr} {p : List Byte} (h : packedPayload i = some p) : p.length ≤ 65535 := by
  cases i <;> cases h
  case packSetWp w => exact Nat.le_of_ble_eq_true rfl
  case packEepromWrite => exact Nat.zero_le _
  case packRawImu m => exact Nat.le_of_ble_eq_true rfl
  case packRc c => exact Nat.le_of_ble_eq_true rfl

/-- The reset state holds nothing (R39). -/
theorem inv_reset : State.reset.inv = true := inv_of_no_frame (by decide) rfl rfl rfl

/-- Every instruction keeps the invariant. -/
theorem Effect.inv {s t : State} {i : Instr} (e : Effect s i t) (h : s.inv = true) : t.inv = true := by
  cases e with
  | csInit | csUpd | csCmp | read | readFails | encRefused | cfgRefused => exact h
  | enc inRange payload => exact inv_installEncoded _ h inRange payload
  | decRefused e => exact inv_invalidate (s := s) h
  | dec bytes decoded => exact inv_acceptDecoded h bytes decoded
  | pack packs => exact inv_stagePayload h (packedPayload_length_le packs)
  | unpackRefused => exact inv_drop_decoded (s := s) h
  | unpack frame payload answer => exact inv_unpacked (s := s) h frame payload answer
  | fbClr => exact inv_clearFrameBuffer h
  | fbPush b => exact inv_pushFrameByte b h
  | pbClr => exact inv_stagePayload h (Nat.zero_le _)
  | pbPush b => exact inv_pushPayloadByte b h
  | cfg free => exact inv_configured (s := s) h free
  | reset => exact inv_reset
  | wire frame received => exact received.inv h

/-- A next state is the present one (nothing presented), comes from an instruction or from received bytes, or is that of an
undefined operation number (R240, R250; logs 3, 4 and 5). -/
theorem step_cases {s t : State} (h : step s = .next t) :
    (s.port = [] ∧ t = s) ∨
    ∃ p rest, s.port = p :: rest ∧
      ((∃ i, decode p = .ok i ∧ exec i { s with port := rest } = .next t) ∨
       (∃ bs, p = .frame bs ∧ receiveBytes bs { s with port := rest } = .next t) ∨
       t = illegalOperation { s with port := rest }) := by
  unfold step fetch at h
  split at h
  next hfetch =>
    split at hfetch
    next hp => cases h; exact .inl ⟨hp, rfl⟩
    next => cases hfetch
  next p u hfetch =>
    split at hfetch
    next => cases hfetch
    next p rest hp =>
      cases hfetch
      refine .inr ⟨p, rest, hp, ?_⟩
      split at h
      next i hi => exact .inl ⟨i, hi, h⟩
      next e _ =>
        cases p with
        | frame bs => exact .inr (.inl ⟨bs, rfl, h⟩)
        | operation bs =>
          cases e <;> cases h
          exact .inr (.inr rfl)

/-- The invariant is kept by every step (R24, R25, R27, R28, R32). -/
theorem inv_step {s t : State} (h : s.inv = true) (hs : step s = .next t) : t.inv = true := by
  rcases step_cases hs with ⟨-, rfl⟩ | ⟨p, rest, -, ⟨i, -, he⟩ | ⟨bs, -, hr⟩ | rfl⟩
  · exact h
  · exact (effect_of_exec he).inv h
  · exact (received_of_receiveBytes hr).inv h
  · exact h

/-- Buffers that hold their valid bytes are in canonical form (R24, R25). -/
theorem wf_of_buffersHeld {s : State} (h : s.buffersHeld = true) : Memory.wf s.fb = true ∧ Memory.wf s.pb = true := by
  obtain ⟨bs, p, -, hfb, -, hpb, -⟩ := (buffersHeld_iff s).1 h
  rw [hfb, hpb]
  exact ⟨Memory.wf_ofBytes bs, Memory.wf_ofBytes p⟩

/-- Settles O57, by the case analysis of `step_cases` and `Effect`: each way a step can end keeps the invariant. -/
theorem stepKeepsInvariant : Obligations.StepKeepsInvariant := by
  intro s t h hs
  have ht := inv_step h hs
  exact ⟨ht, wf_of_buffersHeld ((inv_iff t).1 ht).1⟩

/-- Settles O58. -/
theorem resetHasInvariant : Obligations.ResetHasInvariant := inv_reset

/-! ### What is delivered (O54) -/

theorem isRead_of_packedPayload {i : Instr} {p : List Byte} (h : packedPayload i = some p) : isRead i = false := by
  cases i <;> cases h <;> rfl

theorem isRead_of_frame {i : Instr} {f : Frame} (h : i.frame? = some f) : isRead i = false := by
  cases i <;> cases h <;> rfl

/-- A received frame leaves in `ERR` the outcome it delivers, that of the last operation of its sequence (log 4). -/
theorem Received.reply_eq {s t : State} (r : Received s t) : t.reply = some ⟨t.err, none⟩ := by
  cases r <;> rfl

/-- Every operation but the four reads stores the outcome that it delivers (R270, R284). -/
theorem Effect.reply_eq {s t : State} {i : Instr} (e : Effect s i t) (hi : isRead i = false) :
    t.reply = some ⟨t.err, none⟩ := by
  cases e with
  | read isread | readFails isread => exact absurd (hi.symm.trans isread) Bool.false_ne_true
  | fbPush b => rcases pushFrameByte_cases b s with ⟨-, e⟩ | ⟨-, e⟩ <;> simp [e]
  | pbPush b => rcases pushPayloadByte_cases b s with ⟨-, e⟩ | ⟨-, e⟩ <;> simp [e]
  | wire frame received => exact received.reply_eq
  | _ => rfl

/-- The four reads deliver a value or a failing outcome and do nothing else (R66). -/
theorem Effect.of_read {s t : State} {i : Instr} (e : Effect s i t) (hi : isRead i = true) :
    (∃ v, t = deliver v s) ∨ (∃ o, o ≠ .ok ∧ t = failRead o s) := by
  cases e with
  | read _ v => exact .inl ⟨v, rfl⟩
  | readFails _ _ failing => exact .inr ⟨_, failing, rfl⟩
  | pack packs => exact absurd ((isRead_of_packedPayload packs).symm.trans hi) Bool.false_ne_true
  | wire frame => exact absurd ((isRead_of_frame frame).symm.trans hi) Bool.false_ne_true
  | _ => cases hi

/-- Settles O54: `finish` ends every operation but the reads, `deliver` and `failRead` end those. -/
theorem outcomeIsStoredAndDelivered : Obligations.OutcomeIsStoredAndDelivered := by
  intro i s t h
  have e := effect_of_exec h
  refine ⟨e.reply_eq, fun hi => ?_⟩
  rcases e.of_read hi with ⟨v, rfl⟩ | ⟨o, ho, rfl⟩
  · exact ⟨rfl, .ok, some v, rfl, by simp⟩
  · exact ⟨rfl, o, none, rfl, by simp [ho]⟩

/-! ### Decoded structures (O55) -/

/-- Settles O55: of the host operations but `UNPACK`, those that write `FR`, `PB` or `SETWP_ID` clear `DS_KIND` (R27, R28). -/
theorem decodedNeverStale : Obligations.DecodedNeverStale := by
  intro i s t h hne hhost
  cases effect_of_exec h with
  | csInit | csUpd | csCmp | read | readFails | encRefused | cfgRefused => exact .inr ⟨rfl, rfl, rfl, rfl, rfl⟩
  | enc | decRefused | dec | pack | fbClr | pbClr | cfg | reset => exact .inl rfl
  | unpackRefused | unpack => exact absurd rfl hne
  | fbPush b =>
    rcases pushFrameByte_cases b s with ⟨-, e⟩ | ⟨-, e⟩ <;> rw [e]
    · exact .inr ⟨rfl, rfl, rfl, rfl, rfl⟩
    · exact .inl rfl
  | pbPush b =>
    rcases pushPayloadByte_cases b s with ⟨-, e⟩ | ⟨-, e⟩ <;> rw [e]
    · exact .inr ⟨rfl, rfl, rfl, rfl, rfl⟩
    · exact .inl rfl
  | wire frame => rw [hhost] at frame; cases frame

/-! ### The write matrix (O53) -/

/-- What a cell `w` of the write matrix says of a state and its successor. -/
def Writes.Allows (w : Writes) (s t : State) : Prop :=
  (w.csAcc = false → t.csAcc = s.csAcc) ∧ (w.csMode = false → t.csMode = s.csMode) ∧ (w.err = false → t.err = s.err) ∧
  (w.fb = .kept → t.fb = s.fb ∧ t.fbLen = s.fbLen) ∧ (w.fb = .cleared → t.fb = [] ∧ t.fbLen = 0) ∧
  (w.pb = .kept → t.pb = s.pb ∧ t.pbLen = s.pbLen) ∧ (w.pb = .cleared → t.pb = [] ∧ t.pbLen = 0) ∧
  (w.frame = .kept → t.fr = s.fr) ∧ (w.frame = .cleared → t.fr = none) ∧ (w.frame = .written → t.fr.isSome = true) ∧
  (w.decoded = .kept → t.ds = s.ds) ∧ (w.decoded = .cleared → t.ds = .none) ∧ (w.decoded = .written → t.ds ≠ .none) ∧
  (w.config = .kept → t.setwpId = s.setwpId) ∧ (w.config = .cleared → t.setwpId = none) ∧
  (w.config = .written → t.setwpId.isSome = true) ∧
  t.port = s.port

theorem writesOf_of_isRead {i : Instr} (h : isRead i = true) (o : OutcomeCode) : writesOf i o = { err := false } := by
  cases i <;> cases h <;> rfl

theorem writesOf_of_packedPayload {i : Instr} {p : List Byte} (h : packedPayload i = some p) (o : OutcomeCode) :
    writesOf i o = { pb := .written, frame := .cleared, decoded := .cleared } := by
  cases i <;> cases h <;> rfl

theorem writesOf_of_frame {i : Instr} {f : Frame} (h : i.frame? = some f) (o : OutcomeCode) : writesOf i o = wireWrites o := by
  cases i <;> cases h <;> rfl

theorem cannotFail_of_frame {i : Instr} {f : Frame} (h : i.frame? = some f) : cannotFail i = false := by
  cases i <;> cases h <;> rfl

/-- A received frame writes what the model's row for the wire says of its outcome (log 4). -/
theorem Received.allowed {s t : State} (r : Received s t) :
    ∃ o, t.reply = some ⟨o, none⟩ ∧ (wireWrites o).Allows s t := by
  cases r with
  | @decRefused bs e fits =>
    have he : isDecFailure (frameErrorOutcome e) = true := by cases e <;> rfl
    exact ⟨_, rfl, by simp [Writes.Allows, wireWrites, he, rejected]⟩
  | @unpackRefused bs f n o fits decoded answer =>
    have ho : isDecFailure o = false ∧ o ≠ .ok := by
      rcases interpret_error_cases answer with rfl | rfl | rfl <;> decide
    exact ⟨o, rfl, by simp [Writes.Allows, wireWrites, ho, accepted]⟩
  | unpacked fits decoded answer =>
    have hd := interpret_ne_none answer
    exact ⟨.ok, rfl, by simp [Writes.Allows, wireWrites, isDecFailure, accepted, hd]⟩

/-- Every instruction writes what its row of the matrix says of its outcome, and the rows that cannot fail do not (R38). -/
theorem Effect.allowed {s t : State} {i : Instr} (e : Effect s i t) :
    ∃ o v, t.reply = some ⟨o, v⟩ ∧ (cannotFail i = true → o = .ok) ∧ (writesOf i o).Allows s t := by
  cases e with
  | csInit | csUpd => exact ⟨.ok, none, rfl, fun _ => rfl, by simp [Writes.Allows, writesOf]⟩
  | csCmp b o => exact ⟨o, none, rfl, nofun, by simp [Writes.Allows, writesOf]⟩
  | read isread v => exact ⟨.ok, some v, rfl, fun _ => rfl, by simp [Writes.Allows, writesOf_of_isRead isread]⟩
  | readFails isread canFail =>
    exact ⟨_, none, rfl, by simp [canFail], by simp [Writes.Allows, writesOf_of_isRead isread]⟩
  | encRefused | cfgRefused => exact ⟨.fieldRange, none, rfl, nofun, by simp [Writes.Allows, writesOf]⟩
  | enc => exact ⟨.ok, none, rfl, nofun, by simp [Writes.Allows, writesOf, installEncoded]⟩
  | decRefused e => exact ⟨frameErrorOutcome e, none, rfl, nofun, by simp [Writes.Allows, writesOf]⟩
  | dec => exact ⟨.ok, none, rfl, nofun, by simp [Writes.Allows, writesOf, acceptDecoded]⟩
  | pack packs => exact ⟨.ok, none, rfl, fun _ => rfl, by simp [Writes.Allows, writesOf_of_packedPayload packs]⟩
  | unpackRefused failing => exact ⟨_, none, rfl, nofun, by simp [Writes.Allows, writesOf, failing]⟩
  | unpack _ _ answer =>
    have hd := interpret_ne_none answer
    exact ⟨.ok, none, rfl, nofun, by simp [Writes.Allows, writesOf, hd]⟩
  | fbClr | pbClr => exact ⟨.ok, none, rfl, fun _ => rfl, by simp [Writes.Allows, writesOf, Memory.ofBytes, Memory.ofBytesFrom]⟩
  | fbPush b =>
    rcases pushFrameByte_cases b s with ⟨-, e⟩ | ⟨-, e⟩ <;> rw [e]
    · exact ⟨.bufferFull, none, rfl, nofun, by simp [Writes.Allows, writesOf]⟩
    · exact ⟨.ok, none, rfl, nofun, by simp [Writes.Allows, writesOf]⟩
  | pbPush b =>
    rcases pushPayloadByte_cases b s with ⟨-, e⟩ | ⟨-, e⟩ <;> rw [e]
    · exact ⟨.bufferFull, none, rfl, nofun, by simp [Writes.Allows, writesOf]⟩
    · exact ⟨.ok, none, rfl, nofun, by simp [Writes.Allows, writesOf]⟩
  | cfg => exact ⟨.ok, none, rfl, nofun, by simp [Writes.Allows, writesOf]⟩
  | reset => exact ⟨.ok, none, rfl, fun _ => rfl, by simp [Writes.Allows, writesOf, State.reset]⟩
  | wire frame received =>
    obtain ⟨o, hreply, hrow⟩ := received.allowed
    exact ⟨o, none, hreply, by simp [cannotFail_of_frame frame], writesOf_of_frame frame o ▸ hrow⟩

/-- Settles O53. -/
theorem writeMatrix : Obligations.WriteMatrix := fun _ _ _ h => (effect_of_exec h).allowed

/-! ### The checksum engine's registers (O4) -/

/-- `s` with other values in the two registers of the checksum engine (R22, R23). -/
def withCs (a : Byte) (m : Version) (s : State) : State := { s with csAcc := a, csMode := m }

/-- A result with its next state, if it is one, changed by `g`. -/
def mapNext (g : State → State) : Result → Result
  | .next t => .next (g t)
  | .fault r => .fault r
  | .refused r => .refused r

section
variable (a : Byte) (m : Version)

theorem pushFrameByte_withCs (b : Byte) (s : State) : pushFrameByte b (withCs a m s) = withCs a m (pushFrameByte b s) := by
  by_cases h : s.fbLen.toNat = 65544
  · rw [pushFrameByte_of_full b h, pushFrameByte_of_full (s := withCs a m s) b h]
    rfl
  · rw [pushFrameByte_of_room b h, pushFrameByte_of_room (s := withCs a m s) b h]
    rfl

theorem pushPayloadByte_withCs (b : Byte) (s : State) :
    pushPayloadByte b (withCs a m s) = withCs a m (pushPayloadByte b s) := by
  by_cases h : s.pbLen.toNat = 65535
  · rw [pushPayloadByte_of_full b h, pushPayloadByte_of_full (s := withCs a m s) b h]
    rfl
  · rw [pushPayloadByte_of_room b h, pushPayloadByte_of_room (s := withCs a m s) b h]
    rfl

theorem foldl_pushFrameByte_withCs (bs : List Byte) (s : State) :
    bs.foldl (fun t b => pushFrameByte b t) (withCs a m s) = withCs a m (bs.foldl (fun t b => pushFrameByte b t) s) := by
  induction bs generalizing s with
  | nil => rfl
  | cons b bs ih => rw [List.foldl_cons, pushFrameByte_withCs, ih, List.foldl_cons]

theorem loadFrameBytes_withCs (bs : List Byte) (s : State) :
    loadFrameBytes bs (withCs a m s) = withCs a m (loadFrameBytes bs s) :=
  foldl_pushFrameByte_withCs a m bs (clearFrameBuffer s)

theorem acceptDecoded_withCs (r : Except FrameError (Frame × Nat)) (s : State) :
    acceptDecoded r (withCs a m s) = withCs a m (acceptDecoded r s) := by
  cases r <;> rfl

theorem acceptInterpreted_withCs (r : Except OutcomeCode Decoded) (s : State) :
    acceptInterpreted r (withCs a m s) = withCs a m (acceptInterpreted r s) := by
  cases r <;> rfl

theorem decodeFrameBuffer_withCs (s : State) :
    decodeFrameBuffer (withCs a m s) = mapNext (withCs a m) (decodeFrameBuffer s) := by
  cases h : fbBytes s with
  | none =>
    rw [decodeFrameBuffer_of_hole h, decodeFrameBuffer_of_hole (s := withCs a m s) h]
    rfl
  | some bs =>
    rw [decodeFrameBuffer_eq h, decodeFrameBuffer_eq (s := withCs a m s) h, acceptDecoded_withCs]
    rfl

theorem unpackFrame_withCs (s : State) : unpackFrame (withCs a m s) = mapNext (withCs a m) (unpackFrame s) := by
  cases hf : s.fr with
  | none =>
    rw [unpackFrame_of_no_frame hf, unpackFrame_of_no_frame (s := withCs a m s) hf]
    rfl
  | some f =>
    cases hp : pbBytes s with
    | none =>
      rw [unpackFrame_of_hole hf hp, unpackFrame_of_hole (s := withCs a m s) hf hp]
      rfl
    | some p =>
      rw [unpackFrame_of_payload hf hp, unpackFrame_of_payload (s := withCs a m s) hf hp, acceptInterpreted_withCs]
      rfl

theorem receiveBytes_withCs (bs : List Byte) (s : State) :
    receiveBytes bs (withCs a m s) = mapNext (withCs a m) (receiveBytes bs s) := by
  rw [receiveBytes, receiveBytes, loadFrameBytes_withCs, decodeFrameBuffer_withCs]
  cases decodeFrameBuffer (loadFrameBytes bs s) with
  | next t =>
    simp only [mapNext]
    by_cases h : t.err = .ok
    · rw [if_pos h, if_pos (show (withCs a m t).err = .ok from h), unpackFrame_withCs]
      rfl
    · rw [if_neg h, if_neg (show (withCs a m t).err ≠ .ok from h)]
  | fault r => rfl
  | refused r => rfl

theorem execEnc_withCs (v : Version) (dir : BitVec 2) (func : U16) (s : State) :
    execEnc v dir func (withCs a m s) = mapNext (withCs a m) (execEnc v dir func s) := by
  rcases execEnc_trichotomy v dir func s with hr | ⟨d, hd, hr, hp | ⟨p, hp⟩⟩
  · rw [execEnc_of_out_of_range hr, execEnc_of_out_of_range (s := withCs a m s) hr]
    rfl
  · rw [execEnc_of_hole hd hr hp, execEnc_of_hole (s := withCs a m s) hd hr hp]
    rfl
  · rw [execEnc_of_payload hd hr hp, execEnc_of_payload (s := withCs a m s) hd hr hp]
    rfl

theorem execFbRd_withCs (i : U17) (s : State) :
    execFbRd i (withCs a m s) = mapNext (withCs a m) (execFbRd i s) := by
  rcases Nat.lt_or_ge i.toNat s.fbLen.toNat with h | h
  · cases hb : Memory.read s.fb i.toNat with
    | none => rw [execFbRd_of_hole h hb, execFbRd_of_hole (s := withCs a m s) h hb]; rfl
    | some b => rw [execFbRd_of_listed h hb, execFbRd_of_listed (s := withCs a m s) h hb]; rfl
  · rw [execFbRd_of_le h, execFbRd_of_le (s := withCs a m s) h]; rfl

theorem execPbRd_withCs (i : U16) (s : State) :
    execPbRd i (withCs a m s) = mapNext (withCs a m) (execPbRd i s) := by
  rcases Nat.lt_or_ge i.toNat s.pbLen.toNat with h | h
  · cases hb : Memory.read s.pb i.toNat with
    | none => rw [execPbRd_of_hole h hb, execPbRd_of_hole (s := withCs a m s) h hb]; rfl
    | some b => rw [execPbRd_of_listed h hb, execPbRd_of_listed (s := withCs a m s) h hb]; rfl
  · rw [execPbRd_of_le h, execPbRd_of_le (s := withCs a m s) h]; rfl

theorem execCfgSetwpId_withCs (v : U16) (s : State) :
    execCfgSetwpId v (withCs a m s) = mapNext (withCs a m) (execCfgSetwpId v s) := by
  rw [execCfgSetwpId_eq, execCfgSetwpId_eq]
  cases isFixedId v <;> rfl

end

/-- Settles O4: every operation that does not name the two registers commutes with giving them other values. -/
theorem checksumStateNotShared : Obligations.ChecksumStateNotShared := by
  intro i s a m hInit hUpd hCsRd hCmp hRd hReset
  suffices h : exec i (withCs a m s) = mapNext (withCs a m) (exec i s) from h
  cases hf : i.frame? with
  | some f => rw [exec_of_frame hf, exec_of_frame hf]; exact receiveBytes_withCs a m (frameBytes f) s
  | none =>
    cases i with
    | csInit x => exact absurd rfl (hInit x)
    | csUpd b => exact absurd rfl (hUpd b)
    | csRd => exact absurd rfl hCsRd
    | csCmp b => exact absurd rfl (hCmp b)
    | rd reg => exact absurd rfl (hRd reg)
    | reset => exact absurd rfl hReset
    | enc v dir func => exact execEnc_withCs a m v dir func s
    | dec => exact decodeFrameBuffer_withCs a m s
    | packSetWp | packEepromWrite | packRawImu | packRc | fbClr | pbClr => rfl
    | unpack => exact unpackFrame_withCs a m s
    | fbPush b => exact congrArg Host.Outcome.next (pushFrameByte_withCs a m b s)
    | fbRd k => exact execFbRd_withCs a m k s
    | pbPush b => exact congrArg Host.Outcome.next (pushPayloadByte_withCs a m b s)
    | pbRd k => exact execPbRd_withCs a m k s
    | cfgSetwpId v => exact execCfgSetwpId_withCs a m v s
    | _ => cases hf

/-! ### Which packed operations are refused (O51; log 9) -/

/-- The packed operations that no operation of the spec has (R103): no number, a wrong number of operand bytes, or an operand
byte that its type does not have. -/
def BadlyPacked (bytes : List Byte) : Prop :=
  bytes = [] ∨
  (∃ n operands k, bytes = n :: operands ∧ operandBytes n = some k ∧ operands.length ≠ k) ∨
  (∃ b : Byte, 1 < b.toNat ∧ bytes = [0x01, b]) ∨
  (∃ v d x y : Byte, (1 < v.toNat ∨ 3 < d.toNat) ∧ bytes = [0x10, v, d, x, y]) ∨
  (∃ x y z : Byte, 1 < z.toNat ∧ bytes = [0x32, x, y, z])

/-- The operation numbers of R102. -/
def operationNumbers : List Byte :=
  [0x01, 0x02, 0x03, 0x04, 0x10, 0x11, 0x20, 0x21, 0x22, 0x23, 0x2F, 0x30, 0x31, 0x32, 0x34, 0x35, 0x36, 0x40, 0x41, 0x7F]

theorem operandBytes_of_not_mem {n : Byte} (h : n ∉ operationNumbers) : operandBytes n = none := by
  simp only [operationNumbers, List.mem_cons, List.not_mem_nil, or_false, not_or] at h
  simp only [operandBytes, h, if_false]

theorem verOperand_error_iff (b : Byte) (e : DecodeError) :
    verOperand b = .error e ↔ e = .badCommandWord ∧ 1 < b.toNat := by
  have hb : 1 < b.toNat ↔ b ≠ 0 ∧ b ≠ 1 := by bv_omega
  rw [hb, verOperand]
  by_cases h0 : b = 0
  · rw [if_pos h0]
    exact ⟨nofun, fun h => absurd h0 h.2.1⟩
  · by_cases h1 : b = 1
    · rw [if_neg h0, if_pos h1]
      exact ⟨nofun, fun h => absurd h1 h.2.2⟩
    · rw [if_neg h0, if_neg h1, Except.error.injEq, eq_comm]
      exact (and_iff_left ⟨h0, h1⟩).symm

theorem buildOperation_csInit_error_iff (ops : List Byte) (e : DecodeError) :
    buildOperation 0x01 ops = .error e ↔ e = .badCommandWord ∧ 1 < (byteAt ops 0).toNat := by
  rw [← verOperand_error_iff]
  change (verOperand (byteAt ops 0)).map Instr.csInit = _ ↔ _
  cases verOperand (byteAt ops 0) <;> simp [Except.map]

theorem buildOperation_enc_error_iff (ops : List Byte) (e : DecodeError) :
    buildOperation 0x10 ops = .error e ↔
      e = .badCommandWord ∧ (1 < (byteAt ops 0).toNat ∨ 3 < (byteAt ops 1).toNat) := by
  change (if byteAt ops 1 < 4 then
    (verOperand (byteAt ops 0)).map fun v => Instr.enc v ((byteAt ops 1).setWidth 2) (le16 ops 2)
    else .error DecodeError.badCommandWord) = _ ↔ _
  split_ifs with hd
  · have hd' : ¬ 3 < (byteAt ops 1).toNat := Nat.not_lt.2 (Nat.le_of_lt_succ hd)
    rw [or_iff_left hd', ← verOperand_error_iff]
    cases verOperand (byteAt ops 0) <;> simp [Except.map]
  · have hd' : 3 < (byteAt ops 1).toNat := Nat.lt_of_succ_le (Nat.not_lt.1 hd)
    simp [hd', eq_comm]

theorem buildOperation_fbRd_error_iff (ops : List Byte) (e : DecodeError) :
    buildOperation 0x32 ops = .error e ↔ e = .badCommandWord ∧ 1 < (byteAt ops 2).toNat := by
  change (if byteAt ops 2 < 2 then
    Except.ok (Instr.fbRd ((le16 ops 0).setWidth 17 ||| (byteAt ops 2).setWidth 17 <<< 16))
    else .error DecodeError.badCommandWord) = _ ↔ _
  split_ifs with hz
  · have hz' : ¬ 1 < (byteAt ops 2).toNat := Nat.not_lt.2 (Nat.le_of_lt_succ hz)
    simp [hz']
  · have hz' : 1 < (byteAt ops 2).toNat := Nat.lt_of_succ_le (Nat.not_lt.1 hz)
    simp [hz', eq_comm]

/-- Only `CS_INIT`, `ENC` and `FB_RD` have operands that are not whole bytes (R103). -/
theorem buildOperation_error_number {n : Byte} {ops : List Byte} {e : DecodeError} (hn : n ∈ operationNumbers)
    (h : buildOperation n ops = .error e) : n = 0x01 ∨ n = 0x10 ∨ n = 0x32 := by
  simp only [operationNumbers, List.mem_cons, List.not_mem_nil, or_false] at hn
  rcases hn with rfl | rfl | rfl | rfl | rfl | rfl | rfl | rfl | rfl | rfl | rfl | rfl | rfl | rfl | rfl | rfl | rfl | rfl |
    rfl | rfl
  any_goals cases h
  · exact .inl rfl
  · exact .inr (.inl rfl)
  · exact .inr (.inr rfl)

/-- An operand byte out of range is a badly packed operation. -/
theorem badlyPacked_of_buildOperation {n : Byte} {ops : List Byte} {e : DecodeError}
    (hk : operandBytes n = some ops.length) (h : buildOperation n ops = .error e) :
    e = .badCommandWord ∧ BadlyPacked (n :: ops) := by
  have hn : n ∈ operationNumbers := by
    by_contra hn
    rw [operandBytes_of_not_mem hn] at hk
    cases hk
  rcases buildOperation_error_number hn h with rfl | rfl | rfl
  · obtain ⟨b, rfl⟩ := List.length_eq_one_iff.1 (Option.some.inj hk).symm
    obtain ⟨rfl, hb⟩ := (buildOperation_csInit_error_iff _ _).1 h
    exact ⟨rfl, .inr (.inr (.inl ⟨b, hb, rfl⟩))⟩
  · obtain ⟨rfl, hvd⟩ := (buildOperation_enc_error_iff _ _).1 h
    match ops, (Option.some.inj hk).symm with
    | [v, d, x, y], _ => exact ⟨rfl, .inr (.inr (.inr (.inl ⟨v, d, x, y, hvd, rfl⟩)))⟩
  · obtain ⟨rfl, hz⟩ := (buildOperation_fbRd_error_iff _ _).1 h
    obtain ⟨x, y, z, rfl⟩ := List.length_eq_three.1 (Option.some.inj hk).symm
    exact ⟨rfl, .inr (.inr (.inr (.inr ⟨x, y, z, hz, rfl⟩)))⟩

/-- A packed operation is no instruction for one of two reasons: it is badly packed, or its number is undefined (R104). -/
theorem decodeOperationPacket_error {bytes : List Byte} {e : DecodeError} (h : decodeOperationPacket bytes = .error e) :
    e = .badCommandWord ∧ BadlyPacked bytes ∨ e = .illegalOperation := by
  cases bytes with
  | nil => cases h; exact .inl ⟨rfl, .inl rfl⟩
  | cons n ops =>
    cases hk : operandBytes n with
    | none =>
      simp only [decodeOperationPacket, hk] at h
      cases h
      exact .inr rfl
    | some k =>
      by_cases hl : ops.length = k
      · simp only [decodeOperationPacket, hk, hl, if_true] at h
        exact .inl (badlyPacked_of_buildOperation (hl ▸ hk) h)
      · simp only [decodeOperationPacket, hk, hl, if_false] at h
        cases h
        exact .inl ⟨rfl, .inr (.inl ⟨n, ops, k, rfl, hk, hl⟩)⟩

theorem decodeOperationPacket_of_badlyPacked {bytes : List Byte} (h : BadlyPacked bytes) :
    decodeOperationPacket bytes = .error .badCommandWord := by
  rcases h with rfl | ⟨n, ops, k, rfl, hk, hl⟩ | ⟨b, hb, rfl⟩ | ⟨v, d, x, y, hvd, rfl⟩ | ⟨x, y, z, hz, rfl⟩
  · rfl
  · simp only [decodeOperationPacket, hk, hl, if_false]
  · exact (buildOperation_csInit_error_iff [b] _).2 ⟨rfl, hb⟩
  · exact (buildOperation_enc_error_iff [v, d, x, y] _).2 ⟨rfl, hvd⟩
  · exact (buildOperation_fbRd_error_iff [x, y, z] _).2 ⟨rfl, hz⟩

/-! ### No meaning refuses -/

theorem receiveBytes_completes (bs : List Byte) (s : State) : ∃ t, receiveBytes bs s = .next t := by
  by_cases hl : bs.length ≤ 65544
  · exact ⟨_, receiveBytes_eq bs s hl⟩
  · exact ⟨_, (receiveBytes_take bs s (by omega)).trans (receiveBytes_eq _ s (by simp))⟩

/-- No arm of `exec` is rejected by name. -/
theorem exec_ne_refused (i : Instr) (s : State) (r : Refusal) : exec i s ≠ .refused r := by
  cases hf : i.frame? with
  | some f =>
    obtain ⟨t, ht⟩ := receiveBytes_completes (frameBytes f) s
    rw [exec_of_frame hf, receiveFrame, ht]
    nofun
  | none =>
    cases i with
    | csCmp b => simp only [exec, execCsCmp]; split <;> nofun
    | enc v dir func =>
      change execEnc v dir func s ≠ _
      rcases execEnc_trichotomy v dir func s with hr | ⟨d, hd, hr, hp | ⟨p, hp⟩⟩
      · rw [execEnc_of_out_of_range hr]; nofun
      · rw [execEnc_of_hole hd hr hp]; nofun
      · rw [execEnc_of_payload hd hr hp]; nofun
    | dec => simp only [exec, execDec, decodeFrameBuffer]; split <;> nofun
    | unpack =>
      simp only [exec, execUnpack, unpackFrame]
      split
      · nofun
      · split <;> nofun
    | fbRd k =>
      simp only [exec, execFbRd]
      split
      · nofun
      · split <;> nofun
    | pbRd k =>
      simp only [exec, execPbRd]
      split
      · nofun
      · split <;> nofun
    | rd reg => rcases execRd_cases s reg with ⟨v, -, e⟩ | ⟨o, -, e⟩ <;> rw [e] <;> nofun
    | cfgSetwpId v =>
      change execCfgSetwpId v s ≠ _
      rw [execCfgSetwpId_eq]
      nofun
    | csInit | csUpd | csRd | packSetWp | packEepromWrite | packRawImu | packRc | fbClr | fbPush | pbClr | pbPush | reset => nofun
    | _ => cases hf

theorem step_of_decode_ok {s : State} {p : Packet} {rest : List Packet} {i : Instr} (hport : s.port = p :: rest)
    (hd : decode p = .ok i) : step s = exec i { s with port := rest } := by
  simp only [step, fetch, hport, hd]

theorem step_of_decode_error {s : State} {p : Packet} {rest : List Packet} {e : DecodeError} (hport : s.port = p :: rest)
    (hd : decode p = .error e) : step s = runUndecoded p e { s with port := rest } := by
  simp only [step, fetch, hport, hd]

/-- A step on a packed operation is refused exactly where the operation is badly packed (log 9). -/
theorem step_refused_iff {s : State} {bytes : List Byte} {rest : List Packet} (hport : s.port = .operation bytes :: rest) :
    step s = .refused .badCommandWord ↔ BadlyPacked bytes := by
  constructor
  · intro h
    cases hd : decode (.operation bytes) with
    | ok i => exact absurd (step_of_decode_ok hport hd ▸ h) (exec_ne_refused i _ _)
    | error e =>
      rcases decodeOperationPacket_error hd with ⟨-, hbad⟩ | rfl
      · exact hbad
      · rw [step_of_decode_error hport hd] at h
        cases h
  · intro h
    exact step_of_decode_error hport (decodeOperationPacket_of_badlyPacked h)

/-! ### Which unlisted cell is met (O51; log 8) -/

theorem Memory.readBytes_of_hole {m : Memory} {a n i : Nat} (hlo : a ≤ i) (hhi : i < a + n) (hi : Memory.read m i = none) :
    Memory.readBytes m a n = none := by
  induction n generalizing a with
  | zero => omega
  | succ n ih =>
    rw [Memory.readBytes]
    rcases Nat.eq_or_lt_of_le hlo with rfl | hlt
    · rw [hi]
    · rw [ih hlt (by omega)]
      cases Memory.read m a <;> rfl

/-- Where some address of a range is unlisted, `firstHole` finds one, at or before it. -/
theorem Memory.firstHole_spec {m : Memory} {a n i : Nat} (hlo : a ≤ i) (hhi : i < a + n) (hi : Memory.read m i = none) :
    Memory.firstHole m a n ≤ i ∧ Memory.read m (Memory.firstHole m a n) = none := by
  induction n generalizing a with
  | zero => omega
  | succ n ih =>
    rw [Memory.firstHole]
    split
    next hs =>
      have hne : a ≠ i := by rintro rfl; simp [hi] at hs
      exact ih (by omega) (by omega)
    next hs => exact ⟨hlo, Option.not_isSome_iff_eq_none.1 hs⟩

/-- Settles O51: `step_refused_iff` for the refusals, and for the faults that a buffer with a hole reads as nothing. -/
theorem stopsByName : Obligations.StopsByName := by
  refine ⟨fun s bytes rest hport => step_refused_iff hport, fun s i hlt hi => ?_, fun s i hlt hi => ?_⟩
  · have hlt' : i.toNat < 0 + s.fbLen.toNat := by omega
    obtain ⟨hle, hhole⟩ := Memory.firstHole_spec (Nat.zero_le _) hlt' hi
    exact ⟨execFbRd_of_hole hlt hi, _, hle, hhole,
      decodeFrameBuffer_of_hole (Memory.readBytes_of_hole (Nat.zero_le _) hlt' hi)⟩
  · have hlt' : i.toNat < 0 + s.pbLen.toNat := by omega
    obtain ⟨hle, hhole⟩ := Memory.firstHole_spec (Nat.zero_le _) hlt' hi
    have hp : pbBytes s = none := Memory.readBytes_of_hole (Nat.zero_le _) hlt' hi
    refine ⟨execPbRd_of_hole hlt hi, _, hle, hhole, fun v d func hv => ?_, fun f hf => unpackFrame_of_hole hf hp⟩
    have hr : encInRange v func s.pbLen.toNat = true := by
      cases v with
      | v1 => exact Bool.and_eq_true_iff.2 ((hv rfl).imp decide_eq_true decide_eq_true)
      | v2 => rfl
    exact execEnc_of_hole (dirOfNumber_dirNumber d) hr hp

end Sys2Proof.Machine
end

section
/-!
PROOFS of the family 20_memory.md: the reads of R66 (obligation O33). `Effect.of_read` says what a read answers; that it answers
the same again is that no read looks at what was delivered before.
-/

namespace Sys2Proof.Machine

/-! ### Reads do not depend on the last delivery -/

theorem execFbRd_withReply (i : U17) (s : State) (r : Option Reply) : execFbRd i { s with reply := r } = execFbRd i s := by
  rcases Nat.lt_or_ge i.toNat s.fbLen.toNat with hi | hi
  · cases hb : Memory.read s.fb i.toNat with
    | none => rw [execFbRd_of_hole hi hb]; exact execFbRd_of_hole hi hb
    | some b => rw [execFbRd_of_listed hi hb]; exact execFbRd_of_listed hi hb
  · rw [execFbRd_of_le hi]; exact execFbRd_of_le hi

theorem execPbRd_withReply (i : U16) (s : State) (r : Option Reply) : execPbRd i { s with reply := r } = execPbRd i s := by
  rcases Nat.lt_or_ge i.toNat s.pbLen.toNat with hi | hi
  · cases hb : Memory.read s.pb i.toNat with
    | none => rw [execPbRd_of_hole hi hb]; exact execPbRd_of_hole hi hb
    | some b => rw [execPbRd_of_listed hi hb]; exact execPbRd_of_listed hi hb
  · rw [execPbRd_of_le hi]; exact execPbRd_of_le hi

theorem readRegister_withReply (reg : Byte) (s : State) (r : Option Reply) :
    readRegister { s with reply := r } reg = readRegister s reg := by
  have basic (k : Nat) : readBasic { s with reply := r } k = readBasic s k := by unfold readBasic; split <;> rfl
  have fr (k : Nat) : readFrGroup { s with reply := r } k = readFrGroup s k := by unfold readFrGroup; split <;> rfl
  have wp (k : Nat) : readWpGroup { s with reply := r } k = readWpGroup s k := by unfold readWpGroup; split <;> rfl
  have imu (k : Nat) : readImuGroup { s with reply := r } k = readImuGroup s k := by unfold readImuGroup; split <;> rfl
  have rc (k : Nat) : readRc { s with reply := r } k = readRc s k := rfl
  simp only [readRegister, basic, fr, wp, imu, rc]

theorem execRd_withReply (reg : Byte) (s : State) (r : Option Reply) : execRd reg { s with reply := r } = execRd reg s := by
  rw [execRd, execRd, readRegister_withReply]
  cases readRegister s reg <;> rfl

/-- A read answers the same whatever was delivered last (R66). -/
theorem exec_withReply_of_isRead {i : Instr} (hi : isRead i = true) (s : State) (r : Option Reply) :
    exec i { s with reply := r } = exec i s := by
  cases i with
  | csRd => rfl
  | fbRd k => exact execFbRd_withReply k s r
  | pbRd k => exact execPbRd_withReply k s r
  | rd reg => exact execRd_withReply reg s r
  | _ => cases hi

/-- A read changes the delivery only (R66). -/
theorem eq_withReply_of_isRead {i : Instr} {s t : State} (hi : isRead i = true) (h : exec i s = .next t) :
    t = { s with reply := t.reply } := by
  rcases (effect_of_exec h).of_read hi with ⟨v, rfl⟩ | ⟨o, -, rfl⟩ <;> rfl

/-! ### Pushes -/

/-- A push into a buffer with room makes it one byte longer (R242). -/
theorem pushFrameByte_fbLen_of_room {s : State} (b : Byte) (h : s.fbLen.toNat ≠ 65544) :
    (pushFrameByte b s).fbLen = s.fbLen + 1 := by
  rw [pushFrameByte_of_room b h]

/-- A push into a buffer with room changes the state (R66, R242). -/
theorem pushFrameByte_ne_of_room {s : State} (b : Byte) (h : s.fbLen.toNat ≠ 65544) : pushFrameByte b s ≠ s := fun e => by
  have hlen : s.fbLen + 1 = s.fbLen := (pushFrameByte_fbLen_of_room b h).symm.trans (congrArg State.fbLen e)
  bv_omega

/-- Settles O33: a read's next state is the state with another delivery, which no read looks at; a byte pushed twice from reset
stands in `FB` twice. -/
theorem readsChangeNothing : Obligations.ReadsChangeNothing := by
  refine ⟨fun i s t hi h => ?_, 0x00, .reset, pushFrameByte 0x00 .reset, rfl, fun again => ?_⟩
  · have ht := eq_withReply_of_isRead hi h
    have same : exec i t = exec i s := ht ▸ exec_withReply_of_isRead hi s t.reply
    exact ⟨ht, same.trans h⟩
  · exact pushFrameByte_ne_of_room 0x00 (by decide) (Host.Outcome.next.inj again)

end Sys2Proof.Machine
end

section
/-!
PROOFS of the family 30_encoding.md: decoder and encoder are inverse to each other (obligations O45, O46, O52), the opcode table
selects what the decoder selects (O47), and the pseudo-instructions and received bytes (O43, O44, O50).
-/

namespace Sys2Proof.Machine

/-! ### A wire instruction and its frame -/

/-- R98, R160: the frame of a well-formed wire instruction has its fields in range. -/
theorem inRange_of_frame {i : Instr} {f : Frame} (hw : i.WellFormed) (hf : i.frame? = some f) : f.inRange = true := by
  cases i with
  | errorV1 => exact Laws.FrameInRange.errorV1 _ _ _ hw f hf
  | errorV2 => exact Laws.FrameInRange.errorV2 _ _ _ _ hw f hf
  | eepromWriteV1 => exact Laws.FrameInRange.eepromWriteV1 _ _ hw f hf
  | rawImuReqV1 => exact Laws.FrameInRange.rawImuReqV1 _ _ hw f hf
  | rcReqV1 => exact Laws.FrameInRange.rcReqV1 _ _ hw f hf
  | rawImuV1 => exact Laws.FrameInRange.rawImuV1 _ _ hw f hf
  | rcV1 => exact Laws.FrameInRange.rcV1 _ _ hw f hf
  | eepromWriteAckV1 => exact Laws.FrameInRange.eepromWriteAckV1 _ _ hw f hf
  | eepromWriteV2 => exact Laws.FrameInRange.eepromWriteV2 _ _ _ hw f hf
  | rawImuReqV2 => exact Laws.FrameInRange.rawImuReqV2 _ _ _ hw f hf
  | rcReqV2 => exact Laws.FrameInRange.rcReqV2 _ _ _ hw f hf
  | rawImuV2 => exact Laws.FrameInRange.rawImuV2 _ _ _ hw f hf
  | rcV2 => exact Laws.FrameInRange.rcV2 _ _ _ hw f hf
  | eepromWriteAckV2 => exact Laws.FrameInRange.eepromWriteAckV2 _ _ _ hw f hf
  | setWpV1 => exact Laws.FrameInRange.setWpV1 _ _ _ hw f hf
  | setWpAckV1 => exact Laws.FrameInRange.setWpAckV1 _ _ _ hw f hf
  | setWpV2 => exact Laws.FrameInRange.setWpV2 _ _ _ _ hw f hf
  | setWpAckV2 => exact Laws.FrameInRange.setWpAckV2 _ _ _ _ hw f hf
  | _ => cases hf

theorem isFixedId_eq_false_iff (v : U16) :
    isFixedId v = false ↔ v ≠ Config.eepromWriteId ∧ v ≠ Config.rawImuId ∧ v ≠ Config.rcId := by
  rw [← Bool.not_eq_true, isFixedId_iff, not_or, not_or]

/-- What `WellFormed` asks of a SET_WP row (R98, R108): the payload fits, and the id is none of the three fixed ones. -/
theorem fits_and_free_iff (fits : Bool) (v : U16) :
    (fits && !isFixedId v) = true ↔
      fits = true ∧ v ≠ Config.eepromWriteId ∧ v ≠ Config.rawImuId ∧ v ≠ Config.rcId := by
  rw [Bool.and_eq_true, Bool.not_eq_true', isFixedId_eq_false_iff]

/-- A V1 function byte, widened to an id and cut again (R96). -/
theorem setWidth_byte_id (b : Byte) : (b.setWidth 16).setWidth 8 = b := by simp

/-- An id that fits V1, cut to its byte and widened again (R96, R98). -/
theorem setWidth_id_byte {v : U16} (h : v.toNat ≤ 255) : (v.setWidth 8).setWidth 16 = v := by bv_omega

/-- The frame of a well-formed wire instruction selects that instruction (R99, R108). -/
theorem selectInstr_of_frame {i : Instr} {f : Frame} (hw : i.WellFormed) (hf : i.frame? = some f) : selectInstr f = i := by
  cases i <;> cases hf
  case errorV1 => simp only [selectInstr, setWidth_byte_id]
  case setWpV1 | setWpAckV1 | setWpV2 | setWpAckV2 =>
    obtain ⟨-, h250, h102, h105⟩ := (fits_and_free_iff _ _).1 hw
    simp only [selectInstr, h250, h102, h105, if_false, setWidth_byte_id]
  all_goals rfl

/-- What a frame in range selects is well-formed (R98, R99): the SET_WP rows come last, behind the three fixed ids. -/
theorem selectInstr_wf {f : Frame} (h : f.inRange = true) : (selectInstr f).WellFormed := by
  obtain ⟨v, d, g, func, p, c⟩ := f
  cases v with
  | v1 =>
    obtain ⟨-, hfunc, hlen⟩ := (inRange_v1_iff rfl).1 h
    have fits := (fitsV1_iff p).2 hlen
    have hid : (func.setWidth 8).setWidth 16 = func := setWidth_id_byte hfunc
    have free (h250 : func ≠ Config.eepromWriteId) (h102 : func ≠ Config.rawImuId) (h105 : func ≠ Config.rcId) :
        (fitsV1 p && !isFixedId ((func.setWidth 8).setWidth 16)) = true := by
      rw [hid]
      exact (fits_and_free_iff _ _).2 ⟨fits, h250, h102, h105⟩
    cases d <;> simp only [selectInstr]
    case error => exact fits
    case request | response =>
      split_ifs
      any_goals exact fits
      exact free ‹_› ‹_› ‹_›
  | v2 =>
    have fits : fitsV2 p = true := h
    have free (h250 : func ≠ Config.eepromWriteId) (h102 : func ≠ Config.rawImuId) (h105 : func ≠ Config.rcId) :
        (fitsV2 p && !isFixedId func) = true := (fits_and_free_iff _ _).2 ⟨fits, h250, h102, h105⟩
    cases d <;> simp only [selectInstr]
    case error => exact fits
    case request | response =>
      split_ifs
      any_goals exact fits
      exact free ‹_› ‹_› ‹_›

/-! ### The decoder on received bytes -/

/-- The decoder of received bytes: they are exactly one frame in range (R91, R92, R170). -/
theorem decodeFramePacket_ok_iff (bs : List Byte) (i : Instr) :
    decodeFramePacket bs = .ok i ↔ ∃ f, f.inRange = true ∧ bs = frameBytes f ∧ selectInstr f = i := by
  constructor
  · intro h
    unfold decodeFramePacket at h
    split at h
    next => cases h
    next f n hs =>
      obtain ⟨hr, hn, rest, hbs⟩ := (splitFrame_ok_iff bs f n).1 hs
      split at h <;> cases h
      next hl =>
        have hrest : rest = [] := by
          rw [hbs, List.length_append, frameBytes_length, ← hn] at hl
          exact List.eq_nil_of_length_eq_zero (by omega)
        exact ⟨f, hr, by rw [hbs, hrest, List.append_nil], rfl⟩
  · rintro ⟨f, hr, rfl, rfl⟩
    have hs := splitFrame_frameBytes f [] hr
    rw [List.append_nil] at hs
    simp only [decodeFramePacket, hs, frameBytes_length, if_true]

/-- A frame in range with bytes behind it is no instruction (R170; log 5). -/
theorem decodeFramePacket_trailing {f : Frame} {extra : List Byte} (hr : f.inRange = true) (hne : extra ≠ []) :
    decodeFramePacket (frameBytes f ++ extra) = .error .trailingBytes := by
  have hl : (frameBytes f ++ extra).length ≠ frameSize f.version f.payload.length := by
    have := List.length_pos_of_ne_nil hne
    rw [List.length_append, frameBytes_length]
    omega
  simp only [decodeFramePacket, splitFrame_frameBytes f extra hr, hl, if_false]

/-! ### The payload layouts, there and back -/

/-- A sequence is the list of its bytes by address. -/
theorem map_byteAt_range {p : List Byte} {n : Nat} (h : p.length = n) : (List.range n).map (byteAt p) = p := by
  subst h
  apply List.ext_getElem
  · simp
  · intro k hk hk'
    simp [byteAt_eq_getElem hk']

theorem unpackSetwp_packSetwp (w : Waypoint) : unpackSetwp (packSetwp w) = w := by
  obtain ⟨⟩ := w
  simp only [unpackSetwp, Waypoint.mk.injEq]
  exact ⟨rfl, rfl, join32 _, join32 _, join32 _, join16 _, join16 _, join16 _, rfl⟩

theorem packSetwp_unpackSetwp {p : List Byte} (h : p.length = 21) : packSetwp (unpackSetwp p) = p := by
  refine Eq.trans ?_ (map_byteAt_range h)
  simp only [packSetwp, unpackSetwp, leBytes16_le16, leBytes32_le32]
  rfl

theorem unpackRawimu_packRawimu (m : ImuSample) : unpackRawimu (packRawimu m) = m := by
  obtain ⟨⟩ := m
  simp only [unpackRawimu, ImuSample.mk.injEq]
  refine ⟨?_, ?_, ?_, ?_, ?_, ?_⟩ <;> exact join16 _

theorem packRawimu_unpackRawimu {p : List Byte} (h : p.length = 12) : packRawimu (unpackRawimu p) = p := by
  refine Eq.trans ?_ (map_byteAt_range h)
  simp only [packRawimu, unpackRawimu, leBytes16_le16]
  rfl

theorem unpackRcSample_packRcSample (c : RcSample) : unpackRcSample (packRcSample c) = c := by
  obtain ⟨⟩ := c
  simp only [unpackRcSample, RcSample.mk.injEq]
  refine ⟨?_, ?_, ?_, ?_, ?_, ?_, ?_, ?_, ?_, ?_, ?_, ?_, ?_, ?_, ?_, ?_, ?_⟩ <;> exact join16 _

theorem packRcSample_unpackRcSample {p : List Byte} (h : p.length = 34) : packRcSample (unpackRcSample p) = p := by
  refine Eq.trans ?_ (map_byteAt_range h)
  simp only [packRcSample, rcChannels, unpackRcSample, List.flatMap_cons, List.flatMap_nil, leBytes16_le16]
  rfl

/-! ### Operands that are not whole bytes (R103) -/

theorem verOperand_verOperandByte (v : Version) : verOperand (verOperandByte v) = .ok v := by cases v <;> rfl

theorem verOperandByte_of_verOperand {b : Byte} {v : Version} (h : verOperand b = .ok v) : verOperandByte v = b := by
  unfold verOperand at h
  split at h
  next hb => cases h; exact hb.symm
  next =>
    split at h
    next hb => cases h; exact hb.symm
    next => cases h

/-- A `dir` operand, two bits, in its byte. -/
theorem dirOperand_lt (d : BitVec 2) : d.setWidth 8 < (4 : Byte) := by bv_omega

theorem setWidth_dirOperand (d : BitVec 2) : (d.setWidth 8).setWidth 2 = d := by simp

theorem dirOperand_setWidth {b : Byte} (h : b < 4) : (b.setWidth 2).setWidth 8 = b := by bv_omega

/-- An index of 17 bits, its low half-word and its top bit (R103). -/
def indexOperand (low : U16) (top : Byte) : U17 := low.setWidth 17 ||| top.setWidth 17 <<< 16

theorem indexOperand_toNat (low : U16) {top : Byte} (h : top < 2) :
    (indexOperand low top).toNat = low.toNat + 2 ^ 16 * top.toNat := by
  have htop : top.toNat < 2 := h
  have hfits : top.toNat * 2 ^ 16 < 2 ^ 17 := by omega
  rw [indexOperand, BitVec.toNat_or, BitVec.toNat_shiftLeft, BitVec.toNat_setWidth_of_le (by decide),
    BitVec.toNat_setWidth_of_le (by decide), Nat.shiftLeft_eq, Nat.mod_eq_of_lt hfits, Nat.mul_comm, Nat.or_comm,
    ← Nat.two_pow_add_eq_or_of_lt low.isLt, Nat.add_comm]

theorem topOperand_lt (i : U17) : (i >>> 16).setWidth 8 < (2 : Byte) := by
  have := i.isLt
  change ((i >>> 16).setWidth 8).toNat < 2
  rw [BitVec.toNat_setWidth, BitVec.toNat_ushiftRight, Nat.shiftRight_eq_div_pow]
  omega

theorem indexOperand_split (i : U17) : indexOperand (i.setWidth 16) ((i >>> 16).setWidth 8) = i := by
  have := i.isLt
  apply BitVec.eq_of_toNat_eq
  rw [indexOperand_toNat _ (topOperand_lt i), BitVec.toNat_setWidth, BitVec.toNat_setWidth, BitVec.toNat_ushiftRight,
    Nat.shiftRight_eq_div_pow]
  omega

theorem indexOperand_low (low : U16) {top : Byte} (h : top < 2) : (indexOperand low top).setWidth 16 = low := by
  have := low.isLt
  apply BitVec.eq_of_toNat_eq
  rw [BitVec.toNat_setWidth, indexOperand_toNat low h]
  omega

theorem indexOperand_top (low : U16) {top : Byte} (h : top < 2) : (indexOperand low top >>> 16).setWidth 8 = top := by
  have := low.isLt
  have := top.isLt
  apply BitVec.eq_of_toNat_eq
  rw [BitVec.toNat_setWidth, BitVec.toNat_ushiftRight, indexOperand_toNat low h, Nat.shiftRight_eq_div_pow]
  omega

/-! ### The decoder on packed operations -/

/-- The decoder of packed operations: a number of R102 and exactly its operand bytes. -/
theorem decodeOperationPacket_ok_iff (bs : List Byte) (i : Instr) :
    decodeOperationPacket bs = .ok i ↔
      ∃ n ops, bs = n :: ops ∧ operandBytes n = some ops.length ∧ buildOperation n ops = .ok i := by
  constructor
  · intro h
    cases bs with
    | nil => cases h
    | cons n ops =>
      simp only [decodeOperationPacket] at h
      split at h
      next => cases h
      next k hk =>
        split_ifs at h with hl
        exact ⟨n, ops, rfl, hl ▸ hk, h⟩
  · rintro ⟨n, ops, rfl, hk, hb⟩
    simp only [decodeOperationPacket, hk, if_true, hb]

theorem le16_leBytes16 (v : U16) : le16 (leBytes16 v) 0 = v := join16 v

/-- `CS_INIT`, `ENC` and `FB_RD`, whose operands are not whole bytes. -/
theorem buildOperation_csInit (b : Byte) : buildOperation 0x01 [b] = (verOperand b).map .csInit := rfl

@[inherit_doc buildOperation_csInit]
theorem buildOperation_enc (b d x y : Byte) :
    buildOperation 0x10 [b, d, x, y]
      = if d < 4 then (verOperand b).map fun v => .enc v (d.setWidth 2) (le16 [x, y] 0) else .error .badCommandWord := rfl

@[inherit_doc buildOperation_csInit]
theorem buildOperation_fbRd (x y z : Byte) :
    buildOperation 0x32 [x, y, z]
      = if z < 2 then .ok (.fbRd (indexOperand (le16 [x, y] 0) z)) else .error .badCommandWord := rfl

/-- The decoder reads the packed bytes of each of the 20 host operations as that operation (R102; log 1). -/
theorem decodeOperationPacket_operationBytes {i : Instr} (h : i.frame? = none) :
    decodeOperationPacket (operationBytes i) = .ok i := by
  cases i with
  | csInit m =>
    refine (buildOperation_csInit (verOperandByte m)).trans ?_
    rw [verOperand_verOperandByte]
    rfl
  | enc v d func =>
    refine (buildOperation_enc (verOperandByte v) (d.setWidth 8) _ _).trans ((if_pos (dirOperand_lt d)).trans ?_)
    change (verOperand (verOperandByte v)).map (fun v => Instr.enc v _ (le16 (leBytes16 func) 0)) = _
    rw [verOperand_verOperandByte, setWidth_dirOperand, le16_leBytes16]
    rfl
  | fbRd k =>
    refine (buildOperation_fbRd _ _ _).trans ((if_pos (topOperand_lt k)).trans ?_)
    change Except.ok (Instr.fbRd (indexOperand (le16 (leBytes16 (k.setWidth 16)) 0) _)) = _
    rw [le16_leBytes16, indexOperand_split]
  | packSetWp w => exact congrArg (Except.ok ∘ Instr.packSetWp) (unpackSetwp_packSetwp w)
  | packRawImu m => exact congrArg (Except.ok ∘ Instr.packRawImu) (unpackRawimu_packRawimu m)
  | packRc c => exact congrArg (Except.ok ∘ Instr.packRc) (unpackRcSample_packRcSample c)
  | pbRd k => exact congrArg (Except.ok ∘ Instr.pbRd) (le16_leBytes16 k)
  | cfgSetwpId v => exact congrArg (Except.ok ∘ Instr.cfgSetwpId) (le16_leBytes16 v)
  | csUpd | csRd | csCmp | dec | packEepromWrite | unpack | fbClr | fbPush | pbClr | pbPush | rd | reset => rfl
  | _ => cases h

/-- A result that comes out of a `ver` or `mode` operand, and the operand's byte. -/
theorem verOperand_map_ok {b : Byte} {mk : Version → Instr} {i : Instr} (h : (verOperand b).map mk = .ok i) :
    ∃ v, verOperandByte v = b ∧ mk v = i := by
  cases hb : verOperand b with
  | error e => rw [hb] at h; cases h
  | ok v =>
    rw [hb] at h
    exact ⟨v, verOperandByte_of_verOperand hb, Except.ok.inj h⟩

/-- What a packed operation decodes to is the host operation that packs to these bytes (R102; log 1). -/
theorem buildOperation_sound {n : Byte} {ops : List Byte} {i : Instr} (hk : operandBytes n = some ops.length)
    (h : buildOperation n ops = .ok i) : i.frame? = none ∧ operationBytes i = n :: ops := by
  have hn : n ∈ operationNumbers := by
    by_contra hn
    rw [operandBytes_of_not_mem hn] at hk
    cases hk
  simp only [operationNumbers, List.mem_cons, List.not_mem_nil, or_false] at hn
  have len {k : Nat} (e : operandBytes n = some k) : ops.length = k := Option.some.inj (hk.symm.trans e)
  have noOperand (e : operandBytes n = some 0) : ops = [] := List.eq_nil_of_length_eq_zero (len e)
  have oneByte (e : operandBytes n = some 1) : ∃ b, ops = [b] := List.length_eq_one_iff.1 (len e)
  have twoBytes (e : operandBytes n = some 2) : ∃ x y, ops = [x, y] := List.length_eq_two.1 (len e)
  rcases hn with rfl | rfl | rfl | rfl | rfl | rfl | rfl | rfl | rfl | rfl | rfl | rfl | rfl | rfl | rfl | rfl | rfl | rfl |
    rfl | rfl
  -- The operations without operands, with one byte, and with one half-word.
  any_goals (obtain rfl := noOperand rfl; cases h; exact ⟨rfl, rfl⟩)
  any_goals (obtain ⟨b, rfl⟩ := oneByte rfl; cases h; exact ⟨rfl, rfl⟩)
  any_goals (obtain ⟨x, y, rfl⟩ := twoBytes rfl; cases h; exact ⟨rfl, congrArg _ (leBytes16_le16 [x, y] 0)⟩)
  -- `CS_INIT`
  · obtain ⟨b, rfl⟩ := oneByte rfl
    obtain ⟨v, hv, rfl⟩ := verOperand_map_ok h
    exact ⟨rfl, congrArg (fun b => [0x01, b]) hv⟩
  -- `ENC`
  · match ops, len rfl with
    | [b, d, x, y], _ =>
      rw [buildOperation_enc] at h
      split_ifs at h with hd
      obtain ⟨v, hv, rfl⟩ := verOperand_map_ok h
      refine ⟨rfl, ?_⟩
      rw [operationBytes, hv, dirOperand_setWidth hd, leBytes16_le16]
      rfl
  -- `PACK_SET_WP`, `PACK_RAW_IMU`, `PACK_RC`
  · cases h
    exact ⟨rfl, congrArg _ (packSetwp_unpackSetwp (len rfl))⟩
  · cases h
    exact ⟨rfl, congrArg _ (packRawimu_unpackRawimu (len rfl))⟩
  · cases h
    exact ⟨rfl, congrArg _ (packRcSample_unpackRcSample (len rfl))⟩
  -- `FB_RD`
  · obtain ⟨x, y, z, rfl⟩ := List.length_eq_three.1 (len rfl)
    rw [buildOperation_fbRd] at h
    split_ifs at h with hz
    cases h
    refine ⟨rfl, ?_⟩
    rw [operationBytes, indexOperand_low _ hz, indexOperand_top _ hz, leBytes16_le16]
    rfl

/-! ### Decode and encode -/

/-- Every operand of a host operation has exactly the range of its type (R103). -/
theorem wf_of_no_frame {i : Instr} (h : i.frame? = none) : i.WellFormed := by
  cases i <;> cases h <;> rfl

theorem encode_of_frame {i : Instr} {f : Frame} (h : i.frame? = some f) : encode i = .frame (frameBytes f) := by
  rw [encode, h]

theorem encode_of_no_frame {i : Instr} (h : i.frame? = none) : encode i = .operation (operationBytes i) := by
  rw [encode, h]

/-- Settles O45: a frame in range is cut into itself and selects its instruction; a host operation is read from its packed
bytes. -/
theorem decodeEncode : Obligations.DecodeEncode := by
  intro i hw
  cases hf : i.frame? with
  | some f =>
    rw [encode_of_frame hf]
    exact (decodeFramePacket_ok_iff _ _).2 ⟨f, inRange_of_frame hw hf, rfl, selectInstr_of_frame hw hf⟩
  | none =>
    rw [encode_of_no_frame hf]
    exact decodeOperationPacket_operationBytes hf

/-- Settles O46, packet by packet: received bytes are one frame in range, packed bytes those of one host operation. -/
theorem encodeDecode : Obligations.EncodeDecode := by
  intro p i h
  cases p with
  | frame bs =>
    obtain ⟨f, hr, rfl, rfl⟩ := (decodeFramePacket_ok_iff bs i).1 h
    exact ⟨selectInstr_wf hr, encode_of_frame (selectInstr_frame f hr)⟩
  | operation bs =>
    obtain ⟨n, ops, rfl, hk, hb⟩ := (decodeOperationPacket_ok_iff bs i).1 h
    obtain ⟨hf, hbytes⟩ := buildOperation_sound hk hb
    exact ⟨wf_of_no_frame hf, by rw [encode_of_no_frame hf, hbytes]⟩

/-- Settles O52: each word is the encoding of its instruction. -/
theorem wordsDecode : Obligations.WordsDecode :=
  ⟨decodeEncode (.rawImuReqV1 [] 0x66) rfl, decodeEncode (.rawImuReqV2 0x00 [] 0x05) rfl,
   decodeEncode (.eepromWriteV2 0x00 [] 0x66) rfl, decodeEncode (.rcV1 [0x01, 0x02] 0x68) rfl,
   decodeEncode .dec rfl, decodeEncode .unpack rfl, decodeEncode .reset rfl⟩

/-! ### The opcode table (R108) -/

/-- A level W row by what it fixes: the format, the direction and, but for the ERROR and SET_WP rows, the function id. -/
def wireRow (mnemonic : String) (v : Version) (d : Direction) (id : Option Byte) : TableRow :=
  let mask : Byte := if id.isSome then 0xFF else 0x00
  match v with
  | .v1 => ⟨mnemonic, [0x24, 0x4D, dirByte d, 0x00, id.getD 0], [0xFF, 0xFF, 0xFF, 0x00, mask]⟩
  | .v2 => ⟨mnemonic, [0x24, 0x58, dirByte d, 0, id.getD 0, 0, 0, 0], [0xFF, 0xFF, 0xFF, 0, mask, mask, 0, 0]⟩

theorem wireRows_eq : wireRows =
    [wireRow "ERROR.V1" .v1 .error none, wireRow "ERROR.V2" .v2 .error none,
     wireRow "EEPROM_WRITE.V1" .v1 .request (some 250), wireRow "RAW_IMU.REQ.V1" .v1 .request (some 102),
     wireRow "RC.REQ.V1" .v1 .request (some 105), wireRow "RAW_IMU.V1" .v1 .response (some 102),
     wireRow "RC.V1" .v1 .response (some 105), wireRow "EEPROM_WRITE.ACK.V1" .v1 .response (some 250),
     wireRow "EEPROM_WRITE.V2" .v2 .request (some 250), wireRow "RAW_IMU.REQ.V2" .v2 .request (some 102),
     wireRow "RC.REQ.V2" .v2 .request (some 105), wireRow "RAW_IMU.V2" .v2 .response (some 102),
     wireRow "RC.V2" .v2 .response (some 105), wireRow "EEPROM_WRITE.ACK.V2" .v2 .response (some 250),
     wireRow "SET_WP.V1" .v1 .request none, wireRow "SET_WP.ACK.V1" .v1 .response none,
     wireRow "SET_WP.V2" .v2 .request none, wireRow "SET_WP.ACK.V2" .v2 .response none] := rfl

theorem dirByte_inj {d d' : Direction} : dirByte d = dirByte d' ↔ d = d' :=
  ⟨fun h => Option.some.inj ((dirOf_dirByte d).symm.trans (h ▸ dirOf_dirByte d')), congrArg dirByte⟩

theorem and_fullMask (b : Byte) : b &&& 255#8 = b := BitVec.and_allOnes

/-- R108: a row's masked header matches a frame in range exactly where the frame has what the row fixes. -/
theorem wireRow_selects (m : String) (v : Version) (d : Direction) (id : Option Byte) {f : Frame} (hr : f.inRange = true) :
    (wireRow m v d id).selects ((frameBytes f).take (wireRow m v d id).pattern.length)
      = (f.version == v && f.direction == d && id.all (f.func == ·.setWidth 16)) := by
  obtain ⟨v', d', g, func, p, c⟩ := f
  cases v <;> cases v'
  case v1.v1 =>
    have hfunc : func.toNat ≤ 255 := ((inRange_v1_iff rfl).1 hr).2.1
    have hbyte (b : Byte) : func.setWidth 8 = b ↔ func = b.setWidth 16 := by bv_omega
    rw [Bool.eq_iff_iff]
    cases id <;>
      simp [wireRow, TableRow.selects, frameBytes, frameHeader, dirByte_inj, and_fullMask, hbyte, Config.dollar, Config.markV1]
  case v2.v2 =>
    have hbytes (b : Byte) : func.setWidth 8 = b ∧ (func >>> 8).setWidth 8 = 0#8 ↔ func = b.setWidth 16 := by bv_omega
    rw [Bool.eq_iff_iff]
    cases id <;>
      simp [wireRow, TableRow.selects, frameBytes, frameHeader, leBytes16, dirByte_inj, and_fullMask, hbytes, Config.dollar,
        Config.markV2]
  case v1.v2 => simp [wireRow, TableRow.selects, frameBytes, frameHeader, Config.markV2]
  case v2.v1 => simp [wireRow, TableRow.selects, frameBytes, frameHeader, Config.markV1]

theorem find?_cons_eq_ite {α : Type} (p : α → Bool) (a : α) (l : List α) :
    (a :: l).find? p = if p a then some a else l.find? p := by
  rw [List.find?_cons]
  cases p a <;> rfl

@[simp] theorem wireRow_mnemonic (m : String) (v : Version) (d : Direction) (id : Option Byte) :
    (wireRow m v d id).mnemonic = m := by
  cases v <;> rfl

/-- An id is one of the three fixed ones or free (R99). -/
theorem id_cases (v : U16) :
    v = Config.eepromWriteId ∨ v = Config.rawImuId ∨ v = Config.rcId ∨ isFixedId v = false := by
  cases h : isFixedId v with
  | true => exact ((isFixedId_iff v).1 h).imp_right (.imp_right .inl)
  | false => exact .inr (.inr (.inr rfl))

/-- The table selects the instruction that the decoder selects (R99, R108): of the rows with the frame's format and direction
those with a fixed id come first. -/
theorem tableSelect_frameBytes {f : Frame} (hr : f.inRange = true) :
    tableSelect (frameBytes f) = some (selectInstr f).mnemonic := by
  simp only [tableSelect, wireRows_eq, find?_cons_eq_ite, wireRow_selects _ _ _ _ hr]
  obtain ⟨v, d, g, func, p, c⟩ := f
  rcases id_cases func with rfl | rfl | rfl | hfree
  case inr.inr.inr =>
    obtain ⟨h250, h102, h105⟩ := (isFixedId_eq_false_iff func).1 hfree
    have no250 : (func == (250 : Byte).setWidth 16) = false := beq_eq_false_iff_ne.2 h250
    have no102 : (func == (102 : Byte).setWidth 16) = false := beq_eq_false_iff_ne.2 h102
    have no105 : (func == (105 : Byte).setWidth 16) = false := beq_eq_false_iff_ne.2 h105
    simp only [Option.all_some, Option.all_none, no250, no102, no105, selectInstr, h250, h102, h105, if_false]
    cases v <;> cases d <;> rfl
  all_goals cases v <;> cases d <;> rfl

/-- Settles O47: the frame of a well-formed instruction is in range and selects it. -/
theorem tableSelectsInstruction : Obligations.TableSelectsInstruction := by
  intro i f hw hf
  rw [tableSelect_frameBytes (inRange_of_frame hw hf), selectInstr_of_frame hw hf]

/-! ### RECV as a sequence of host operations (R107) -/

/-- A run of pushes, each of which completes, and what comes behind it. -/
theorem runOps_fbPush_append (bs : List Byte) (is : List Instr) (s : State) :
    runOps (bs.map .fbPush ++ is) s = runOps is (bs.foldl (fun t b => pushFrameByte b t) s) := by
  induction bs generalizing s with
  | nil => rfl
  | cons b bs ih => exact ih (pushFrameByte b s)

theorem runOps_singleton (i : Instr) (s : State) : runOps [i] s = exec i s := by
  rw [runOps]
  cases exec i s <;> rfl

/-- The sequence `RECV` of host operations is the reception in one step, whatever the bytes (R107, R252; log 4). -/
theorem recv_eq_receiveBytes (bs : List Byte) (s : State) : recv bs s = receiveBytes bs s := by
  have hops : runOps (fbLoad bs ++ [.dec]) s = decodeFrameBuffer (loadFrameBytes bs s) :=
    (runOps_fbPush_append bs [.dec] (clearFrameBuffer s)).trans (runOps_singleton .dec _)
  rw [recv, hops, receiveBytes]
  rfl

/-- Settles O44: a wire instruction receives the bytes of its frame, which is what the sequence does. -/
theorem wireStepIsRecv : Obligations.WireStepIsRecv := by
  intro i f s hf
  rw [exec_of_frame hf, receiveFrame, recv_eq_receiveBytes]

/-! ### Received bytes that are not exactly one frame (log 5) -/

theorem splitFrame_ne_checksumMismatch (s : List Byte) : splitFrame s ≠ .error .checksumMismatch := by
  intro h
  simp only [splitFrame] at h
  repeat' split at h
  all_goals cases h

theorem frameDecode_of_splitFrame_error {bs : List Byte} {e : FrameError} (h : splitFrame bs = .error e) :
    frameDecode bs = .error e := by
  rw [frameDecode, h]

/-- `RECV` of a frame in range and bytes behind it: the checksum byte decides, then the registry; `FB` holds all the bytes
(R170). -/
theorem receiveBytes_frameBytes_append {f : Frame} {extra : List Byte} (s : State) (hr : f.inRange = true)
    (fits : (frameBytes f ++ extra).length ≤ 65544) :
    receiveBytes (frameBytes f ++ extra) s = .next
      (if frameChecksum f = f.checksum then
        acceptInterpreted (interpret s.setwpId f.func f.direction f.payload)
          (accepted (frameBytes f ++ extra) f (frameSize f.version f.payload.length) s)
      else rejected (frameBytes f ++ extra) .checksumMismatch s) := by
  rw [receiveBytes_eq _ s fits, frameDecode_frameBytes f extra hr]
  by_cases hc : frameChecksum f = f.checksum
  · simp only [hc, if_true]
  · simp only [hc, if_false]
    rfl

/-- Settles O50: a step on received bytes is `RECV` of them; no frame, a frame with bytes behind it, more bytes than
`FB` holds. -/
theorem inexactBytesReceived : Obligations.InexactBytesReceived := by
  refine ⟨fun s bs rest e hport fits hs => ?_, fun s f extra rest hr hne fits hport => ?_, fun s bs rest hport hlong => ?_⟩
  · refine ⟨?_, fun he => splitFrame_ne_checksumMismatch bs (he ▸ hs)⟩
    rw [step_frame hport, receiveBytes_eq _ _ fits, frameDecode_of_splitFrame_error hs]
  · have hstep := (step_frame hport).trans (receiveBytes_frameBytes_append { s with port := rest } hr fits)
    refine ⟨decodeFramePacket_trailing hr hne, fun hc => ?_, fun hc d hd => ?_, fun hc o ho => ?_⟩
    · rw [hstep, if_neg (Ne.symm hc)]
    · rw [hstep, if_pos hc.symm]
      exact congrArg (fun r => Host.Outcome.next (acceptInterpreted r _)) hd
    · rw [hstep, if_pos hc.symm]
      exact congrArg (fun r => Host.Outcome.next (acceptInterpreted r _)) ho
  · rw [step_frame hport, step_frame rfl]
    exact receiveBytes_take bs _ hlong

/-! ### SEND_SET_WP (R107, R302) -/

/-- `RD SETWP_ID` (R37, R247). -/
theorem exec_rd_setwpId_of_some {s : State} {id : U16} (h : s.setwpId = some id) :
    exec (.rd 0x06) s = .next (deliver (.u16 id) s) := by
  have hread : readRegister s 0x06 = .ok (.u16 id) := by
    change readBasic s 6 = _
    rw [readBasic, h]
  simp only [exec, execRd, hread]

@[inherit_doc exec_rd_setwpId_of_some]
theorem exec_rd_setwpId_of_none {s : State} (h : s.setwpId = none) :
    exec (.rd 0x06) s = .next (failRead .configUnset s) := by
  have hread : readRegister s 0x06 = .error .configUnset := by
    change readBasic s 6 = _
    rw [readBasic, h]
  simp only [exec, execRd, hread]

/-- `SEND_SET_WP` with the id set: `ENC` of the packed waypoint under the id that `RD SETWP_ID` delivers. -/
theorem sendSetWp_of_some (v : Version) (w : Waypoint) {s : State} {id : U16} (h : s.setwpId = some id) :
    sendSetWp v w s
      = execEnc v (dirNumber .request) id (deliver (.u16 id) (stagePayload (packSetwp w) s)) := by
  have hops : runOps [.packSetWp w, .rd 0x06] s = .next (deliver (.u16 id) (stagePayload (packSetwp w) s)) :=
    (runOps_singleton _ _).trans (exec_rd_setwpId_of_some (s := stagePayload (packSetwp w) s) h)
  rw [sendSetWp, hops]
  rfl

/-- `SEND_SET_WP` with the id unset stops at `RD SETWP_ID`. -/
theorem sendSetWp_of_none (v : Version) (w : Waypoint) {s : State} (h : s.setwpId = none) :
    sendSetWp v w s = .next (failRead .configUnset (stagePayload (packSetwp w) s)) := by
  have hops : runOps [.packSetWp w, .rd 0x06] s = .next (failRead .configUnset (stagePayload (packSetwp w) s)) :=
    (runOps_singleton _ _).trans (exec_rd_setwpId_of_none (s := stagePayload (packSetwp w) s) h)
  rw [sendSetWp, hops]
  rfl

theorem packSetwp_length (w : Waypoint) : (packSetwp w).length = 21 := rfl

theorem pbBytes_stagePayload {p : List Byte} (s : State) (h : p.length ≤ 65535) : pbBytes (stagePayload p s) = some p :=
  pbBytes_of_ofBytes rfl (toNat_ofNat_of_lt (Nat.lt_succ_of_le h))

/-- What `ENC` of a payload leaves in `FB` (R164). -/
theorem fbBytes_installEncoded (v : Version) (d : Direction) (func : U16) {p : List Byte} (s : State) (h : p.length ≤ 65535) :
    fbBytes (installEncoded v d func p s) = some (frameEncode v d func p) := by
  have hle : (frameEncode v d func p).length ≤ 65544 := frameEncode_length v d func p ▸ frameSize_le v h
  exact fbBytes_of_ofBytes rfl (toNat_ofNat_of_lt (by omega))

/-- Settles O43: `ENC` of the staged waypoint where the id is set, and the stop at `RD SETWP_ID` where it is not. -/
theorem sendSetWpResult : Obligations.SendSetWpResult := by
  intro v w s
  have fits : (packSetwp w).length ≤ 65535 := by rw [packSetwp_length]; decide
  have hp := pbBytes_stagePayload s fits
  refine ⟨fun id hid hv => ?_, fun hid => ?_⟩
  · have hr : encInRange v id (stagePayload (packSetwp w) s).pbLen.toNat = true := by
      cases v with
      | v1 => exact Bool.and_eq_true_iff.2 ⟨decide_eq_true (hv rfl), rfl⟩
      | v2 => rfl
    refine ⟨_, (sendSetWp_of_some v w hid).trans (execEnc_of_payload (dirOfNumber_dirNumber _) hr hp), ?_, hp, rfl, rfl⟩
    exact fbBytes_installEncoded v .request id _ fits
  · exact ⟨_, sendSetWp_of_none v w hid, rfl, hp, rfl, rfl, rfl⟩

end Sys2Proof.Machine
end

section
/-!
PROOFS of the family 40_checksum_engine.md: the checksum operations and the sequence CSUM (obligations O1, O2, O3), the one engine
and its table (O5, O6), linearity and what it gives (O7, O8, O9). What O5 to O8 say of the shift register rests on one fact,
`getLsbD_crcShift`: which bits an iteration XORs into which.
-/

namespace Sys2Proof.Machine

/-! ### One iteration of the shift register (R131, R136) -/

/-- The test of R131 looks at bit 7. -/
theorem and_topBit_ne_zero_iff (c : Byte) : c &&& 0x80#8 ≠ 0#8 ↔ c.getLsbD 7 = true := by
  have h : c &&& 0x80#8 = if c.getLsbD 7 then 0x80#8 else 0#8 := BitVec.and_twoPow c 7
  rw [h]
  cases c.getLsbD 7 <;> decide

/-- An iteration moves every bit one place up and adds the polynomial if bit 7 was set. -/
theorem getLsbD_crcShift (poly c : Byte) {i : Nat} (hi : i < 8) :
    (crcShift poly c).getLsbD i = ((decide (0 < i) && c.getLsbD (i - 1)) ^^ (c.getLsbD 7 && poly.getLsbD i)) := by
  have hup : (c <<< 1).getLsbD i = (decide (0 < i) && c.getLsbD (i - 1)) := by
    cases i with
    | zero => simp
    | succ i => simp [hi, BitVec.getLsbD_eq_getElem (show i < 8 by omega)]
  simp only [crcShift, and_topBit_ne_zero_iff]
  cases c.getLsbD 7 <;> simp [hup]

theorem crcShift_xor (poly x y : Byte) : crcShift poly (x ^^^ y) = crcShift poly x ^^^ crcShift poly y := by
  refine BitVec.eq_of_getLsbD_eq fun i hi => ?_
  simp only [getLsbD_crcShift _ _ hi, BitVec.getLsbD_xor, Bool.and_xor_distrib_left, Bool.and_xor_distrib_right,
    Bool.xor_assoc, Bool.xor_left_comm]

theorem crcShift_zero (poly : Byte) : crcShift poly 0 = 0 := rfl

/-- With bit 0 of the polynomial set, an iteration loses nothing: bit 0 says what was shifted out. -/
theorem eq_zero_of_crcShift_eq_zero {poly c : Byte} (hpoly : poly.getLsbD 0 = true) (h : crcShift poly c = 0) : c = 0 := by
  have hbit {i : Nat} (hi : i < 8) :
      ((decide (0 < i) && c.getLsbD (i - 1)) ^^ (c.getLsbD 7 && poly.getLsbD i)) = false := by
    rw [← getLsbD_crcShift poly c hi, h]
    exact BitVec.getLsbD_zero
  have htop : c.getLsbD 7 = false := by
    have h0 := hbit (i := 0) (by decide)
    rw [hpoly, Bool.and_true] at h0
    exact (Bool.false_xor _).symm.trans h0
  refine BitVec.eq_of_getLsbD_eq fun i hi => ?_
  rcases Nat.lt_or_ge i 7 with hlt | hge
  · have hup := hbit (i := i + 1) (by omega)
    rw [htop] at hup
    simpa using hup
  · obtain rfl : i = 7 := by omega
    exact htop

/-! ### Several iterations -/

theorem crcRounds_xor (poly : Byte) (n : Nat) (x y : Byte) :
    crcRounds poly n (x ^^^ y) = crcRounds poly n x ^^^ crcRounds poly n y := by
  induction n generalizing x y with
  | zero => rfl
  | succ n ih => rw [crcRounds, crcShift_xor, ih, crcRounds, crcRounds]

theorem crcRounds_zero (poly : Byte) (n : Nat) : crcRounds poly n 0 = 0 := by
  induction n with
  | zero => rfl
  | succ n ih => rw [crcRounds, crcShift_zero, ih]

theorem crcRounds_eq_zero_iff {poly : Byte} (hpoly : poly.getLsbD 0 = true) (n : Nat) (c : Byte) :
    crcRounds poly n c = 0 ↔ c = 0 := by
  refine ⟨fun h => ?_, fun h => h ▸ crcRounds_zero poly n⟩
  induction n generalizing c with
  | zero => exact h
  | succ n ih => exact eq_zero_of_crcShift_eq_zero hpoly (ih _ h)

/-- The polynomial 0x01 puts the bit shifted out of bit 7 back at bit 0: the register rotates. -/
theorem getLsbD_crcRounds_one (n : Nat) (c : Byte) {i : Nat} (hi : i < 8) :
    (crcRounds 0x01 n c).getLsbD i = c.getLsbD ((i + 7 * n) % 8) := by
  induction n generalizing c with
  | zero => rw [crcRounds, Nat.mul_zero, Nat.add_zero, Nat.mod_eq_of_lt hi]
  | succ n ih =>
    have hrot (j : Nat) (hj : j < 8) : (crcShift 0x01 c).getLsbD j = c.getLsbD ((j + 7) % 8) := by
      rw [getLsbD_crcShift _ _ hj]
      cases j with
      | zero => simp
      | succ j => simp [show (j + 1 + 7) % 8 = j by omega]
    rw [crcRounds, ih, hrot _ (Nat.mod_lt _ (by decide))]
    congr 1
    omega

/-- Eight rotations of a byte are none. -/
theorem crcRounds_one_eight (c : Byte) : crcRounds 0x01 8 c = c :=
  BitVec.eq_of_getLsbD_eq fun i hi => by
    rw [getLsbD_crcRounds_one 8 c hi]
    congr 1
    omega

/-- Settles O5: with polynomial 0x01 the eight iterations rotate the byte once round; with 0xD5 they are the CRC step's. -/
theorem oneEngineTwoPolynomials : Obligations.OneEngineTwoPolynomials := fun c b =>
  ⟨crcRounds_one_eight (c ^^^ b), rfl⟩

/-! ### The table (R137) -/

theorem crc8Step_eq_crcTable (c b : Byte) : crc8Step c b = crcTable (c ^^^ b) :=
  congrArg (crcRounds Config.crcPoly 8) BitVec.zero_xor.symm

theorem crcTable_eq_crcRounds (x : Byte) : crcTable x = crcRounds Config.crcPoly 8 x :=
  congrArg (crcRounds Config.crcPoly 8) BitVec.zero_xor

theorem crcTable_xor (x y : Byte) : crcTable (x ^^^ y) = crcTable x ^^^ crcTable y := by
  simp only [crcTable_eq_crcRounds, crcRounds_xor]

theorem crcTable_eq_zero_iff (x : Byte) : crcTable x = 0 ↔ x = 0 := by
  rw [crcTable_eq_crcRounds]
  exact crcRounds_eq_zero_iff rfl 8 x

/-- A linear table that has 0x00 at 0x00 alone is a permutation. -/
theorem crcTable_injective {x y : Byte} (h : crcTable x = crcTable y) : x = y :=
  BitVec.xor_eq_zero_iff.1 <| (crcTable_eq_zero_iff (x ^^^ y)).1 <|
    (crcTable_xor x y).trans (BitVec.xor_eq_zero_iff.2 h)

/-- Settles O6: the step XORs the byte in first; the table is linear and invertible; the printed entries by evaluation. -/
theorem crcTableIsPermutation : Obligations.CrcTableIsPermutation :=
  ⟨crc8Step_eq_crcTable, fun _ _ => crcTable_injective, by decide, by decide, by decide, by decide, by decide⟩

/-! ### The fold of either algorithm (R132, R143, R144) -/

theorem checksum_eq_foldl (v : Version) (s : List Byte) : checksum v s = s.foldl (checksumStep v) 0 := by
  cases v <;> rfl

/-- Both steps are linear in the accumulator and the byte together. -/
theorem checksumStep_xor (v : Version) (c c' b b' : Byte) :
    checksumStep v (c ^^^ c') (b ^^^ b') = checksumStep v c b ^^^ checksumStep v c' b' := by
  have hswap : c ^^^ c' ^^^ (b ^^^ b') = c ^^^ b ^^^ (c' ^^^ b') := by ac_rfl
  cases v with
  | v1 => exact hswap
  | v2 => simp only [checksumStep, crc8Step_eq_crcTable, hswap, crcTable_xor]

/-- Both steps reach 0x00 only from an accumulator that equals the byte. -/
theorem checksumStep_eq_zero_iff (v : Version) (c b : Byte) : checksumStep v c b = 0 ↔ c = b := by
  cases v with
  | v1 => exact BitVec.xor_eq_zero_iff
  | v2 => rw [checksumStep, crc8Step_eq_crcTable, crcTable_eq_zero_iff]; exact BitVec.xor_eq_zero_iff

theorem foldl_checksumStep_xorBytes (v : Version) {s t : List Byte} (h : s.length = t.length) (c c' : Byte) :
    (xorBytes s t).foldl (checksumStep v) (c ^^^ c')
      = s.foldl (checksumStep v) c ^^^ t.foldl (checksumStep v) c' := by
  induction s generalizing t c c' with
  | nil => cases t with
    | nil => rfl
    | cons y t => cases h
  | cons x s ih => cases t with
    | nil => cases h
    | cons y t =>
      have hstep := checksumStep_xor v c c' x y
      exact (congrArg (List.foldl _ · (xorBytes s t)) hstep).trans (ih (Nat.succ.inj h) _ _)

theorem checksum_xorBytes (v : Version) {s t : List Byte} (h : s.length = t.length) :
    checksum v (xorBytes s t) = checksum v s ^^^ checksum v t := by
  simp only [checksum_eq_foldl]
  exact foldl_checksumStep_xorBytes v h 0 0

/-- Settles O7: the step is linear, so the fold is, by induction on the two sequences together. -/
theorem checksumsAreLinear : Obligations.ChecksumsAreLinear := fun _ _ h =>
  ⟨checksum_xorBytes .v1 h, checksum_xorBytes .v2 h⟩

/-- Zero bytes take an accumulator to 0x00 only if it was there. -/
theorem foldl_checksumStep_zeros_eq_zero_iff (v : Version) (n : Nat) (c : Byte) :
    (List.replicate n 0).foldl (checksumStep v) c = 0 ↔ c = 0 := by
  induction n generalizing c with
  | zero => rfl
  | succ n ih => rw [List.replicate_succ, List.foldl_cons, ih, checksumStep_eq_zero_iff]

/-- A pattern with one byte other than 0x00 has a checksum other than 0x00 (R144). -/
theorem checksum_one_byte_ne_zero (v : Version) (before behind : Nat) {b : Byte} (hb : b ≠ 0) :
    checksum v (List.replicate before 0 ++ [b] ++ List.replicate behind 0) ≠ 0 := by
  have hbefore : (List.replicate before 0).foldl (checksumStep v) 0 = 0 :=
    (foldl_checksumStep_zeros_eq_zero_iff v before 0).2 rfl
  rw [checksum_eq_foldl, List.foldl_append, List.foldl_append, hbefore, ne_eq, foldl_checksumStep_zeros_eq_zero_iff]
  exact fun h => hb ((checksumStep_eq_zero_iff v 0 b).1 h).symm

theorem one_shiftLeft_ne_zero {k : Nat} (hk : k < 8) : 1#8 <<< k ≠ 0 := fun h => by
  simpa [hk] using congrArg (·.getLsbD k) h

/-- Settles O8: a byte with one bit set is not 0x00, and neither checksum loses it. -/
theorem oneBitPatternHasChecksum : Obligations.OneBitPatternHasChecksum := fun before behind _ hk =>
  ⟨checksum_one_byte_ne_zero .v1 before behind (one_shiftLeft_ne_zero hk),
    checksum_one_byte_ne_zero .v2 before behind (one_shiftLeft_ne_zero hk)⟩

/-! ### What the XOR fold misses (R145) -/

theorem xor8From_eq (c : Byte) (s : List Byte) : xor8From c s = c ^^^ xor8 s := by
  induction s generalizing c with
  | nil => exact BitVec.xor_zero.symm
  | cons b s ih =>
    have hzero : (0 : Byte) ^^^ b = b := BitVec.zero_xor
    calc xor8From c (b :: s)
      _ = c ^^^ b ^^^ xor8 s := ih (c ^^^ b)
      _ = c ^^^ (0 ^^^ b ^^^ xor8 s) := by rw [hzero, BitVec.xor_assoc]
      _ = c ^^^ xor8 (b :: s) := congrArg (c ^^^ ·) (ih (0 ^^^ b)).symm

theorem xor8_cons (b : Byte) (s : List Byte) : xor8 (b :: s) = b ^^^ xor8 s :=
  (xor8From_eq (0 ^^^ b) s).trans (congrArg (· ^^^ xor8 s) BitVec.zero_xor)

/-- A bit of the XOR fold is clear exactly when it is set in an even number of the bytes. -/
theorem getLsbD_xor8_eq_false_iff (d : List Byte) (k : Nat) :
    (xor8 d).getLsbD k = false ↔ Even (d.countP fun b => b.getLsbD k) := by
  induction d with
  | nil => simp [xor8, xor8From]
  | cons b d ih =>
    rw [xor8_cons, BitVec.getLsbD_xor, List.countP_cons]
    cases b.getLsbD k with
    | false => simpa using ih
    | true => simp [Nat.even_add_one, ← ih]

theorem xor8_eq_zero_iff (d : List Byte) : xor8 d = 0 ↔ ∀ k < 8, Even (d.countP fun b => b.getLsbD k) := by
  simp only [← getLsbD_xor8_eq_false_iff]
  exact ⟨fun h k _ => by rw [h]; exact BitVec.getLsbD_zero, fun h =>
    BitVec.eq_of_getLsbD_eq fun k hk => (h k hk).trans BitVec.getLsbD_zero.symm⟩

theorem xorBytes_length {s d : List Byte} (h : d.length = s.length) : (xorBytes s d).length = s.length := by
  rw [xorBytes, List.length_zipWith, h, Nat.min_self]

/-- A change of the payload by a pattern changes the V1 checksum by the pattern's (R133, R143). -/
theorem cksumV1_xorBytes (len func : Byte) {p d : List Byte} (h : d.length = p.length) :
    cksumV1 len func (xorBytes p d) = cksumV1 len func p ^^^ xor8 d := by
  have hp : xor8 (xorBytes p d) = xor8 p ^^^ xor8 d := checksum_xorBytes .v1 h.symm
  simp only [cksumV1, List.cons_append, List.nil_append, xor8_cons, hp, BitVec.xor_assoc]

theorem inRange_withPayload (f : Frame) {p : List Byte} (h : p.length = f.payload.length) :
    { f with payload := p }.inRange = f.inRange := by
  simp only [Frame.inRange, fitsV1, fitsV2, h]

theorem frameChecksum_of_v1 {f : Frame} (hv : f.version = .v1) :
    frameChecksum f = cksumV1 (BitVec.ofNat 8 f.payload.length) (f.func.setWidth 8) f.payload := by
  rw [frameChecksum, hv]

theorem frameChecksum_xorPayload {f : Frame} {d : List Byte} (hv : f.version = .v1) (h : d.length = f.payload.length) :
    frameChecksum { f with payload := xorBytes f.payload d } = frameChecksum f ^^^ xor8 d := by
  rw [frameChecksum_of_v1 hv, ← cksumV1_xorBytes _ _ h, ← xorBytes_length h]
  exact frameChecksum_of_v1 (f := { f with payload := xorBytes f.payload d }) hv

theorem frameWellFormed_iff (f : Frame) : frameWellFormed f = true ↔ f.inRange = true ∧ f.checksum = frameChecksum f := by
  rw [frameWellFormed, Bool.and_eq_true, verify, beq_iff_eq]

/-- Settles O9: bit by bit for the fold; the changed frame has the old checksum byte, and its fields ask for that byte XORed with
the pattern's fold. -/
theorem xorWeaknessExactly : Obligations.XorWeaknessExactly := by
  refine ⟨xor8_eq_zero_iff, fun f d hv hwf hd => ?_⟩
  obtain ⟨hrange, hck⟩ := (frameWellFormed_iff f).1 hwf
  rw [frameWellFormed_iff, inRange_withPayload f (xorBytes_length hd), frameChecksum_xorPayload hv hd, ← hck]
  exact ⟨fun ⟨_, h⟩ => by simpa using h.symm, fun h => ⟨hrange, by simp [h]⟩⟩

/-! ### The operations (R138 to R141) -/

theorem exec_csInit (mode : Version) (s : State) : exec (.csInit mode) s = .next (finish .ok (withCs 0 mode s)) := rfl

theorem exec_csUpd (b : Byte) (s : State) :
    exec (.csUpd b) s = .next (finish .ok { s with csAcc := checksumStep s.csMode s.csAcc b }) := rfl

theorem exec_csRd (s : State) : exec .csRd s = .next (deliver (.u8 s.csAcc) s) := rfl

theorem exec_csCmp (b : Byte) (s : State) :
    exec (.csCmp b) s = .next (finish (if s.csAcc = b then .ok else .checksumMismatch) s) := by
  rw [exec, execCsCmp]
  split <;> rfl

/-- Register 0x01 is `CS_ACC` (R37). -/
theorem exec_rd_csAcc (s : State) : exec (.rd 0x01) s = .next (deliver (.u8 s.csAcc) s) := rfl

/-- Settles O1: the step of `CS_UPD` is the one `CS_MODE` names, XOR for V1 and CRC for V2. -/
theorem checksumWritersResult : Obligations.ChecksumWritersResult := by
  refine ⟨fun mode s => ⟨exec_csInit mode s, rfl⟩, fun b s => ⟨fun hm => ?_, fun hm => ?_, rfl⟩⟩
  · rw [exec_csUpd, hm]; rfl
  · rw [exec_csUpd, hm]; rfl

/-- Settles O2: `CS_RD` and `RD CS_ACC` are one delivery; the comparison of `CS_CMP` chooses the code alone. -/
theorem checksumReadersResult : Obligations.ChecksumReadersResult := by
  refine ⟨fun s => ⟨exec_csRd s, (exec_rd_csAcc s).trans (exec_csRd s).symm, rfl⟩, fun b s => ?_⟩
  refine ⟨fun h => ?_, fun h => ?_, rfl⟩
  · rw [exec_csCmp, if_pos h]; rfl
  · rw [exec_csCmp, if_neg h]; rfl

/-- A run of updates, each of which completes, folds its bytes into the accumulator; what comes behind it goes on from there. -/
theorem runOps_csUpd_append (mode : Version) (bs : List Byte) (is : List Instr) (c : Byte) (s : State) :
    runOps (bs.map .csUpd ++ is) (finish .ok (withCs c mode s))
      = runOps is (finish .ok (withCs (bs.foldl (checksumStep mode) c) mode s)) := by
  induction bs generalizing c with
  | nil => rfl
  | cons b bs ih => exact ih (checksumStep mode c b)

/-- The sequence CSUM in every state (R139). -/
theorem runOps_csum (mode : Version) (bs : List Byte) (s : State) :
    runOps (csum mode bs) s
      = .next (deliver (.u8 (checksum mode bs)) (finish .ok (withCs (checksum mode bs) mode s))) := by
  rw [checksum_eq_foldl]
  exact (runOps_csUpd_append mode bs [.csRd] 0 s).trans (runOps_singleton .csRd _)

/-- Settles O3: the accumulator holds the fold after `CS_INIT` and the updates, and `CS_RD` delivers it. -/
theorem checksumFoldByOperations : Obligations.ChecksumFoldByOperations := by
  intro mode bs s
  rw [runOps_csum]
  cases mode <;> rfl

end Sys2Proof.Machine
end

section
/-!
PROOFS of the family 41_frame_codec.md: the round trip of frames and what `decode` accepts (obligations O10, O11), the answer of
`decode` in every case and what it does not examine (O13, O12), the operations `ENC` and `DEC` (O17, O19, O20, O21, O42), and one
inverted bit in a frame (O14, O15, O16). What `decode` answers is said once for each of its cases (`frameDecode_cases`), by the
markers, the declared size and the checksum of the bytes; an inverted bit changes one of the three.
-/

namespace Sys2Proof.Machine

/-! ### Encoded frames (R161, R162, R166, R167) -/

/-- The operands that a format can carry (R98), as `ENC` tests them. -/
theorem encInRange_of {v : Version} {func : U16} {len : Nat} (h : v = .v1 → func.toNat ≤ 255 ∧ len ≤ 255) :
    encInRange v func len = true := by
  cases v with
  | v1 => exact Bool.and_eq_true_iff.2 ⟨decide_eq_true (h rfl).1, decide_eq_true (h rfl).2⟩
  | v2 => rfl

/-- Settles O10: what `ENC` writes is a frame in range, and the byte behind its payload is the checksum that was appended. -/
theorem frameRoundTrip : Obligations.FrameRoundTrip := by
  intro v d func p hv1 hv2
  have hp : p.length ≤ 65535 := by
    cases v with
    | v1 => exact (hv1 rfl).2.trans (by decide)
    | v2 => exact hv2 rfl
  refine ⟨?_, ?_⟩
  · rw [frameDecode_frameEncode (encInRange_of hv1) hp, byteAt_frameEncode_last]
    rfl
  · rw [frameEncode_length]
    cases v <;> simp only [frameSize, hdr] <;> omega

/-- The frame's bytes stand at the front of what `decode` accepts (R167). -/
theorem take_of_frameDecode {s : List Byte} {f : Frame} {n : Nat} (h : frameDecode s = .ok (f, n)) :
    s.take n = frameBytes f := by
  obtain ⟨-, rfl, rest, rfl⟩ := (frameDecode_ok_iff s f n).1 h
  exact List.take_left' (frameBytes_length f)

theorem sealFrame_of_wellFormed {f : Frame} (h : frameWellFormed f = true) : sealFrame f = f := by
  rw [sealFrame, ← ((frameWellFormed_iff f).1 h).2]

/-- A well-formed V1 frame is the encoding of its fields: it has flag 0x00 (R160, R161). -/
theorem frameBytes_of_wellFormed_v1 {f : Frame} (h : frameWellFormed f = true) (hv : f.version = .v1) :
    frameBytes f = frameEncode .v1 f.direction f.func f.payload := by
  obtain ⟨hflag, -, -⟩ := (inRange_v1_iff hv).1 ((frameWellFormed_iff f).1 h).1
  rw [← sealFrame_of_wellFormed h, frameEncode_eq, encodedFrame, ← hv, ← hflag]
  rfl

/-- A well-formed V2 frame is the encoding of its fields, its flag byte among them (R160, R162). -/
theorem frameBytes_of_wellFormed_v2 {f : Frame} (h : frameWellFormed f = true) (hv : f.version = .v2) :
    frameBytes f = encodeV2 f.direction f.flag f.func f.payload := by
  rw [← sealFrame_of_wellFormed h, encodeV2, ← hv]
  rfl

/-- Settles O11: accepted bytes begin with the bytes of a well-formed frame, and those are its encoding. -/
theorem frameDecodeSound : Obligations.FrameDecodeSound := by
  intro s f n h
  obtain ⟨hwf, hn, rest, hs⟩ := (frameDecode_ok_iff s f n).1 h
  refine ⟨hwf, hn, ?_, fun hv => ?_, fun hv => ?_⟩
  · rw [hs, hn, List.length_append, frameBytes_length]
    exact Nat.le_add_right _ _
  · rw [take_of_frameDecode h, frameBytes_of_wellFormed_v1 hwf hv]
  · rw [take_of_frameDecode h, frameBytes_of_wellFormed_v2 hwf hv]

/-- `decode` of a well-formed frame is that frame and all its bytes (R163). -/
theorem frameDecode_of_wellFormed {f : Frame} (h : frameWellFormed f = true) :
    frameDecode (frameBytes f) = .ok (f, (frameBytes f).length) :=
  (frameDecode_ok_iff _ f _).2 ⟨h, frameBytes_length f, [], (List.append_nil _).symm⟩

/-! ### `decode`, case by case (R163) -/

/-- The first three bytes are those of a frame of this format and direction (step 1 of R163). -/
structure HasMarkers (s : List Byte) (v : Version) (d : Direction) : Prop where
  length : 3 ≤ s.length
  dollar : byteAt s 0 = Config.dollar
  version : byteAt s 1 = verByte v
  direction : byteAt s 2 = dirByte d

/-- The frame that a byte sequence with the markers of `v` and `d` spells (step 4 of R163). -/
def frameAt (v : Version) (d : Direction) (s : List Byte) : Frame :=
  { version := v, direction := d, flag := headerFlag v s, func := headerFunc v s,
    payload := (s.drop (hdr v)).take (declaredLength v s), checksum := byteAt s (hdr v + declaredLength v s) }

theorem splitFrame_of_no_markers {s : List Byte} (h : ∀ v d, ¬ HasMarkers s v d) : splitFrame s = .error .malformedHeader := by
  unfold splitFrame
  split
  next => rfl
  next h3 =>
    split
    next => rfl
    next h0 =>
      split
      next v d hv hd =>
        exact absurd ⟨Nat.le_of_not_lt h3, not_not.1 h0, verByte_of_verOf hv, dirByte_of_dirOf hd⟩ (h v d)
      next => rfl

theorem splitFrame_of_markers {s : List Byte} {v : Version} {d : Direction} (h : HasMarkers s v d) :
    splitFrame s = if s.length < frameSize v (declaredLength v s) then .error .truncatedPayload
      else .ok (frameAt v d s, frameSize v (declaredLength v s)) := by
  obtain ⟨h3, h0, h1, h2⟩ := h
  rw [splitFrame, if_neg (Nat.not_lt.2 h3), if_neg (not_not.2 h0), h1, h2, verOf_verByte, dirOf_dirByte]
  by_cases hh : s.length < hdr v
  · have hn : s.length < frameSize v (declaredLength v s) := by
      unfold frameSize
      omega
    simp only [hh, hn, if_true]
  · simp only [hh, if_false]
    rfl

theorem frameDecode_of_no_markers {s : List Byte} (h : ∀ v d, ¬ HasMarkers s v d) :
    frameDecode s = .error .malformedHeader :=
  frameDecode_of_splitFrame_error (splitFrame_of_no_markers h)

theorem frameDecode_of_short {s : List Byte} {v : Version} {d : Direction} (h : HasMarkers s v d)
    (hn : s.length < frameSize v (declaredLength v s)) : frameDecode s = .error .truncatedPayload :=
  frameDecode_of_splitFrame_error <| by rw [splitFrame_of_markers h, if_pos hn]

/-- The checksum byte of a declared frame is the one its covered bytes demand (step 4 of R163). -/
def ChecksumHolds (v : Version) (s : List Byte) : Prop :=
  checksum v (coveredBytes v (declaredLength v s) s) = byteAt s (hdr v + declaredLength v s)

theorem frameAt_payload_length {s : List Byte} {v : Version} (d : Direction) (hn : frameSize v (declaredLength v s) ≤ s.length) :
    (frameAt v d s).payload.length = declaredLength v s := by
  unfold frameSize at hn
  simp only [frameAt, List.length_take, List.length_drop]
  omega

theorem frameDecode_of_bad_checksum {s : List Byte} {v : Version} {d : Direction} (h : HasMarkers s v d)
    (hn : frameSize v (declaredLength v s) ≤ s.length) (hc : ¬ ChecksumHolds v s) :
    frameDecode s = .error .checksumMismatch := by
  rw [frameDecode, splitFrame_of_markers h, if_neg (Nat.not_lt.2 hn)]
  simp only [frameAt_payload_length d hn]
  exact if_pos hc

theorem frameDecode_of_whole {s : List Byte} {v : Version} {d : Direction} (h : HasMarkers s v d)
    (hn : frameSize v (declaredLength v s) ≤ s.length) (hc : ChecksumHolds v s) :
    frameDecode s = .ok (frameAt v d s, frameSize v (declaredLength v s)) := by
  rw [frameDecode, splitFrame_of_markers h, if_neg (Nat.not_lt.2 hn)]
  simp only [frameAt_payload_length d hn]
  exact if_neg (not_not.2 hc)

/-- Everything that `decode` can answer, and when (R163). -/
theorem frameDecode_cases (s : List Byte) :
    ((∀ v d, ¬ HasMarkers s v d) ∧ frameDecode s = .error .malformedHeader) ∨
    ∃ v d, HasMarkers s v d ∧
      ((s.length < frameSize v (declaredLength v s) ∧ frameDecode s = .error .truncatedPayload) ∨
       (frameSize v (declaredLength v s) ≤ s.length ∧ ¬ ChecksumHolds v s ∧ frameDecode s = .error .checksumMismatch) ∨
       (frameSize v (declaredLength v s) ≤ s.length ∧ ChecksumHolds v s ∧
         frameDecode s = .ok (frameAt v d s, frameSize v (declaredLength v s)))) := by
  by_cases hm : ∃ v d, HasMarkers s v d
  case neg =>
    have hno : ∀ v d, ¬ HasMarkers s v d := fun v d h => hm ⟨v, d, h⟩
    exact .inl ⟨hno, frameDecode_of_no_markers hno⟩
  case pos =>
    obtain ⟨v, d, h⟩ := hm
    refine .inr ⟨v, d, h, ?_⟩
    rcases Nat.lt_or_ge s.length (frameSize v (declaredLength v s)) with hn | hn
    · exact .inl ⟨hn, frameDecode_of_short h hn⟩
    · by_cases hc : ChecksumHolds v s
      · exact .inr (.inr ⟨hn, hc, frameDecode_of_whole h hn hc⟩)
      · exact .inr (.inl ⟨hn, hc, frameDecode_of_bad_checksum h hn hc⟩)

theorem frameDecode_malformedHeader_iff (s : List Byte) :
    frameDecode s = .error .malformedHeader ↔ ¬ ∃ v d, HasMarkers s v d := by
  refine ⟨fun h => ?_, fun h => frameDecode_of_no_markers fun v d hm => h ⟨v, d, hm⟩⟩
  rcases frameDecode_cases s with ⟨hno, -⟩ | ⟨v, d, -, ⟨-, e⟩ | ⟨-, -, e⟩ | ⟨-, -, e⟩⟩
  · exact fun ⟨v, d, hm⟩ => hno v d hm
  all_goals cases h.symm.trans e

theorem frameDecode_truncatedPayload_iff (s : List Byte) :
    frameDecode s = .error .truncatedPayload ↔
      ∃ v d, HasMarkers s v d ∧ s.length < frameSize v (declaredLength v s) := by
  refine ⟨fun h => ?_, fun ⟨v, d, hm, hn⟩ => frameDecode_of_short hm hn⟩
  rcases frameDecode_cases s with ⟨-, e⟩ | ⟨v, d, hm, ⟨hn, -⟩ | ⟨-, -, e⟩ | ⟨-, -, e⟩⟩
  case inr.inl => exact ⟨v, d, hm, hn⟩
  all_goals cases h.symm.trans e

theorem frameDecode_checksumMismatch_iff (s : List Byte) :
    frameDecode s = .error .checksumMismatch ↔
      ∃ v d, HasMarkers s v d ∧ frameSize v (declaredLength v s) ≤ s.length ∧ ¬ ChecksumHolds v s := by
  refine ⟨fun h => ?_, fun ⟨v, d, hm, hn, hc⟩ => frameDecode_of_bad_checksum hm hn hc⟩
  rcases frameDecode_cases s with ⟨-, e⟩ | ⟨v, d, hm, ⟨-, e⟩ | ⟨hn, hc, -⟩ | ⟨-, -, e⟩⟩
  case inr.inr.inl => exact ⟨v, d, hm, hn, hc⟩
  all_goals cases h.symm.trans e

/-! ### The markers and the size, byte by byte (R93 to R96) -/

theorem hasMarkers_iff (s : List Byte) :
    (∃ v d, HasMarkers s v d) ↔
      3 ≤ s.length ∧ byteAt s 0 = 0x24 ∧ (byteAt s 1 = 0x4D ∨ byteAt s 1 = 0x58) ∧
        (byteAt s 2 = 0x3C ∨ byteAt s 2 = 0x3E ∨ byteAt s 2 = 0x21) := by
  constructor
  · rintro ⟨v, d, h3, h0, h1, h2⟩
    refine ⟨h3, h0, ?_, ?_⟩
    · cases v
      · exact .inl h1
      · exact .inr h1
    · cases d
      · exact .inl h2
      · exact .inr (.inl h2)
      · exact .inr (.inr h2)
  · rintro ⟨h3, h0, h1, h2⟩
    obtain ⟨v, hv⟩ : ∃ v, byteAt s 1 = verByte v := h1.elim (fun h => ⟨.v1, h⟩) fun h => ⟨.v2, h⟩
    obtain ⟨d, hd⟩ : ∃ d, byteAt s 2 = dirByte d :=
      h2.elim (fun h => ⟨.request, h⟩) fun h => h.elim (fun h => ⟨.response, h⟩) fun h => ⟨.error, h⟩
    exact ⟨v, d, h3, h0, hv, hd⟩

theorem verByte_inj {v v' : Version} (h : verByte v = verByte v') : v = v' :=
  Option.some.inj ((verOf_verByte v).symm.trans (h ▸ verOf_verByte v'))

theorem HasMarkers.version_unique {s : List Byte} {v v' : Version} {d : Direction} (h : HasMarkers s v d)
    (h' : byteAt s 1 = verByte v') : v = v' :=
  verByte_inj (h.version.symm.trans h')

/-- A property of the format that byte 1 names, said of each format in turn. -/
theorem exists_markers_and_iff (s : List Byte) (P : Version → Prop) :
    (∃ v d, HasMarkers s v d ∧ P v) ↔
      (∃ v d, HasMarkers s v d) ∧ (byteAt s 1 = verByte .v1 → P .v1) ∧ (byteAt s 1 = verByte .v2 → P .v2) := by
  constructor
  · rintro ⟨v, d, h, hP⟩
    exact ⟨⟨v, d, h⟩, fun h1 => h.version_unique h1 ▸ hP, fun h1 => h.version_unique h1 ▸ hP⟩
  · rintro ⟨⟨v, d, h⟩, h1, h2⟩
    refine ⟨v, d, h, ?_⟩
    cases v with
    | v1 => exact h1 h.version
    | v2 => exact h2 h.version

theorem frameSize_v1_le_iff (s : List Byte) :
    frameSize .v1 (declaredLength .v1 s) ≤ s.length ↔
      5 ≤ s.length ∧ 5 + (byteAt s 3).toNat + 1 ≤ s.length := by
  simp only [frameSize, hdr, declaredLength]
  omega

theorem declaredLength_v2 (s : List Byte) :
    declaredLength .v2 s = (byteAt s 6).toNat + 256 * (byteAt s 7).toNat := le16_toNat s 6

theorem frameSize_v2_le_iff (s : List Byte) :
    frameSize .v2 (declaredLength .v2 s) ≤ s.length ↔
      8 ≤ s.length ∧ 8 + ((byteAt s 6).toNat + 256 * (byteAt s 7).toNat) + 1 ≤ s.length := by
  rw [declaredLength_v2]
  simp only [frameSize, hdr]
  omega

theorem checksumHolds_v2_iff (s : List Byte) :
    let l : Nat := (byteAt s 6).toNat + 256 * (byteAt s 7).toNat
    ChecksumHolds .v2 s ↔ crc8 ((s.take (8 + l)).drop 3) = byteAt s (8 + l) := by
  rw [ChecksumHolds, declaredLength_v2]
  rfl

/-- Settles O13: the three equivalences and the accepted frame, with the format that byte 1 names spelt out. -/
theorem decodeResultExactly : Obligations.DecodeResultExactly := by
  intro s header l1 l2 wholeV1 wholeV2 badV1 badV2
  have hheader : (∃ v d, HasMarkers s v d) ↔ header := hasMarkers_iff s
  have whole1 : frameSize .v1 (declaredLength .v1 s) ≤ s.length ↔ wholeV1 := frameSize_v1_le_iff s
  have whole2 : frameSize .v2 (declaredLength .v2 s) ≤ s.length ↔ wholeV2 := frameSize_v2_le_iff s
  have bad1 : ¬ ChecksumHolds .v1 s ↔ badV1 := Iff.rfl
  have bad2 : ¬ ChecksumHolds .v2 s ↔ badV2 := not_congr (checksumHolds_v2_iff s)
  refine ⟨?_, ?_, ?_, fun hh h1 hw hb => ?_, fun hh h1 hw hb => ?_⟩
  · rw [frameDecode_malformedHeader_iff, hheader]
  · have short1 := Nat.not_le.symm.trans (not_congr whole1)
    have short2 := Nat.not_le.symm.trans (not_congr whole2)
    exact (frameDecode_truncatedPayload_iff s).trans <| (exists_markers_and_iff s _).trans <|
      and_congr hheader (and_congr (imp_congr_right fun _ => short1) (imp_congr_right fun _ => short2))
  · exact (frameDecode_checksumMismatch_iff s).trans <| (exists_markers_and_iff s _).trans <|
      and_congr hheader (and_congr (imp_congr_right fun _ => and_congr whole1 bad1)
        (imp_congr_right fun _ => and_congr whole2 bad2))
  · obtain ⟨v, d, hm⟩ := hheader.2 hh
    cases hm.version_unique (v' := .v1) h1
    exact ⟨d, hm.direction.symm, frameDecode_of_whole hm (whole1.2 hw) (not_not.1 (mt bad1.1 hb))⟩
  · obtain ⟨v, d, hm⟩ := hheader.2 hh
    cases hm.version_unique (v' := .v2) h1
    refine ⟨d, hm.direction.symm, ?_⟩
    rw [frameDecode_of_whole hm (whole2.2 hw) (not_not.1 (mt bad2.1 hb)), frameAt, declaredLength_v2]
    rfl

/-! ### Index 0 and the bytes behind the frame (R170) -/

theorem head?_of_hasMarkers {s : List Byte} {v : Version} {d : Direction} (h : HasMarkers s v d) : s.head? = some 0x24 := by
  obtain ⟨h3, h0, -, -⟩ := h
  cases s with
  | nil => cases h3
  | cons b s => exact congrArg some h0

/-- Settles O12: without `$` at index 0 there are no markers; an accepted sequence begins with the frame's bytes, and whatever
follows them is accepted alike. -/
theorem decodeFromIndexZeroOnly : Obligations.DecodeFromIndexZeroOnly := by
  refine ⟨fun s h => frameDecode_of_no_markers fun v d hm => h (head?_of_hasMarkers hm), fun s rest f n h => ?_⟩
  obtain ⟨hwf, hn, -⟩ := (frameDecode_ok_iff s f n).1 h
  exact (frameDecode_ok_iff _ f n).2 ⟨hwf, hn, rest, by rw [take_of_frameDecode h]⟩

/-! ### ENC and DEC (R164, R165) -/

/-- `ENC` out of the V1 range of ids or payload lengths (R98, R164). -/
theorem encInRange_v1_eq_false {func : U16} {len : Nat} (h : 255 < func.toNat ∨ 255 < len) :
    encInRange .v1 func len = false := by
  refine Bool.and_eq_false_iff.2 (h.imp (fun h => ?_) fun h => ?_)
  · exact decide_eq_false (Nat.not_le.2 h)
  · exact decide_eq_false (Nat.not_le.2 h)

theorem exec_enc_of_out_of_range {v : Version} {dir : BitVec 2} {func : U16} {s : State}
    (h : dirOfNumber dir = none ∨ encInRange v func s.pbLen.toNat = false) :
    exec (.enc v dir func) s = .next (finish .fieldRange s) := execEnc_of_out_of_range h

/-- Settles O17: the payload in range is encoded, whatever `FB` held; direction 3 and the V1 ranges are refused. -/
theorem encResult : Obligations.EncResult := by
  intro v func s
  refine ⟨fun d p hp hv => ?_, exec_enc_of_out_of_range (.inl rfl), fun dir hv h => ?_, rfl, rfl, rfl, fun _ => rfl⟩
  · rw [exec, execEnc_of_payload (dirOfNumber_dirNumber d) (encInRange_of hv) hp, installEncoded, frameEncode_length]
    rfl
  · subst hv
    exact exec_enc_of_out_of_range (.inr (encInRange_v1_eq_false h))

theorem exec_dec_of_fbBytes {s : State} {bs : List Byte} (h : fbBytes s = some bs) :
    exec .dec s = .next (acceptDecoded (frameDecode bs) s) := decodeFrameBuffer_eq h

/-- Settles O19: the answer of `decode` on what `FB` holds chooses between the two ways `DEC` ends. -/
theorem decResult : Obligations.DecResult := by
  intro s bs hbs refused
  have hdec := exec_dec_of_fbBytes hbs
  refine ⟨fun f n h => ?_, fun h => ?_, fun h => ?_, fun h => ?_, rfl, rfl, rfl, rfl⟩
  all_goals rw [hdec, h]; rfl

/-- `DEC` of the frame that `ENC` wrote finds the payload that `PB` still holds and the fields that the FR group still says
(R166). -/
theorem exec_dec_installEncoded {v : Version} {func : U16} {p : List Byte} (d : Direction) {s : State}
    (hr : encInRange v func p.length = true) (hpb : s.pb = Memory.ofBytes p) (hlen : p.length = s.pbLen.toNat) :
    exec .dec (installEncoded v d func p s) = .next (installEncoded v d func p s) := by
  have hp : p.length ≤ 65535 := hlen ▸ Nat.le_of_lt_succ s.pbLen.isLt
  have hpbLen : BitVec.ofNat 16 p.length = s.pbLen := by rw [hlen, BitVec.ofNat_toNat, BitVec.setWidth_eq]
  rw [exec_dec_of_fbBytes (fbBytes_installEncoded v d func s hp), frameDecode_frameEncode hr hp]
  simp only [acceptDecoded, installEncoded, byteAt_frameEncode_last, finish, frameRegsOf, encodedFrame, sealFrame, hpb, hpbLen]

/-- Settles O20: an `ENC` that ends in `Ok` has installed the encoding of what `PB` holds. -/
theorem encThenDecChangesNothing : Obligations.EncThenDecChangesNothing := by
  intro v dir func s t hheld henc hok
  obtain ⟨p, hp, hpb, hlen⟩ := buffersHeld_pbBytes hheld
  rcases execEnc_cases henc with rfl | ⟨d, q, hr, hq, rfl⟩
  · cases hok
  · cases hp.symm.trans hq
    exact exec_dec_installEncoded d (hlen ▸ hr) hpb hlen

/-- `DEC` does not write `FB` (R165). -/
theorem fbBytes_acceptDecoded (r : Except FrameError (Frame × Nat)) (s : State) : fbBytes (acceptDecoded r s) = fbBytes s := by
  cases r <;> rfl

theorem acceptDecoded_acceptDecoded (r : Except FrameError (Frame × Nat)) (s : State) :
    acceptDecoded r (acceptDecoded r s) = acceptDecoded r s := by
  cases r <;> rfl

/-- `DEC` reads `FB` alone, which it leaves, so it decodes the same bytes again (R172). -/
theorem exec_dec_idempotent {s t : State} (h : exec .dec s = .next t) : exec .dec t = .next t := by
  cases hbs : fbBytes s with
  | none => cases h.symm.trans (decodeFrameBuffer_of_hole hbs)
  | some bs =>
    cases h.symm.trans (exec_dec_of_fbBytes hbs)
    rw [exec_dec_of_fbBytes ((fbBytes_acceptDecoded _ s).trans hbs), acceptDecoded_acceptDecoded]

/-- `UNPACK` reads the FR group, `PB` and `SETWP_ID` and writes none of them (R206). -/
theorem exec_unpack_idempotent {s t : State} (h : exec .unpack s = .next t) : exec .unpack t = .next t := by
  rcases unpackFrame_cases h with ⟨hf, rfl⟩ | ⟨f, p, e, hf, hp, hi, rfl⟩ | ⟨f, p, d, hf, hp, hi, rfl⟩
  case inl => exact unpackFrame_of_no_frame hf
  all_goals
    refine (unpackFrame_of_payload (f := f) (p := p) hf hp).trans ?_
    rw [finish, hi]
    rfl

/-- Settles O21: neither operation writes what it reads. -/
theorem decodingIsIdempotent : Obligations.DecodingIsIdempotent :=
  fun _ _ => ⟨exec_dec_idempotent, exec_unpack_idempotent⟩

/-- Settles O42: the frame of a well-formed wire instruction is in range, so its checksum byte decides before its command. -/
theorem badChecksumDiscarded : Obligations.BadChecksumDiscarded := by
  intro i f s hf hwf hck
  rw [exec_of_frame hf, receiveFrame_eq f s (inRange_of_frame hwf hf), if_neg (Ne.symm hck)]

/-! ### One inverted bit in a byte sequence -/

@[simp] theorem flipBit_length (s : List Byte) (i k : Nat) : (flipBit s i k).length = s.length := List.length_modify _ _ _

theorem byteAt_flipBit_same {s : List Byte} {i : Nat} (k : Nat) (hi : i < s.length) :
    byteAt (flipBit s i k) i = byteAt s i ^^^ 1#8 <<< k := by
  rw [byteAt_eq_getElem hi, byteAt_eq_getElem (by simpa using hi)]
  exact List.getElem_modify_eq ..

theorem byteAt_flipBit_of_ne (s : List Byte) {i n : Nat} (k : Nat) (h : i ≠ n) : byteAt (flipBit s i k) n = byteAt s n := by
  simp [byteAt, List.getD_eq_getElem?_getD, flipBit, h]

theorem flipBit_append {s t : List Byte} {i : Nat} (k : Nat) (hi : i < s.length) :
    flipBit (s ++ t) i k = flipBit s i k ++ t := by
  induction s generalizing i with
  | nil => cases hi
  | cons x s ih => cases i with
    | zero => rfl
    | succ i => exact congrArg (x :: ·) (ih (Nat.lt_of_succ_lt_succ hi))

theorem xor_bit_ne (b : Byte) {k : Nat} (hk : k < 8) : b ^^^ 1#8 <<< k ≠ b := fun h =>
  one_shiftLeft_ne_zero hk (by simpa using h)

theorem xorBytes_zeros (s : List Byte) : xorBytes s (List.replicate s.length 0) = s := by
  induction s with
  | nil => rfl
  | cons x s ih =>
    have hx : x ^^^ 0 = x := BitVec.xor_zero
    simpa only [xorBytes, List.length_cons, List.replicate_succ, List.zipWith_cons_cons, hx, List.cons.injEq, true_and] using ih

/-- An inverted bit is the XOR of a pattern that is 0x00 everywhere else. -/
theorem flipBit_eq_xorBytes {s : List Byte} {i : Nat} (k : Nat) (hi : i < s.length) :
    flipBit s i k
      = xorBytes s (List.replicate i 0 ++ [1#8 <<< k] ++ List.replicate (s.length - (i + 1)) 0) := by
  induction s generalizing i with
  | nil => cases hi
  | cons x s ih => cases i with
    | zero => exact congrArg (_ :: ·) (xorBytes_zeros s).symm
    | succ i =>
      have hx : x ^^^ 0 = x := BitVec.xor_zero
      have hrest := ih (Nat.lt_of_succ_lt_succ hi)
      rw [List.length_cons, Nat.add_sub_add_right]
      exact congrArg₂ (· :: ·) hx.symm hrest

/-- Neither checksum misses one inverted bit (R144, R168). -/
theorem checksum_flipBit_ne (v : Version) {s : List Byte} {i k : Nat} (hi : i < s.length) (hk : k < 8) :
    checksum v (flipBit s i k) ≠ checksum v s := by
  rw [flipBit_eq_xorBytes k hi, checksum_xorBytes]
  · intro h
    exact checksum_one_byte_ne_zero v i (s.length - (i + 1)) (one_shiftLeft_ne_zero hk) (by simpa using h)
  · simp
    omega

/-! ### One inverted bit in what the checksum protects (R168 (c), (d)) -/

theorem coveredBytes_length {v : Version} {len : Nat} {s : List Byte} (h : hdr v + len ≤ s.length) :
    (coveredBytes v len s).length = hdr v + len - 3 := by
  rw [coveredBytes, List.length_drop, List.length_take, Nat.min_eq_left h]

theorem coveredBytes_flipBit_of_ge (v : Version) {len : Nat} (s : List Byte) {i : Nat} (k : Nat) (hi : hdr v + len ≤ i) :
    coveredBytes v len (flipBit s i k) = coveredBytes v len s := by
  rw [coveredBytes, coveredBytes, flipBit, List.take_modify, List.modify_eq_self]
  rw [List.length_take]
  omega

theorem coveredBytes_flipBit (v : Version) (len : Nat) (s : List Byte) {i : Nat} (k : Nat) (h3 : 3 ≤ i) :
    coveredBytes v len (flipBit s i k) = flipBit (coveredBytes v len s) (i - 3) k := by
  rw [coveredBytes, coveredBytes, flipBit, flipBit, List.take_modify, List.drop_modify_of_ge _ _ _ _ h3]

/-- A checksum byte that held does not hold after one bit of the covered bytes or of the byte itself is inverted. -/
theorem checksum_flipBit_coveredBytes_ne {v : Version} {s : List Byte} {len i k : Nat} (hs : hdr v + len < s.length) (h3 : 3 ≤ i)
    (hi : i ≤ hdr v + len) (hk : k < 8) (hc : checksum v (coveredBytes v len s) = byteAt s (hdr v + len)) :
    checksum v (coveredBytes v len (flipBit s i k)) ≠ byteAt (flipBit s i k) (hdr v + len) := by
  rcases Nat.lt_or_eq_of_le hi with hlt | rfl
  · have hcov : i - 3 < (coveredBytes v len s).length := by
      rw [coveredBytes_length hs.le]
      omega
    rw [coveredBytes_flipBit v len s k h3, byteAt_flipBit_of_ne s k hlt.ne, ← hc]
    exact checksum_flipBit_ne v hcov hk
  · rw [coveredBytes_flipBit_of_ge v s k (Nat.le_refl _), byteAt_flipBit_same k hs, hc]
    exact (xor_bit_ne _ hk).symm

theorem HasMarkers.congr {s t : List Byte} {v : Version} {d : Direction} (h : HasMarkers s v d) (hl : 3 ≤ t.length)
    (hb : ∀ n < 3, byteAt t n = byteAt s n) : HasMarkers t v d :=
  ⟨hl, (hb 0 (by decide)).trans h.dollar, (hb 1 (by decide)).trans h.version, (hb 2 (by decide)).trans h.direction⟩

theorem HasMarkers.flipBit {s : List Byte} {v : Version} {d : Direction} {i : Nat} (h : HasMarkers s v d) (k : Nat) (h3 : 3 ≤ i) :
    HasMarkers (flipBit s i k) v d :=
  h.congr (by simpa using h.length) fun n hn => byteAt_flipBit_of_ne s k (show i ≠ n by omega)

/-- The length field is byte 3 in V1, bytes 6 and 7 in V2 (R95). -/
theorem declaredLength_congr {s t : List Byte} {v : Version} (h1 : v = .v1 → byteAt t 3 = byteAt s 3)
    (h2 : v = .v2 → byteAt t 6 = byteAt s 6 ∧ byteAt t 7 = byteAt s 7) : declaredLength v t = declaredLength v s := by
  cases v with
  | v1 => rw [declaredLength, declaredLength, h1 rfl]
  | v2 => rw [declaredLength_v2, declaredLength_v2, (h2 rfl).1, (h2 rfl).2]

theorem three_le_frameBytes_length (f : Frame) : 3 ≤ (frameBytes f).length := by
  have : 3 ≤ hdr f.version := by cases f.version <;> decide
  rw [frameBytes_length, frameSize]
  omega

/-- The bytes of a frame begin with its markers (R91, R92). -/
theorem hasMarkers_frameBytes (f : Frame) : HasMarkers (frameBytes f) f.version f.direction := by
  refine ⟨three_le_frameBytes_length f, ?_, ?_, ?_⟩
  all_goals
    obtain ⟨v, d, g, func, p, c⟩ := f
    cases v <;> rfl

theorem declaredLength_frameBytes {f : Frame} (h : f.inRange = true) :
    declaredLength f.version (frameBytes f) = f.payload.length := by
  simpa using (header_fields f [] h).1

/-- The checksum byte of a well-formed frame stands behind its payload and is the one its covered bytes demand. -/
theorem checksum_frameBytes {f : Frame} (h : frameWellFormed f = true) :
    checksum f.version (coveredBytes f.version f.payload.length (frameBytes f))
      = byteAt (frameBytes f) (hdr f.version + f.payload.length) := by
  have hcov := checksum_coveredBytes f []
  have hck := byteAt_frameBytes_checksum f []
  rw [List.append_nil] at hcov hck
  rw [hcov, hck, ((frameWellFormed_iff f).1 h).2]

/-- Settles O14: the markers and the length field stay, so the frame is cut as before, and its checksum byte no longer holds. -/
theorem oneBitFlipIsCaught : Obligations.OneBitFlipIsCaught := by
  intro f i k hwf hk hi hv1 hv2
  have hr := ((frameWellFormed_iff f).1 hwf).1
  have hsize : frameSize f.version f.payload.length = hdr f.version + f.payload.length + 1 := rfl
  rw [frameBytes_length] at hi
  have h3 : 3 ≤ i := by
    cases hv : f.version with
    | v1 => have := hv1 hv; omega
    | v2 => have := hv2 hv; omega
  have hkeep : ∀ n, i ≠ n → byteAt (flipBit (frameBytes f) i k) n = byteAt (frameBytes f) n :=
    fun n => byteAt_flipBit_of_ne _ k
  have hmark : HasMarkers (flipBit (frameBytes f) i k) f.version f.direction :=
    (hasMarkers_frameBytes f).flipBit k h3
  have hlen : declaredLength f.version (flipBit (frameBytes f) i k) = f.payload.length :=
    (declaredLength_congr (fun hv => hkeep 3 (by have := hv1 hv; omega))
      fun hv => ⟨hkeep 6 (by have := hv2 hv; omega), hkeep 7 (by have := hv2 hv; omega)⟩).trans (declaredLength_frameBytes hr)
  refine frameDecode_of_bad_checksum hmark (by rw [hlen, flipBit_length, frameBytes_length]) ?_
  rw [ChecksumHolds, hlen]
  exact checksum_flipBit_coveredBytes_ne (by rw [frameBytes_length]; omega) h3 (by omega) hk (checksum_frameBytes hwf)

/-! ### One inverted bit in the markers (R168 (a), (b), R169) -/

theorem verByte_xor_bit_ne (v v' : Version) {k : Nat} (hk : k < 8) : verByte v ^^^ 1#8 <<< k ≠ verByte v' := by
  revert k
  cases v <;> cases v' <;> decide

/-- The markers of a Request and a Response differ in bit 1, and no other two differ in one bit (R93, R169). -/
theorem direction_of_dirByte_xor_bit {d d' : Direction} {k : Nat} (hk : k < 8) (h : dirByte d ^^^ 1#8 <<< k = dirByte d') :
    k = 1 ∧ d ≠ .error := by
  revert k
  cases d <;> cases d' <;> decide

theorem frameDecode_flipBit_dollar (f : Frame) {k : Nat} (hk : k < 8) :
    frameDecode (flipBit (frameBytes f) 0 k) = .error .malformedHeader := by
  have hf := hasMarkers_frameBytes f
  have hbyte := byteAt_flipBit_same k (Nat.zero_lt_of_lt hf.length)
  rw [hf.dollar] at hbyte
  exact frameDecode_of_no_markers fun v d h => xor_bit_ne _ hk (hbyte.symm.trans h.dollar)

theorem frameDecode_flipBit_version (f : Frame) {k : Nat} (hk : k < 8) :
    frameDecode (flipBit (frameBytes f) 1 k) = .error .malformedHeader := by
  have hf := hasMarkers_frameBytes f
  have hbyte := byteAt_flipBit_same (i := 1) k (lt_of_lt_of_le (by decide) hf.length)
  rw [hf.version] at hbyte
  exact frameDecode_of_no_markers fun v d h => verByte_xor_bit_ne _ v hk (hbyte.symm.trans h.version)

theorem frameDecode_flipBit_direction {f : Frame} {k : Nat} (hk : k < 8) (h : k ≠ 1 ∨ f.direction = .error) :
    frameDecode (flipBit (frameBytes f) 2 k) = .error .malformedHeader := by
  have hf := hasMarkers_frameBytes f
  have hbyte := byteAt_flipBit_same (i := 2) k (lt_of_lt_of_le (by decide) hf.length)
  rw [hf.direction] at hbyte
  refine frameDecode_of_no_markers fun v d hm => ?_
  obtain ⟨h1, hd⟩ := direction_of_dirByte_xor_bit hk (hbyte.symm.trans hm.direction)
  exact h.elim (· h1) hd

/-- The checksum does not cover the direction (R169). -/
theorem frameWellFormed_withDirection (f : Frame) (d : Direction) :
    frameWellFormed { f with direction := d } = frameWellFormed f := rfl

theorem flipBit_frameBytes_direction {f : Frame} {d : Direction} {k : Nat} (h : dirByte f.direction ^^^ 1#8 <<< k = dirByte d) :
    flipBit (frameBytes f) 2 k = frameBytes { f with direction := d } := by
  obtain ⟨v, d', g, func, p, c⟩ := f
  cases v <;> simp [flipBit, frameBytes, frameHeader, ← h]

theorem frameDecode_flipBit_swapped {f : Frame} {d : Direction} {k : Nat} (hwf : frameWellFormed f = true)
    (h : dirByte f.direction ^^^ 1#8 <<< k = dirByte d) :
    frameDecode (flipBit (frameBytes f) 2 k) = .ok ({ f with direction := d }, (frameBytes f).length) := by
  have hd := frameDecode_of_wellFormed ((frameWellFormed_withDirection f d).trans hwf)
  rw [flipBit_frameBytes_direction h, hd, frameBytes_length, frameBytes_length]

/-- Settles O15: an inverted bit makes no marker out of a marker, but for bit 1 of a Request's or a Response's, after which the
bytes are those of the frame with the other direction. -/
theorem oneBitFlipInMarkers : Obligations.OneBitFlipInMarkers := by
  intro f k hwf hk
  refine ⟨frameDecode_flipBit_dollar f hk, frameDecode_flipBit_version f hk, frameDecode_flipBit_direction hk,
    fun h1 hd => ?_, fun h1 hd => ?_⟩
  · exact frameDecode_flipBit_swapped hwf (by rw [h1, hd]; rfl)
  · exact frameDecode_flipBit_swapped hwf (by rw [h1, hd]; rfl)

/-! ### One inverted bit in the length field (R168 (e)) -/

/-- Inverting a bit that is set takes its weight away. -/
theorem xor_two_pow_of_testBit {m n : Nat} (h : m.testBit n = true) : m ^^^ 2 ^ n = m - 2 ^ n := by
  suffices (m ^^^ 2 ^ n) + 2 ^ n = m by omega
  induction n generalizing m with
  | zero =>
    have hodd : m % 2 = 1 := by simpa using h
    rw [pow_zero, Nat.xor_one_of_odd (Nat.odd_iff.2 hodd)]
    omega
  | succ n ih =>
    rw [Nat.testBit_succ] at h
    have hhalf := ih h
    have hdiv : (m ^^^ 2 ^ (n + 1)) / 2 = m / 2 ^^^ 2 ^ n := by
      rw [Nat.xor_div_two, Nat.pow_succ, Nat.mul_div_cancel _ (by decide)]
    have hmod : (m ^^^ 2 ^ (n + 1)) % 2 = (m + 2 ^ (n + 1)) % 2 := Nat.xor_mod_two_eq
    omega

/-- Inverting a bit that is clear adds its weight. -/
theorem xor_two_pow_of_not_testBit {m n : Nat} (h : m.testBit n = false) : m ^^^ 2 ^ n = m + 2 ^ n := by
  have hset : (m ^^^ 2 ^ n).testBit n = true := by rw [Nat.testBit_xor, h, Nat.testBit_two_pow_self]; rfl
  have hback := xor_two_pow_of_testBit hset
  rw [Nat.xor_assoc, Nat.xor_self, Nat.xor_zero] at hback
  have := Nat.ge_two_pow_of_testBit hset
  omega

theorem ofNat_xor_two_pow (w m n : Nat) : BitVec.ofNat w (m ^^^ 2 ^ n) = BitVec.ofNat w m ^^^ 1#w <<< n := by
  have hbit : BitVec.ofNat w (2 ^ n) = BitVec.twoPow w n := BitVec.eq_of_toNat_eq <| by
    rw [BitVec.toNat_ofNat, BitVec.toNat_twoPow]
  rw [BitVec.ofNat_xor, hbit, BitVec.twoPow_eq]

/-- The number of bits of the length field (R95). -/
def lengthBits : Version → Nat
  | .v1 => 8
  | .v2 => 16

/-- Bit `k` of byte `i` of a frame is bit `n` of its length field (R91, R92, R95). -/
inductive LengthBit (k : Nat) : Version → (i n : Nat) → Prop
  | v1 : LengthBit k .v1 3 k
  | v2Low : LengthBit k .v2 6 k
  | v2High : LengthBit k .v2 7 (8 + k)

theorem LengthBit.index_lt_hdr {k i n : Nat} {v : Version} (h : LengthBit k v i n) : i < hdr v := by
  cases h <;> decide

theorem LengthBit.lt_lengthBits {k i n : Nat} {v : Version} (h : LengthBit k v i n) (hk : k < 8) : n < lengthBits v := by
  cases h with
  | v1 => exact hk
  | v2Low => exact hk.trans (by decide)
  | v2High => exact Nat.add_lt_add_left hk 8

theorem leBytes16_xor (x y : U16) :
    leBytes16 (x ^^^ y) = [x.setWidth 8 ^^^ y.setWidth 8, (x >>> 8).setWidth 8 ^^^ (y >>> 8).setWidth 8] := by
  rw [leBytes16, BitVec.ushiftRight_xor_distrib, BitVec.setWidth_xor, BitVec.setWidth_xor]

theorem flipBit_leBytes16_low (x : U16) {k : Nat} (hk : k < 8) :
    flipBit (leBytes16 x) 0 k = leBytes16 (x ^^^ 1#16 <<< k) := by
  have hbit : ∀ k : Nat, k < 8 → (1#16 <<< k).setWidth 8 = 1#8 <<< k ∧ ((1#16 <<< k) >>> 8).setWidth 8 = 0#8 := by decide
  obtain ⟨hlow, hhigh⟩ := hbit k hk
  rw [leBytes16_xor, hlow, hhigh, BitVec.xor_zero]
  rfl

theorem flipBit_leBytes16_high (x : U16) {k : Nat} (hk : k < 8) :
    flipBit (leBytes16 x) 1 k = leBytes16 (x ^^^ 1#16 <<< (8 + k)) := by
  have hbit : ∀ k : Nat, k < 8 →
      (1#16 <<< (8 + k)).setWidth 8 = 0#8 ∧ ((1#16 <<< (8 + k)) >>> 8).setWidth 8 = 1#8 <<< k := by decide
  obtain ⟨hlow, hhigh⟩ := hbit k hk
  rw [leBytes16_xor, hlow, hhigh, BitVec.xor_zero]
  rfl

/-- Inverting bit `n` of the length field gives the header of a frame whose payload has the length that the field then says. -/
theorem flipBit_frameHeader_length {f : Frame} {q : List Byte} (c : Byte) {k i n : Nat}
    (hb : LengthBit k f.version i n) (hk : k < 8) (hq : q.length = f.payload.length ^^^ 2 ^ n) :
    flipBit (frameHeader f) i k = frameHeader { f with payload := q, checksum := c } := by
  obtain ⟨v, d, g, func, p, c'⟩ := f
  have hlen (w : Nat) : BitVec.ofNat w q.length = BitVec.ofNat w p.length ^^^ 1#w <<< n := hq ▸ ofNat_xor_two_pow w p.length n
  simp only [frameHeader, hlen]
  cases hb with
  | v1 => rfl
  | v2Low => rw [← flipBit_leBytes16_low _ hk]; rfl
  | v2High => rw [← flipBit_leBytes16_high _ hk]; rfl

theorem flipBit_frameBytes_length {f : Frame} {q : List Byte} (c : Byte) {k i n : Nat}
    (hb : LengthBit k f.version i n) (hk : k < 8) (hq : q.length = f.payload.length ^^^ 2 ^ n) :
    flipBit (frameBytes f) i k = frameHeader { f with payload := q, checksum := c } ++ (f.payload ++ [f.checksum]) := by
  have hi : i < (frameHeader f).length := frameHeader_length f ▸ hb.index_lt_hdr
  rw [frameBytes, List.append_assoc, flipBit_append k hi, flipBit_frameHeader_length c hb hk hq]

/-- R98, R160: of a frame in range, another payload that the length field can say, under any checksum byte, is in range too. -/
theorem inRange_withPayload_of_lt {f : Frame} (hr : f.inRange = true) {q : List Byte} (c : Byte)
    (hq : q.length < 2 ^ lengthBits f.version) : { f with payload := q, checksum := c }.inRange = true := by
  obtain ⟨v, d, g, func, p, c'⟩ := f
  cases v with
  | v1 =>
    obtain ⟨hflag, hfunc, -⟩ := (inRange_v1_iff rfl).1 hr
    exact (inRange_v1_iff rfl).2 ⟨hflag, hfunc, Nat.le_of_lt_succ hq⟩
  | v2 => exact (inRange_v2_iff rfl).2 (Nat.le_of_lt_succ hq)

theorem payload_length_lt_of_inRange {f : Frame} (hr : f.inRange = true) : f.payload.length < 2 ^ lengthBits f.version := by
  cases hv : f.version with
  | v1 => exact Nat.lt_succ_of_le ((inRange_v1_iff hv).1 hr).2.2
  | v2 => exact Nat.lt_succ_of_le ((inRange_v2_iff hv).1 hr)

/-- The first bytes of a frame, the markers among them but not the whole frame, are truncated (R273). -/
theorem frameDecode_of_cut_short {f : Frame} {s rest : List Byte} (hr : f.inRange = true) (h : frameBytes f = s ++ rest)
    (h3 : 3 ≤ s.length) (hrest : rest ≠ []) : frameDecode s = .error .truncatedPayload := by
  have hb : ∀ n < s.length, byteAt s n = byteAt (frameBytes f) n := fun n hn => by rw [h, byteAt_append_left hn]
  have hmark : HasMarkers s f.version f.direction := (hasMarkers_frameBytes f).congr h3 fun n hn => hb n (by omega)
  have hlt : s.length < frameSize f.version f.payload.length := by
    rw [← frameBytes_length, h, List.length_append]
    exact Nat.lt_add_of_pos_right (List.length_pos_of_ne_nil hrest)
  refine frameDecode_of_short hmark ?_
  rcases Nat.lt_or_ge s.length (hdr f.version) with hshort | hlong
  · rw [frameSize]
    omega
  · have hlen : declaredLength f.version s = f.payload.length := by
      refine (declaredLength_congr (fun hv => hb 3 ?_) fun hv => ⟨hb 6 ?_, hb 7 ?_⟩).trans (declaredLength_frameBytes hr)
      all_goals
        rw [hv] at hlong
        exact lt_of_lt_of_le (by decide) hlong
    rwa [hlen]

/-- A length bit inverted upwards: the bytes are the front of a longer frame, of which the rest is missing. -/
theorem frameDecode_flipBit_length_raised {f : Frame} {k i n : Nat} (hr : f.inRange = true) (hb : LengthBit k f.version i n)
    (hk : k < 8) (hclear : f.payload.length.testBit n = false) :
    frameDecode (flipBit (frameBytes f) i k) = .error .truncatedPayload := by
  have hpos : 0 < 2 ^ n := Nat.two_pow_pos n
  obtain ⟨q, hq⟩ : ∃ q, q = f.payload ++ [f.checksum] ++ List.replicate (2 ^ n - 1) 0 := ⟨_, rfl⟩
  have hlen : q.length = f.payload.length ^^^ 2 ^ n := by
    rw [xor_two_pow_of_not_testBit hclear, hq]
    simp only [List.length_append, List.length_replicate, List.length_singleton]
    omega
  have hfits : q.length < 2 ^ lengthBits f.version :=
    hlen ▸ Nat.xor_lt_two_pow (payload_length_lt_of_inRange hr) (Nat.pow_lt_pow_right (by decide) (hb.lt_lengthBits hk))
  have hlonger : frameBytes { f with payload := q, checksum := 0 }
      = flipBit (frameBytes f) i k ++ (List.replicate (2 ^ n - 1) 0 ++ [0]) := by
    rw [flipBit_frameBytes_length 0 hb hk hlen, frameBytes, List.append_assoc, List.append_assoc]
    simp only [hq, List.append_assoc]
  refine frameDecode_of_cut_short (inRange_withPayload_of_lt hr 0 hfits) hlonger ?_ (by simp)
  rw [flipBit_length]
  exact three_le_frameBytes_length f

/-- A length bit inverted downwards: the bytes begin with the re-cut frame (R168 (e)). -/
theorem frameDecode_flipBit_length_lowered {f : Frame} {k i n : Nat} (hr : f.inRange = true) (hb : LengthBit k f.version i n)
    (hk : k < 8) (hset : f.payload.length.testBit n = true) :
    let l := f.payload.length - 2 ^ n
    frameDecode (flipBit (frameBytes f) i k)
      = if byteAt f.payload l = frameChecksum (recut f l) then .ok (recut f l, frameSize f.version l)
        else .error .checksumMismatch := by
  intro l
  have hl : l < f.payload.length :=
    Nat.sub_lt ((Nat.two_pow_pos n).trans_le (Nat.ge_two_pow_of_testBit hset)) (Nat.two_pow_pos n)
  have hlen : (recut f l).payload.length = l := List.length_take_of_le hl.le
  have hrange : (recut f l).inRange = true :=
    inRange_withPayload_of_lt hr _ (hlen.trans_lt (hl.trans (payload_length_lt_of_inRange hr)))
  have hpayload : f.payload = (recut f l).payload ++ [(recut f l).checksum] ++ f.payload.drop (l + 1) := by
    simp [recut, byteAt_eq_getElem hl]
  have hbytes : flipBit (frameBytes f) i k = frameBytes (recut f l) ++ (f.payload.drop (l + 1) ++ [f.checksum]) := calc
    flipBit (frameBytes f) i k
    _ = frameHeader (recut f l) ++ (f.payload ++ [f.checksum]) :=
      flipBit_frameBytes_length _ hb hk (hlen.trans (xor_two_pow_of_testBit hset).symm)
    _ = frameHeader (recut f l) ++ ((recut f l).payload ++ [(recut f l).checksum] ++ f.payload.drop (l + 1) ++ [f.checksum]) :=
      congrArg (fun p => _ ++ (p ++ _)) hpayload
    _ = frameBytes (recut f l) ++ (f.payload.drop (l + 1) ++ [f.checksum]) := by simp only [frameBytes, List.append_assoc]
  rw [hbytes, frameDecode_frameBytes _ _ hrange, hlen]
  exact if_congr eq_comm rfl rfl

/-- Settles O16: upwards the frame is cut short, downwards it is re-cut, at each of the three bytes that hold length bits. -/
theorem oneBitFlipInLength : Obligations.OneBitFlipInLength := by
  intro f k hwf hk truncated shortened
  have hr := ((frameWellFormed_iff f).1 hwf).1
  have raised {i n : Nat} (hb : LengthBit k f.version i n) := frameDecode_flipBit_length_raised hr hb hk
  have lowered {i n : Nat} (hb : LengthBit k f.version i n) := frameDecode_flipBit_length_lowered hr hb hk
  exact ⟨fun hv => raised (hv ▸ .v1), fun hv => raised (hv ▸ .v2Low), fun hv => raised (hv ▸ .v2High),
    fun hv => lowered (hv ▸ .v1), fun hv => lowered (hv ▸ .v2Low), fun hv => lowered (hv ▸ .v2High)⟩

end Sys2Proof.Machine
end

section
/-!
PROOFS of the family 42_command_registry.md: the payload layouts (obligations O23, O29), what the registry answers (O25), the
operations `PACK_*` and `UNPACK` (O22, O26), the four operations in sequence (O28), and the reception of a frame by its command
(O37 to O41). What `interpret` answers is said once for each of its branches, by the command that `cmdOf` names; `UNPACK` and the
reception of a frame both hand on that answer.
-/

namespace Sys2Proof.Machine

/-! ### The payload layouts (R193, R195, R196) -/

theorem packRawimu_length (m : ImuSample) : (packRawimu m).length = 12 := rfl

theorem packRcSample_length (c : RcSample) : (packRcSample c).length = 34 := rfl

/-- Settles O23: the layouts lose nothing in either direction. -/
theorem layoutsRoundTrip : Obligations.LayoutsRoundTrip :=
  ⟨fun w => ⟨unpackSetwp_packSetwp w, packSetwp_length w⟩,
   fun m => ⟨unpackRawimu_packRawimu m, packRawimu_length m⟩,
   fun c => ⟨unpackRcSample_packRcSample c, packRcSample_length c⟩,
   fun _ => packSetwp_unpackSetwp, fun _ => packRawimu_unpackRawimu, fun _ => packRcSample_unpackRcSample⟩

theorem le16_append_left {p : List Byte} {a : Nat} (extra : List Byte) (h : a + 1 < p.length) :
    le16 (p ++ extra) a = le16 p a := by
  rw [le16, le16, byteAt_append_left h, byteAt_append_left (by omega)]

theorem le32_append_left {p : List Byte} {a : Nat} (extra : List Byte) (h : a + 3 < p.length) :
    le32 (p ++ extra) a = le32 p a := by
  rw [le32, le32, byteAt_append_left h, byteAt_append_left (n := a) (by omega), byteAt_append_left (n := a + 1) (by omega),
    byteAt_append_left (n := a + 2) (by omega)]

/-- The channels in payload order are the half-words of the payload (R196). -/
theorem rcChannels_unpackRcSample (p : List Byte) :
    rcChannels (unpackRcSample p) = (List.range 17).map fun i => le16 p (2 * i) := rfl

theorem rcChannels_unpackRcSample_getElem? (p : List Byte) {i : Nat} (h : i < 17) :
    (rcChannels (unpackRcSample p))[i]? = some (le16 p (2 * i)) := by
  rw [rcChannels_unpackRcSample, List.getElem?_map, List.getElem?_range h, Option.map_some]

/-- The channels determine the sample (R31). -/
theorem rcChannels_injective {c c' : RcSample} (h : rcChannels c = rcChannels c') : c = c' := by
  obtain ⟨⟩ := c
  obtain ⟨⟩ := c'
  simpa [rcChannels] using h

/-- Every field of a layout lies within its schema's size, so bytes behind that are not read (R209). -/
theorem schemaDecode_append {c : Cmd} {p : List Byte} (extra : List Byte) (h : schemaSize c ≤ p.length) :
    schemaDecode c (p ++ extra) = schemaDecode c p := by
  cases c with
  | setWp =>
    change 21 ≤ p.length at h
    have byte (a : Nat) (ha : a < 21) : byteAt (p ++ extra) a = byteAt p a := byteAt_append_left (by omega)
    have half (a : Nat) (ha : a < 20) : le16 (p ++ extra) a = le16 p a := le16_append_left extra (by omega)
    have word (a : Nat) (ha : a < 18) : le32 (p ++ extra) a = le32 p a := le32_append_left extra (by omega)
    simp [schemaDecode, unpackSetwp, byte, half, word]
  | eepromWrite => rfl
  | rawImu =>
    change 12 ≤ p.length at h
    have half (a : Nat) (ha : a < 11) : le16 (p ++ extra) a = le16 p a := le16_append_left extra (by omega)
    simp [schemaDecode, unpackRawimu, half]
  | rc =>
    change 34 ≤ p.length at h
    refine congrArg Decoded.rc (rcChannels_injective ?_)
    rw [rcChannels_unpackRcSample, rcChannels_unpackRcSample]
    refine List.map_congr_left fun i hi => le16_append_left extra ?_
    have := List.mem_range.1 hi
    omega

/-! ### The physical units (R207, R208, R210) -/

theorem accelG_encInt (scales : Config.Scales) {x : Int} (hlo : -32768 ≤ x) (hhi : x < 32768) :
    accelG scales (encInt 16 x) = x / scales.acc := by
  rw [accelG, sext_encInt (by decide) hlo hhi]

theorem gyroDps_encInt (scales : Config.Scales) {x : Int} (hlo : -32768 ≤ x) (hhi : x < 32768) :
    gyroDps scales (encInt 16 x) = x / scales.gyro := by
  rw [gyroDps, sext_encInt (by decide) hlo hhi]

/-- Settles O29: each stored pattern reads as the number it encodes, which its scale then divides. -/
theorem physicalUnits : Obligations.PhysicalUnits := by
  refine ⟨?_, ?_, ?_, ?_, fun w hlat hlon halt => ⟨?_, ?_, ?_⟩, fun w => beq_iff_eq⟩
  · rw [accelG_encInt _ (by decide) (by decide)]; norm_num
  · rw [accelG_encInt _ (by decide) (by decide)]; norm_num
  · rw [accelG_encInt _ (by decide) (by decide)]; norm_num
  · rw [gyroDps_encInt _ (by decide) (by decide)]; norm_num
  · rw [latDegrees, hlat, sext_encInt (by decide) (by decide) (by decide)]; norm_num
  · rw [lonDegrees, hlon, sext_encInt (by decide) (by decide) (by decide)]; norm_num
  · rw [altMetres, halt, sext_encInt (by decide) (by decide) (by decide)]; norm_num

/-! ### The registry (R191, R192) -/

theorem cmdOf_of_eepromWriteId (o : Option U16) {func : U16} (h : func = 250) : cmdOf o func = .ok .eepromWrite := by
  subst h; rfl

theorem cmdOf_of_rawImuId (o : Option U16) {func : U16} (h : func = 102) : cmdOf o func = .ok .rawImu := by
  subst h; rfl

theorem cmdOf_of_rcId (o : Option U16) {func : U16} (h : func = 105) : cmdOf o func = .ok .rc := by
  subst h; rfl

theorem cmdOf_of_setwpId {o : Option U16} {func : U16} (free : isFixedId func = false) (h : o = some func) :
    cmdOf o func = .ok .setWp := by
  rw [cmdOf_free o func free, h]
  exact if_pos rfl

theorem cmdOf_of_unset {o : Option U16} {func : U16} (free : isFixedId func = false) (h : o = none) :
    cmdOf o func = .error .configUnset := by
  rw [cmdOf_free o func free, h]

theorem cmdOf_of_other_id {o : Option U16} {func id : U16} (free : isFixedId func = false) (h : o = some id)
    (hne : func ≠ id) : cmdOf o func = .error .unexpectedFunction := by
  rw [cmdOf_free o func free, h]
  exact if_neg hne

theorem schemaDir_ne_error (c : Cmd) : schemaDir c ≠ .error := by cases c <;> decide

section
variable {o : Option U16} {func : U16} {dir : Direction} {p : List Byte} {c : Cmd}

/-- An ERROR frame is opaque whatever its id (R200). -/
theorem interpret_of_error (hd : dir = .error) : interpret o func dir p = .ok .opaquePayload := if_pos hd

theorem interpret_of_no_command {e : OutcomeCode} (hd : dir ≠ .error) (hc : cmdOf o func = .error e) :
    interpret o func dir p = .error e := by
  rw [interpret, if_neg hd, hc]

/-- A command's frame in the direction that is not its schema's is opaque (R197 to R199). -/
theorem interpret_of_other_direction (hc : cmdOf o func = .ok c) (hd : dir ≠ schemaDir c) :
    interpret o func dir p = .ok .opaquePayload := by
  by_cases he : dir = .error
  · exact interpret_of_error he
  · simp [interpret, he, hc, hd]

theorem interpret_of_short (hc : cmdOf o func = .ok c) (hd : dir = schemaDir c) (hl : p.length < schemaSize c) :
    interpret o func dir p = .error .payloadLayoutError := by
  subst hd
  simp [interpret, schemaDir_ne_error, hc, hl]

theorem interpret_of_fits (hc : cmdOf o func = .ok c) (hd : dir = schemaDir c) (hl : schemaSize c ≤ p.length) :
    interpret o func dir p = .ok (schemaDecode c p) := by
  subst hd
  simp [interpret, schemaDir_ne_error, hc, Nat.not_lt.2 hl]

end

/-! ### `PACK_*` and `UNPACK` (R202 to R206) -/

theorem exec_of_packedPayload {i : Instr} {p : List Byte} (h : packedPayload i = some p) (s : State) :
    exec i s = .next (stagePayload p s) := by
  cases i <;> cases h <;> rfl

/-- Settles O22: each operation stages its payload, whose length its layout fixes. -/
theorem packAndClearResult : Obligations.PackAndClearResult := fun s =>
  ⟨fun w => exec_of_packedPayload (i := .packSetWp w) rfl s, fun m => exec_of_packedPayload (i := .packRawImu m) rfl s,
   fun c => exec_of_packedPayload (i := .packRc c) rfl s, exec_of_packedPayload (i := .packEepromWrite) rfl s, rfl, rfl⟩

/-- `UNPACK` of a payload that the registry interprets (R206). -/
theorem exec_unpack_of_ok {s : State} {f : FrameRegs} {p : List Byte} {d : Decoded} (hf : s.fr = some f)
    (hp : pbBytes s = some p) (hi : interpret s.setwpId f.func f.dir p = .ok d) :
    exec .unpack s = .next { s with ds := d, err := .ok, reply := some ⟨.ok, none⟩ } := by
  rw [exec, execUnpack, unpackFrame_of_payload hf hp, hi]
  rfl

/-- Settles O26: the answer of the registry, by the command that the held frame's id names. -/
theorem unpackDelivers : Obligations.UnpackDelivers := by
  intro s f p hf hp done
  have ok {d : Decoded} (hi : interpret s.setwpId f.func f.dir p = .ok d) : exec .unpack s = done d :=
    exec_unpack_of_ok hf hp hi
  refine ⟨fun id hid free hfunc hd hl => ?_, fun hfunc hd => ?_, fun hfunc hd hl => ?_, fun hfunc hd hl => ?_, fun hd => ?_,
    fun hd hfunc => ?_, fun hd hfunc => ?_⟩
  · subst hfunc
    exact ok (interpret_of_fits (cmdOf_of_setwpId free hid) hd hl)
  · exact ok (interpret_of_fits (cmdOf_of_eepromWriteId _ hfunc) hd (Nat.zero_le _))
  · exact ok (interpret_of_fits (cmdOf_of_rawImuId _ hfunc) hd hl)
  · exact ⟨_, ok (interpret_of_fits (cmdOf_of_rcId _ hfunc) hd hl), fun _ => rcChannels_unpackRcSample_getElem? p⟩
  · exact ok (interpret_of_error hd)
  · rcases hfunc with hfunc | hfunc
    · exact ok (interpret_of_other_direction (cmdOf_of_rawImuId _ hfunc) (by rw [hd]; decide))
    · exact ok (interpret_of_other_direction (cmdOf_of_rcId _ hfunc) (by rw [hd]; decide))
  · rcases hfunc with hfunc | ⟨free, hid⟩
    · exact ok (interpret_of_other_direction (cmdOf_of_eepromWriteId _ hfunc) (by rw [hd]; decide))
    · exact ok (interpret_of_other_direction (cmdOf_of_setwpId free hid) (by rw [hd]; decide))

/-- Settles O25: the longer payload still fits its schema, and what the layout reads of it lies in front; `UNPACK` does not
write `PB`. -/
theorem excessPayloadIgnored : Obligations.ExcessPayloadIgnored := by
  refine ⟨fun id func c p extra hc hl => ?_, fun s t h => ?_⟩
  · have fits : schemaSize c ≤ (p ++ extra).length := by rw [List.length_append]; omega
    rw [interpret_of_fits hc rfl fits, schemaDecode_append extra hl]
  · rcases unpackFrame_cases h with ⟨-, rfl⟩ | ⟨_, _, _, -, -, -, rfl⟩ | ⟨_, _, _, -, -, -, rfl⟩ <;> exact ⟨rfl, rfl⟩

/-! ### `PACK_x`, `ENC`, `DEC`, `UNPACK` in sequence (R211) -/

theorem runOps_cons_of_next {i : Instr} {s t : State} (is : List Instr) (h : exec i s = .next t) :
    runOps (i :: is) s = runOps is t := by
  rw [runOps, h]

/-- Every layout fits a V1 frame (R98, R191). -/
theorem schemaSize_le (c : Cmd) : schemaSize c ≤ 255 := by cases c <;> decide

/-- The frame encoded from the staged payload is decoded without a change, so `UNPACK` interprets what was packed. -/
theorem runOps_pack_enc_dec_unpack {i : Instr} {v : Version} {c : Cmd} {func : U16} {p : List Byte} {ds : Decoded} {s : State}
    (packs : packedPayload i = some p) (size : p.length = schemaSize c) (unpacks : schemaDecode c p = ds)
    (hc : cmdOf s.setwpId func = .ok c) (hv : v = .v1 → func.toNat ≤ 255) :
    ∃ t, runOps [i, .enc v (dirNumber (schemaDir c)) func, .dec, .unpack] s = .next t ∧ t.ds = ds ∧ t.err = .ok := by
  have hp : p.length ≤ 65535 := packedPayload_length_le packs
  have hlen : (stagePayload p s).pbLen.toNat = p.length := toNat_ofNat_of_lt (Nat.lt_succ_of_le hp)
  have hpb := pbBytes_stagePayload s hp
  have hr : encInRange v func p.length = true := encInRange_of fun h => ⟨hv h, size ▸ schemaSize_le c⟩
  have henc : exec (.enc v (dirNumber (schemaDir c)) func) (stagePayload p s)
      = .next (installEncoded v (schemaDir c) func p (stagePayload p s)) :=
    execEnc_of_payload (dirOfNumber_dirNumber _) (hlen ▸ hr) hpb
  have answer : interpret s.setwpId func (schemaDir c) p = .ok ds := by rw [interpret_of_fits hc rfl size.ge, unpacks]
  rw [runOps_cons_of_next _ (exec_of_packedPayload packs s), runOps_cons_of_next _ henc,
    runOps_cons_of_next _ (exec_dec_installEncoded _ hr rfl hlen.symm), runOps_singleton]
  exact ⟨_, exec_unpack_of_ok rfl hpb answer, rfl, rfl⟩

/-- Settles O28: each packed payload has its schema's size and unpacks to the operands. -/
theorem packEncDecUnpackDelivers : Obligations.PackEncDecUnpackDelivers := by
  intro v s
  refine ⟨fun w id hid free hv1 => ?_, fun m => ?_, fun c => ?_, ?_⟩
  · exact runOps_pack_enc_dec_unpack (c := .setWp) rfl (packSetwp_length w)
      (congrArg Decoded.setWp (unpackSetwp_packSetwp w)) (cmdOf_of_setwpId free hid) hv1
  · exact runOps_pack_enc_dec_unpack (c := .rawImu) rfl (packRawimu_length m)
      (congrArg Decoded.rawImu (unpackRawimu_packRawimu m)) (cmdOf_of_rawImuId _ rfl) fun _ => by decide
  · exact runOps_pack_enc_dec_unpack (c := .rc) rfl (packRcSample_length c)
      (congrArg Decoded.rc (unpackRcSample_packRcSample c)) (cmdOf_of_rcId _ rfl) fun _ => by decide
  · exact runOps_pack_enc_dec_unpack (c := .eepromWrite) rfl rfl rfl (cmdOf_of_eepromWriteId _ rfl) fun _ => by decide

/-! ### Reception of a frame by its command (R193 to R201; log 4) -/

/-- A well-formed frame is held, with what the registry makes of its payload. -/
theorem exec_of_interpret_ok {i : Instr} {f : Frame} {ds : Decoded} {s : State} (hf : i.frame? = some f)
    (hwf : frameWellFormed f = true) (hi : interpret s.setwpId f.func f.direction f.payload = .ok ds) :
    exec i s = .next (received f ds s) := by
  obtain ⟨hr, hck⟩ := (frameWellFormed_iff f).1 hwf
  rw [exec_of_frame hf, receiveFrame_eq f s hr, if_pos hck.symm, hi]

@[inherit_doc exec_of_interpret_ok]
theorem exec_of_interpret_error {i : Instr} {f : Frame} {o : OutcomeCode} {s : State} (hf : i.frame? = some f)
    (hwf : frameWellFormed f = true) (hi : interpret s.setwpId f.func f.direction f.payload = .error o) :
    exec i s = .next (receivedRefused f o s) := by
  obtain ⟨hr, hck⟩ := (frameWellFormed_iff f).1 hwf
  rw [exec_of_frame hf, receiveFrame_eq f s hr, if_pos hck.symm, hi]

/-- The V1 frame of a function byte, with the checksum byte the format demands (R91). -/
def sealedV1 (d : Direction) (func : Byte) (p : List Byte) : Frame :=
  ⟨.v1, d, 0, func.setWidth 16, p, cksumV1 (BitVec.ofNat 8 p.length) func p⟩

/-- The V2 frame of a flag byte and an id, with the checksum byte the format demands (R92). -/
def sealedV2 (d : Direction) (flag : Byte) (func : U16) (p : List Byte) : Frame :=
  ⟨.v2, d, flag, func, p, cksumV2 flag func p⟩

theorem sealedV1_wellFormed (d : Direction) (func : Byte) {p : List Byte} (h : p.length ≤ 255) :
    frameWellFormed (sealedV1 d func p) = true := by
  refine (frameWellFormed_iff _).2 ⟨(inRange_v1_iff rfl).2 ⟨rfl, Laws.FrameInRange.func_fits func, h⟩, ?_⟩
  simp only [sealedV1, frameChecksum, setWidth_byte_id]

theorem sealedV2_wellFormed (d : Direction) (flag : Byte) (func : U16) {p : List Byte} (h : p.length ≤ 65535) :
    frameWellFormed (sealedV2 d flag func p) = true :=
  (frameWellFormed_iff _).2 ⟨(inRange_v2_iff rfl).2 h, rfl⟩

/-- Settles O37: each of the eight is an ERROR frame or a command's frame against its schema's direction. -/
theorem opaqueFramesReceived : Obligations.OpaqueFramesReceived := by
  intro p s
  have imuReq : interpret s.setwpId 102 .request p = .ok .opaquePayload :=
    interpret_of_other_direction (cmdOf_of_rawImuId _ rfl) (by decide)
  have rcReq : interpret s.setwpId 105 .request p = .ok .opaquePayload :=
    interpret_of_other_direction (cmdOf_of_rcId _ rfl) (by decide)
  have eepromAck : interpret s.setwpId 250 .response p = .ok .opaquePayload :=
    interpret_of_other_direction (cmdOf_of_eepromWriteId _ rfl) (by decide)
  refine ⟨fun h func => ?_, fun h flag func => ?_, fun h => ⟨?_, ?_, ?_⟩, fun h flag => ⟨?_, ?_, ?_⟩⟩
  · exact exec_of_interpret_ok rfl (sealedV1_wellFormed .error func h) (interpret_of_error rfl)
  · exact exec_of_interpret_ok rfl (sealedV2_wellFormed .error flag func h) (interpret_of_error rfl)
  · exact exec_of_interpret_ok rfl (sealedV1_wellFormed .request 102 h) imuReq
  · exact exec_of_interpret_ok rfl (sealedV1_wellFormed .request 105 h) rcReq
  · exact exec_of_interpret_ok rfl (sealedV1_wellFormed .response 250 h) eepromAck
  · exact exec_of_interpret_ok rfl (sealedV2_wellFormed .request flag 102 h) imuReq
  · exact exec_of_interpret_ok rfl (sealedV2_wellFormed .request flag 105 h) rcReq
  · exact exec_of_interpret_ok rfl (sealedV2_wellFormed .response flag 250 h) eepromAck

/-- Settles O38: any payload fits the empty layout. -/
theorem eepromWriteReceived : Obligations.EepromWriteReceived := by
  intro p s
  have answer : interpret s.setwpId 250 .request p = .ok .eepromWrite :=
    interpret_of_fits (cmdOf_of_eepromWriteId _ rfl) rfl (Nat.zero_le _)
  exact ⟨fun h => exec_of_interpret_ok rfl (sealedV1_wellFormed .request 250 h) answer,
    fun h flag => exec_of_interpret_ok rfl (sealedV2_wellFormed .request flag 250 h) answer⟩

/-- Settles O39: the registry's answer for a payload that fits is the same in both formats. -/
theorem telemetryReceived : Obligations.TelemetryReceived := by
  intro p s imu
  have imuAnswer (fits : 12 ≤ p.length) : interpret s.setwpId 102 .response p = .ok imu :=
    interpret_of_fits (cmdOf_of_rawImuId _ rfl) rfl fits
  have rcAnswer (fits : 34 ≤ p.length) : interpret s.setwpId 105 .response p = .ok (.rc (unpackRcSample p)) :=
    interpret_of_fits (cmdOf_of_rcId _ rfl) rfl fits
  have channels : ∀ i < 17, (rcChannels (unpackRcSample p))[i]? = some (le16 p (2 * i)) :=
    fun _ => rcChannels_unpackRcSample_getElem? p
  refine ⟨fun fits h => ?_, fun fits h flag => ?_, fun fits h => ⟨_, ?_, channels⟩, fun fits h flag => ⟨_, ?_, channels⟩⟩
  · exact exec_of_interpret_ok rfl (sealedV1_wellFormed .response 102 h) (imuAnswer fits)
  · exact exec_of_interpret_ok rfl (sealedV2_wellFormed .response flag 102 h) (imuAnswer fits)
  · exact exec_of_interpret_ok rfl (sealedV1_wellFormed .response 105 h) (rcAnswer fits)
  · exact exec_of_interpret_ok rfl (sealedV2_wellFormed .response flag 105 h) (rcAnswer fits)

/-- Settles O40: the configured id names SET_WP, whose schema's direction is the request; the response is opaque. -/
theorem setWpReceived : Obligations.SetWpReceived := by
  intro p s id hid free wp
  have hc := cmdOf_of_setwpId free hid
  have request (fits : 21 ≤ p.length) : interpret s.setwpId id .request p = .ok wp := interpret_of_fits hc rfl fits
  have ack : interpret s.setwpId id .response p = .ok .opaquePayload := interpret_of_other_direction hc (by decide)
  refine ⟨fun func hfunc h => ?_, fun flag h => ⟨fun fits => ?_, ?_⟩⟩
  · subst hfunc
    exact ⟨fun fits => exec_of_interpret_ok rfl (sealedV1_wellFormed .request func h) (request fits),
      exec_of_interpret_ok rfl (sealedV1_wellFormed .response func h) ack⟩
  · exact exec_of_interpret_ok rfl (sealedV2_wellFormed .request flag id h) (request fits)
  · exact exec_of_interpret_ok rfl (sealedV2_wellFormed .response flag id h) ack

/-- Settles O41: the frame is accepted by `DEC` before the registry refuses its payload or its id. -/
theorem receivedButRefused : Obligations.ReceivedButRefused := by
  intro i f s hf hw hck ends
  have hwf : frameWellFormed f = true := (frameWellFormed_iff f).2 ⟨inRange_of_frame hw hf, hck⟩
  have refused {o : OutcomeCode} (hi : interpret s.setwpId f.func f.direction f.payload = .error o) : ends o :=
    exec_of_interpret_error hf hwf hi
  refine ⟨fun hd hfunc hl => ?_, fun hd hfunc hl => ?_, fun hd free hid hl => ?_, fun hd free hid => ?_,
    fun id hd free hid hne => ?_⟩
  · exact refused (interpret_of_short (cmdOf_of_rawImuId _ hfunc) hd hl)
  · exact refused (interpret_of_short (cmdOf_of_rcId _ hfunc) hd hl)
  · exact refused (interpret_of_short (cmdOf_of_setwpId free hid) hd hl)
  · exact refused (interpret_of_no_command hd (cmdOf_of_unset free hid))
  · exact refused (interpret_of_no_command hd (cmdOf_of_other_id free hid hne))

end Sys2Proof.Machine
end

section
/-!
PROOFS of the family 43_host_port.md: the pushes and reads of the buffers (obligations O30, O31), the registers of R37 (O32),
configuration and reset (O34, O35), the step (O48, O49) and completion (O56, O59). O59 rests on O56: a state with the invariant
holds its buffers, so the one stop left is the refusal of a badly packed operation.
-/

namespace Sys2Proof.Machine

/-! ### Pushing and reading a byte (R242, R243, R245, R246) -/

/-- Settles O30, by the two cases of each push: full, or room for a byte. -/
theorem pushResult : Obligations.PushResult := by
  intro b s
  refine ⟨fun full => ?_, fun room => ⟨Memory.write s.fb s.fbLen.toNat b, ?_, ?_, fun a ha => ?_⟩,
    fun full => ?_, fun room => ⟨Memory.write s.pb s.pbLen.toNat b, ?_, ?_, fun a ha => ?_⟩, rfl⟩
  · exact congrArg Host.Outcome.next (pushFrameByte_of_full b full)
  · exact congrArg Host.Outcome.next (pushFrameByte_of_room b room)
  · exact Memory.read_write_same s.fb _ b
  · exact Memory.read_write_other s.fb b ha
  · exact congrArg Host.Outcome.next (pushPayloadByte_of_full b full)
  · exact congrArg Host.Outcome.next (pushPayloadByte_of_room b room)
  · exact Memory.read_write_same s.pb _ b
  · exact Memory.read_write_other s.pb b ha

/-- Settles O31. -/
theorem bufferReadResult : Obligations.BufferReadResult := fun _ _ _ =>
  ⟨execFbRd_of_le, fun _ => execFbRd_of_listed, execPbRd_of_le, fun _ => execPbRd_of_listed, rfl⟩

/-! ### The register file (R37, R247) -/

theorem exec_rd_of_ok {s : State} {reg : Byte} {v : Value} (h : readRegister s reg = .ok v) :
    exec (.rd reg) s = .next (deliver v s) := by
  simp only [exec, execRd, h]

theorem exec_rd_of_error {s : State} {reg : Byte} {o : OutcomeCode} (h : readRegister s reg = .error o) :
    exec (.rd reg) s = .next (failRead o s) := by
  simp only [exec, execRd, h]

/-- `readRegister` by the register's number. -/
theorem readRegister_ofNat (s : State) {r : Nat} (h : r < 256) :
    readRegister s (BitVec.ofNat 8 r) =
      if r < 0x10 then readBasic s r
      else if r < 0x20 then readFrGroup s (r - 0x10)
      else if r < 0x30 then readWpGroup s (r - 0x20)
      else if r < 0x40 then readImuGroup s (r - 0x30)
      else if r < 0x51 then readRc s (r - 0x40)
      else .error .illegalOperation := by
  rw [readRegister, toNat_ofNat_of_lt h]
  rfl

/-- Each of the five groups of R37 has the numbers from its first one up. -/
theorem readRegister_basic (s : State) {r : Nat} (h : r < 0x10) :
    readRegister s (BitVec.ofNat 8 r) = readBasic s r := by
  rw [readRegister_ofNat s (by omega), if_pos h]

@[inherit_doc readRegister_basic]
theorem readRegister_frGroup (s : State) {r : Nat} (hlo : 0x10 ≤ r) (hhi : r < 0x20) :
    readRegister s (BitVec.ofNat 8 r) = readFrGroup s (r - 0x10) := by
  rw [readRegister_ofNat s (by omega), if_neg (by omega), if_pos hhi]

@[inherit_doc readRegister_basic]
theorem readRegister_wpGroup (s : State) {r : Nat} (hlo : 0x20 ≤ r) (hhi : r < 0x30) :
    readRegister s (BitVec.ofNat 8 r) = readWpGroup s (r - 0x20) := by
  rw [readRegister_ofNat s (by omega), if_neg (by omega), if_neg (by omega), if_pos hhi]

@[inherit_doc readRegister_basic]
theorem readRegister_imuGroup (s : State) {r : Nat} (hlo : 0x30 ≤ r) (hhi : r < 0x40) :
    readRegister s (BitVec.ofNat 8 r) = readImuGroup s (r - 0x30) := by
  rw [readRegister_ofNat s (by omega), if_neg (by omega), if_neg (by omega), if_neg (by omega), if_pos hhi]

@[inherit_doc readRegister_basic]
theorem readRegister_rc (s : State) {i : Nat} (h : i < 17) :
    readRegister s (BitVec.ofNat 8 (0x40 + i)) = readRc s i := by
  rw [readRegister_ofNat s (by omega), if_neg (by omega), if_neg (by omega), if_neg (by omega), if_neg (by omega),
    if_pos (by omega), Nat.add_sub_cancel_left]

/-! A guarded register, while its guard holds and while it does not (R27, R28, R32). -/

theorem setwpIdSet_of_some {s : State} {id : U16} (h : s.setwpId = some id) : setwpIdSet s = 1 := by
  rw [setwpIdSet, h]
  rfl

theorem setwpIdSet_of_none {s : State} (h : s.setwpId = none) : setwpIdSet s = 0 := by
  rw [setwpIdSet, h]
  rfl

theorem frValid_of_some {s : State} {f : FrameRegs} (h : s.fr = some f) : frValid s = 1 := by
  rw [frValid, h]
  rfl

theorem frValid_of_none {s : State} (h : s.fr = none) : frValid s = 0 := by
  rw [frValid, h]
  rfl

theorem readFr_of_some {s : State} {f : FrameRegs} (h : s.fr = some f) (pick : FrameRegs → Value) :
    readFr s pick = .ok (pick f) := by
  rw [readFr, h]

theorem readFr_of_none {s : State} (h : s.fr = none) (pick : FrameRegs → Value) :
    readFr s pick = .error .noValidFrame := by
  rw [readFr, h]

theorem readWp_of_setWp {s : State} {w : Waypoint} (h : s.ds = .setWp w) (pick : Waypoint → Value) :
    readWp s pick = .ok (pick w) := by
  rw [readWp, h]

theorem readWp_of_other {s : State} (h : dsKind s.ds ≠ 1) (pick : Waypoint → Value) :
    readWp s pick = .error .noValidStruct := by
  unfold readWp
  split
  next w hd => exact absurd (congrArg dsKind hd) h
  all_goals rfl

theorem readImu_of_rawImu {s : State} {m : ImuSample} (h : s.ds = .rawImu m) (pick : ImuSample → Value) :
    readImu s pick = .ok (pick m) := by
  rw [readImu, h]

theorem readImu_of_other {s : State} (h : dsKind s.ds ≠ 3) (pick : ImuSample → Value) :
    readImu s pick = .error .noValidStruct := by
  unfold readImu
  split
  next m hd => exact absurd (congrArg dsKind hd) h
  all_goals rfl

theorem readRc_of_rc {s : State} {c : RcSample} {i : Nat} {v : I16} (h : s.ds = .rc c) (hv : (rcChannels c)[i]? = some v) :
    readRc s i = .ok (.i16 v) := by
  rw [readRc, h]
  simp only [List.getD_eq_getElem?_getD, hv, Option.getD_some]

theorem readRc_of_other {s : State} (h : dsKind s.ds ≠ 4) (i : Nat) : readRc s i = .error .noValidStruct := by
  unfold readRc
  split
  next c hd => exact absurd (congrArg dsKind hd) h
  all_goals rfl

/-! The numbers of a group that its guard covers, and those that name no register. -/

theorem readFrGroup_of_none {s : State} (h : s.fr = none) {k : Nat} (hlo : 1 ≤ k) (hhi : k ≤ 6) :
    readFrGroup s k = .error .noValidFrame := by
  interval_cases k <;> exact readFr_of_none h _

theorem readWpGroup_of_other {s : State} (h : dsKind s.ds ≠ 1) {k : Nat} (hlo : 1 ≤ k) (hhi : k ≤ 9) :
    readWpGroup s k = .error .noValidStruct := by
  interval_cases k <;> exact readWp_of_other h _

theorem readImuGroup_of_other {s : State} (h : dsKind s.ds ≠ 3) {k : Nat} (hhi : k ≤ 5) :
    readImuGroup s k = .error .noValidStruct := by
  interval_cases k <;> exact readImu_of_other h _

theorem readBasic_undefined (s : State) {k : Nat} (h : 7 ≤ k) : readBasic s k = .error .illegalOperation := by
  obtain ⟨k, rfl⟩ := Nat.exists_eq_add_of_le' h
  rfl

theorem readFrGroup_undefined (s : State) {k : Nat} (h : 7 ≤ k) : readFrGroup s k = .error .illegalOperation := by
  obtain ⟨k, rfl⟩ := Nat.exists_eq_add_of_le' h
  rfl

theorem readWpGroup_undefined (s : State) {k : Nat} (h : 10 ≤ k) : readWpGroup s k = .error .illegalOperation := by
  obtain ⟨k, rfl⟩ := Nat.exists_eq_add_of_le' h
  rfl

theorem readImuGroup_undefined (s : State) {k : Nat} (h : 6 ≤ k) : readImuGroup s k = .error .illegalOperation := by
  obtain ⟨k, rfl⟩ := Nat.exists_eq_add_of_le' h
  rfl

/-- The numbers that R37 gives no register, whatever the guards (R283). -/
theorem readRegister_undefined (s : State) {r : Nat} (h : r < 256)
    (number : (0x07 ≤ r ∧ r ≤ 0x0F) ∨ (0x17 ≤ r ∧ r ≤ 0x1F) ∨ (0x2A ≤ r ∧ r ≤ 0x2F) ∨ (0x36 ≤ r ∧ r ≤ 0x3F) ∨ 0x51 ≤ r) :
    readRegister s (BitVec.ofNat 8 r) = .error .illegalOperation := by
  rcases number with ⟨hlo, hhi⟩ | ⟨hlo, hhi⟩ | ⟨hlo, hhi⟩ | ⟨hlo, hhi⟩ | hlo
  · rw [readRegister_basic s (by omega), readBasic_undefined s hlo]
  · rw [readRegister_frGroup s (by omega) (by omega), readFrGroup_undefined s (by omega)]
  · rw [readRegister_wpGroup s (by omega) (by omega), readWpGroup_undefined s (by omega)]
  · rw [readRegister_imuGroup s (by omega) (by omega), readImuGroup_undefined s (by omega)]
  · rw [readRegister_ofNat s h]
    repeat rw [if_neg (by omega)]

/-- Settles O32, group by group: each register by the lemma of its guard, each range of numbers by the lemma of its group. -/
theorem registerReadResult : Obligations.RegisterReadResult := by
  intro s gives fails
  refine ⟨?unguarded, fun id hid => ?idSet, fun hid => ?idUnset, fun f hf => ?frame, fun hf => ?noFrame, ?kind,
    fun w hw => ?waypoint, fun hk r hlo hhi => ?noWaypoint, fun m hm => ?imu, fun hk r hlo hhi => ?noImu,
    fun c hc i v hv => ?rc, fun hk r hlo hhi => ?noRc, fun r hr number => ?undefinedNumber, ?numbers⟩
  case unguarded => refine ⟨?_, ?_, ?_, ?_, ?_⟩ <;> exact exec_rd_of_ok rfl
  case idSet => exact ⟨setwpIdSet_of_some hid ▸ exec_rd_of_ok rfl, exec_rd_setwpId_of_some hid⟩
  case idUnset => exact ⟨setwpIdSet_of_none hid ▸ exec_rd_of_ok rfl, exec_rd_setwpId_of_none hid⟩
  case frame =>
    refine ⟨frValid_of_some hf ▸ exec_rd_of_ok rfl, ?_, ?_, ?_, ?_, ?_, ?_⟩ <;> exact exec_rd_of_ok (readFr_of_some hf _)
  case noFrame =>
    refine ⟨frValid_of_none hf ▸ exec_rd_of_ok rfl, fun r hlo hhi => exec_rd_of_error ?_⟩
    rw [readRegister_frGroup s (by omega) (by omega), readFrGroup_of_none hf (by omega) (by omega)]
  case kind => exact exec_rd_of_ok rfl
  case waypoint => refine ⟨?_, ?_, ?_, ?_, ?_, ?_, ?_, ?_, ?_⟩ <;> exact exec_rd_of_ok (readWp_of_setWp hw _)
  case noWaypoint =>
    refine exec_rd_of_error ?_
    rw [readRegister_wpGroup s (by omega) (by omega), readWpGroup_of_other hk (by omega) (by omega)]
  case imu => refine ⟨?_, ?_, ?_, ?_, ?_, ?_⟩ <;> exact exec_rd_of_ok (readImu_of_rawImu hm _)
  case noImu =>
    refine exec_rd_of_error ?_
    rw [readRegister_imuGroup s (by omega) (by omega), readImuGroup_of_other hk (by omega)]
  case rc =>
    have hi : i < 17 := (List.getElem?_eq_some_iff.1 hv).1
    exact exec_rd_of_ok ((readRegister_rc s hi).trans (readRc_of_rc hc hv))
  case noRc =>
    obtain ⟨i, rfl⟩ := Nat.exists_eq_add_of_le hlo
    exact exec_rd_of_error ((readRegister_rc s (by omega)).trans (readRc_of_other hk i))
  case undefinedNumber => exact exec_rd_of_error (readRegister_undefined s hr number)
  case numbers => refine ⟨?_, ?_, ?_, ?_, ?_, ?_, ?_, ?_⟩ <;> exact fun _ => rfl

/-! ### Configuration and reset (R248, R249) -/

/-- Settles O34: `CFG_SETWP_ID` accepts exactly the ids that are no other command's. -/
theorem configureResult : Obligations.ConfigureResult := by
  intro v s
  have result : exec (.cfgSetwpId v) s = _ := execCfgSetwpId_eq v s
  refine ⟨fun h250 h102 h105 => ?_, fun taken => ?_, rfl⟩
  · rw [result, (isFixedId_eq_false_iff v).2 ⟨h250, h102, h105⟩]
    rfl
  · rw [result, (isFixedId_iff v).2 taken]
    rfl

/-- Settles O35: the state that `RESET` answers is `State.reset` with the port kept and `Ok` delivered. -/
theorem resetResult : Obligations.ResetResult :=
  ⟨fun _ => ⟨_, rfl, rfl, rfl, rfl, rfl, rfl, rfl, rfl, rfl, rfl⟩, rfl⟩

/-! ### The step (R240, R250) -/

theorem step_of_empty_port {s : State} (h : s.port = []) : step s = .next s := by
  simp only [step, fetch, h]

/-- Settles O48. -/
theorem stepRunsDecoded : Obligations.StepRunsDecoded :=
  ⟨fun _ _ _ _ hport hd => step_of_decode_ok hport hd, fun _ => step_of_empty_port⟩

/-- An undefined operation number is no operation, whatever stands behind it (R104). -/
theorem decodeOperationPacket_of_not_mem {n : Byte} (h : n ∉ operationNumbers) (bytes : List Byte) :
    decodeOperationPacket (n :: bytes) = .error .illegalOperation := by
  simp only [decodeOperationPacket, operandBytes_of_not_mem h]

/-- Settles O49: the decoder names the undefined number, and the step ends with that outcome in `ERR`. -/
theorem undefinedOperationNumber : Obligations.UndefinedOperationNumber := fun _ _ bytes _ hn hport =>
  ⟨step_of_decode_error hport (decodeOperationPacket_of_not_mem hn bytes), rfl⟩

/-! ### Completion (R251) -/

/-- Where the buffers hold their bytes every cell below a valid length is listed (R24, R25). -/
theorem read_fb_of_buffersHeld {s : State} (h : s.buffersHeld = true) {a : Nat} (ha : a < s.fbLen.toNat) :
    ∃ b, Memory.read s.fb a = some b := by
  obtain ⟨bs, -, hfb, hlen⟩ := buffersHeld_fbBytes h
  exact ⟨_, by rw [hfb, Memory.read_ofBytes, List.getElem?_eq_getElem (hlen ▸ ha)]⟩

@[inherit_doc read_fb_of_buffersHeld]
theorem read_pb_of_buffersHeld {s : State} (h : s.buffersHeld = true) {a : Nat} (ha : a < s.pbLen.toNat) :
    ∃ b, Memory.read s.pb a = some b := by
  obtain ⟨p, -, hpb, hlen⟩ := buffersHeld_pbBytes h
  exact ⟨_, by rw [hpb, Memory.read_ofBytes, List.getElem?_eq_getElem (hlen ▸ ha)]⟩

theorem execFbRd_completes {s : State} (h : s.buffersHeld = true) (i : U17) : ∃ t, execFbRd i s = .next t := by
  rcases Nat.lt_or_ge i.toNat s.fbLen.toNat with hi | hi
  · obtain ⟨b, hb⟩ := read_fb_of_buffersHeld h hi
    exact ⟨_, execFbRd_of_listed hi hb⟩
  · exact ⟨_, execFbRd_of_le hi⟩

theorem execPbRd_completes {s : State} (h : s.buffersHeld = true) (i : U16) : ∃ t, execPbRd i s = .next t := by
  rcases Nat.lt_or_ge i.toNat s.pbLen.toNat with hi | hi
  · obtain ⟨b, hb⟩ := read_pb_of_buffersHeld h hi
    exact ⟨_, execPbRd_of_listed hi hb⟩
  · exact ⟨_, execPbRd_of_le hi⟩

theorem execEnc_completes {s : State} {p : List Byte} (hp : pbBytes s = some p) (v : Version) (dir : BitVec 2) (func : U16) :
    ∃ t, execEnc v dir func s = .next t := by
  rcases execEnc_trichotomy v dir func s with out | ⟨d, hd, hr, -⟩
  · exact ⟨_, execEnc_of_out_of_range out⟩
  · exact ⟨_, execEnc_of_payload hd hr hp⟩

theorem unpackFrame_completes {s : State} {p : List Byte} (hp : pbBytes s = some p) : ∃ t, unpackFrame s = .next t := by
  cases hf : s.fr with
  | none => exact ⟨_, unpackFrame_of_no_frame hf⟩
  | some f => exact ⟨_, unpackFrame_of_payload hf hp⟩

/-- Every frame on the wire completes, whatever the buffers held before (R107; log 4). -/
theorem exec_completes_of_frame {i : Instr} {f : Frame} (h : i.frame? = some f) (s : State) : ∃ t, exec i s = .next t := by
  rw [exec_of_frame h]
  exact receiveBytes_completes (frameBytes f) s

/-- No instruction stops where the buffers hold their bytes (R251): only `ENC`, `DEC`, `UNPACK` and the two buffer reads look at
a buffer, and these find it as they need it. -/
theorem exec_completes (i : Instr) {s : State} (h : s.buffersHeld = true) : ∃ t, exec i s = .next t := by
  obtain ⟨bs, hbs, -, -⟩ := buffersHeld_fbBytes h
  obtain ⟨p, hp, -, -⟩ := buffersHeld_pbBytes h
  cases hf : i.frame? with
  | some f => exact exec_completes_of_frame hf s
  | none =>
    cases i with
    | enc v dir func => exact execEnc_completes hp v dir func
    | dec => exact ⟨_, decodeFrameBuffer_eq hbs⟩
    | unpack => exact unpackFrame_completes hp
    | fbRd k => exact execFbRd_completes h k
    | pbRd k => exact execPbRd_completes h k
    | csCmp b => exact ⟨_, (apply_ite Host.Outcome.next (s.csAcc = b) _ _).symm⟩
    | rd reg => rcases execRd_cases s reg with ⟨v, -, e⟩ | ⟨o, -, e⟩ <;> exact ⟨_, e⟩
    | cfgSetwpId v => exact ⟨_, execCfgSetwpId_eq v s⟩
    | csInit | csUpd | csRd | packSetWp | packEepromWrite | packRawImu | packRc | fbClr | fbPush | pbClr | pbPush | reset =>
      exact ⟨_, rfl⟩
    | _ => cases hf

/-- Settles O56. -/
theorem everyInstructionCompletes : Obligations.EveryInstructionCompletes :=
  ⟨fun i _ h => exec_completes i h, fun _ _ s hf => exec_completes_of_frame hf s⟩

/-! ### No sequence of packets is stuck (R251) -/

theorem safeResult_of_next {r : Result} (h : ∃ t, r = .next t) : safeResult r = true := by
  obtain ⟨t, rfl⟩ := h
  rfl

/-- A packet that is no instruction ends in a next state or in the one refusal (R250; logs 5 and 9). -/
theorem safeResult_runUndecoded (p : Packet) (e : DecodeError) (s : State) : safeResult (runUndecoded p e s) = true := by
  cases p with
  | frame bs => exact safeResult_of_next (receiveBytes_completes bs s)
  | operation bs => cases e <;> rfl

/-- Where the buffers hold their bytes a step is safe, whatever the host presents. -/
theorem safeResult_step {s : State} (h : s.buffersHeld = true) : safeResult (step s) = true := by
  cases hport : s.port with
  | nil => rw [step_of_empty_port hport]; rfl
  | cons p rest =>
    cases hd : decode p with
    | ok i =>
      rw [step_of_decode_ok hport hd]
      exact safeResult_of_next (exec_completes (s := { s with port := rest }) i h)
    | error e =>
      rw [step_of_decode_error hport hd]
      exact safeResult_runUndecoded p e _

theorem safeResult_step_of_inv {s : State} (h : s.inv = true) : safeResult (step s) = true :=
  safeResult_step ((inv_iff s).1 h).1

/-- The induction over a run: what holds of every step from a state with an invariant, and of every next state, holds of a run of
any length from a state with the invariant. -/
theorem run_induction {M : Host.Core} {inv : M.State → Prop} {good : Host.Outcome M.State M.Fault M.Refusal → Prop}
    (good_next : ∀ s, good (.next s)) (good_step : ∀ s, inv s → good (M.step s))
    (inv_next : ∀ s t, inv s → M.step s = .next t → inv t) (k : Nat) {s : M.State} (h : inv s) : good (M.run k s) := by
  induction k generalizing s with
  | zero => exact good_next s
  | succ k ih =>
    have hgood := good_step s h
    rw [Host.Core.run]
    cases hs : M.step s with
    | next t => exact ih (inv_next s t h hs)
    | fault r | refused r => rwa [hs] at hgood

/-- A run of any length from a state with the invariant is safe: `inv_step` carries the invariant along. -/
theorem safeResult_run (k : Nat) {s : State} (h : s.inv = true) : safeResult (Host.Core.run core k s) = true :=
  run_induction (M := core) (inv := fun s => State.inv s = true) (good := fun r => safeResult r = true)
    (fun _ => rfl) (fun _ => safeResult_step_of_inv) (fun _ _ => inv_step) k h

/-- The invariant does not look at what the host presents, so it holds after reset with any packets at the port. -/
theorem inv_reset_presented (packets : List Packet) : ({ State.reset with port := packets } : State).inv = true := inv_reset

/-- Settles O59. -/
theorem noSequenceIsStuck : Obligations.NoSequenceIsStuck :=
  ⟨fun _ h => safeResult_step_of_inv h, fun k packets => safeResult_run k (inv_reset_presented packets)⟩

end Sys2Proof.Machine
end

section
/-!
PROOFS of the family 60_exceptions.md: when `FieldRange` is raised (obligation O18), and when `UNPACK` fails and with what (O27).
Both hand on the refusals that the families of `ENC`, the registry and `CFG_SETWP_ID` prove.
-/

namespace Sys2Proof.Machine

/-! ### FieldRange (R278) -/

theorem exec_cfgSetwpId_of_fixed {v : U16} (h : isFixedId v = true) (s : State) :
    exec (.cfgSetwpId v) s = .next (finish .fieldRange s) := by
  rw [exec, execCfgSetwpId_eq, if_pos h]

/-- Settles O18: direction 3 names no direction, the V1 ranges fail `encInRange`, and the three ids are the fixed ones. -/
theorem fieldRangeRefusals : Obligations.FieldRangeRefusals := by
  intro v dir func s
  refine ⟨?_, fun taken => ?_, rfl⟩
  · rintro (rfl | ⟨rfl, tooBig⟩)
    · exact exec_enc_of_out_of_range (.inl rfl)
    · exact exec_enc_of_out_of_range (.inr (encInRange_v1_eq_false tooBig))
  · have taken : func = 250 ∨ func = 102 ∨ func = 105 := by simpa using taken
    exact exec_cfgSetwpId_of_fixed ((isFixedId_iff func).2 taken) s

/-! ### NoValidFrame, ConfigUnset, UnexpectedFunction and PayloadLayoutError (R275 to R277, R280) -/

theorem exec_unpack_of_no_frame {s : State} (hf : s.fr = none) :
    exec .unpack s = .next (finish .noValidFrame { s with ds := .none }) := unpackFrame_of_no_frame hf

/-- `UNPACK` of a payload that the registry refuses (R206): the payload and the FR group stay for the host to read. -/
theorem exec_unpack_of_error {s : State} {f : FrameRegs} {p : List Byte} {o : OutcomeCode} (hf : s.fr = some f)
    (hp : pbBytes s = some p) (hi : interpret s.setwpId f.func f.dir p = .error o) :
    exec .unpack s = .next (finish o { s with ds := .none }) := by
  rw [exec, execUnpack, unpackFrame_of_payload hf hp, hi]
  rfl

/-- Settles O27: no frame is held, the held id names no command, or the payload is shorter than its command's schema. -/
theorem unpackRefuses : Obligations.UnpackRefuses := by
  intro s failed
  refine ⟨exec_unpack_of_no_frame, fun f p hf hp => ?_, rfl, rfl, rfl, rfl⟩
  have refused {o : OutcomeCode} (hi : interpret s.setwpId f.func f.dir p = .error o) : exec .unpack s = failed o :=
    exec_unpack_of_error hf hp hi
  refine ⟨fun hd free unset => ?_, fun id hd free hid hne => ?_, fun hd hfunc short => ?_, fun hd hfunc short => ?_,
    fun hd free hid short => ?_⟩
  · exact refused (interpret_of_no_command hd (cmdOf_of_unset free unset))
  · exact refused (interpret_of_no_command hd (cmdOf_of_other_id free hid hne))
  · exact refused (interpret_of_short (cmdOf_of_rawImuId _ hfunc) hd short)
  · exact refused (interpret_of_short (cmdOf_of_rcId _ hfunc) hd short)
  · exact refused (interpret_of_short (cmdOf_of_setwpId free hid) hd short)

end Sys2Proof.Machine
end

section
/-!
PROOFS of the family 70_reset_and_hazards.md: the outcome and the delivered value of each operation issued directly after `RESET`
(obligation O36). The register values that O35 gives meet the conditions under which the other families say how each operation
ends: nothing is computed again for the state after reset.
-/

namespace Sys2Proof.Machine

theorem fbBytes_of_empty {s : State} (h : s.fbLen = 0) : fbBytes s = some [] := by
  rw [fbBytes, h]
  rfl

theorem pbBytes_of_empty {s : State} (h : s.pbLen = 0) : pbBytes s = some [] := by
  rw [pbBytes, h]
  rfl

/-- The operand of `ENC` names a direction unless it is 3 (R93, R103). -/
theorem eq_dirNumber_of_ne_three {n : BitVec 2} (h : n ≠ 3) : ∃ d, n = dirNumber d := by
  have number : n = 0 ∨ n = 1 ∨ n = 2 := by bv_omega
  rcases number with rfl | rfl | rfl
  exacts [⟨.request, rfl⟩, ⟨.response, rfl⟩, ⟨.error, rfl⟩]

/-- `ENC` of the empty payload is accepted for every direction and every id that the format can carry (R164). -/
theorem exec_enc_of_empty {v : Version} {dir : BitVec 2} {func : U16} {s : State} (hdir : dir ≠ 3)
    (hfunc : v = .v1 → func.toNat ≤ 255) (hpb : s.pbLen = 0) :
    ∃ t, exec (.enc v dir func) s = .next t ∧ t.reply = some ⟨.ok, none⟩ := by
  obtain ⟨d, rfl⟩ := eq_dirNumber_of_ne_three hdir
  exact ⟨_, (encResult v func s).1 d [] (pbBytes_of_empty hpb) fun hv => ⟨hfunc hv, by simp [hpb]⟩, rfl⟩

/-- Settles O36: the buffers are empty, no frame, structure or id is held, and the checksum engine and `ERR` read zero (R300);
each operation ends as its own family says for such a state. -/
theorem firstOperationAfterReset : Obligations.FirstOperationAfterReset := by
  intro s t ht ends
  obtain ⟨t', ht', hacc, hmode, hfb, hpb, hfr, hds, hid, herr, -⟩ := resetResult.1 s
  obtain rfl : t = t' := Host.Outcome.next.inj (ht.symm.trans ht')
  obtain ⟨-, hCmp⟩ := checksumReadersResult
  obtain ⟨hSetWp, hRawImu, hRc, hEeprom, hPbClr, hFbClr⟩ := packAndClearResult t
  obtain ⟨⟨rdErr, rdAcc, rdMode, rdFbLen, rdPbLen⟩, -, rdId, -, rdFrame, rdKind, -, rdWp, -, rdImu, -, rdRc, -⟩ :=
    registerReadResult t
  obtain ⟨rdIdSet, rdIdUnset⟩ := rdId hid
  obtain ⟨rdFrValid, rdFr⟩ := rdFrame hfr
  have hkind : dsKind t.ds = 0 := congrArg dsKind hds
  have fbEmpty : t.fbLen.toNat = 0 := congrArg BitVec.toNat hfb
  have pbEmpty : t.pbLen.toNat = 0 := congrArg BitVec.toNat hpb
  have answers {i : Instr} {u : State} {o : OutcomeCode} {v : Option Value} (h : exec i t = .next u)
      (hr : u.reply = some ⟨o, v⟩) : ends i o v := ⟨u, h, hr⟩
  have gives {i : Instr} {v w : Value} (h : exec i t = .next { t with reply := some ⟨.ok, some v⟩ }) (hv : v = w) :
      ends i .ok (some w) := hv ▸ answers h rfl
  refine ⟨fun m => answers (exec_csInit m t) rfl, fun b => answers (exec_csUpd b t) rfl, gives (exec_csRd t) (congrArg _ hacc),
    ?csCmpSame, fun b hb => ?csCmpOther, fun v d func hd hf => exec_enc_of_empty hd hf hpb,
    answers (exec_dec_of_fbBytes (fbBytes_of_empty hfb)) rfl, answers (exec_unpack_of_no_frame hfr) rfl,
    fun w => answers (hSetWp w) rfl, answers hEeprom rfl, fun m => answers (hRawImu m) rfl, fun c => answers (hRc c) rfl,
    answers hFbClr rfl, fun b => ?fbPush, answers (hPbClr.trans hEeprom) rfl, fun b => ?pbPush, fun i => ?fbRd, fun i => ?pbRd,
    fun v h250 h102 h105 => ?configure, answers (i := .reset) rfl rfl, gives rdErr ?err, gives rdAcc (congrArg _ hacc),
    gives rdMode ?mode, gives rdFbLen (congrArg _ hfb), gives rdPbLen (congrArg _ hpb), gives rdIdSet rfl,
    gives rdFrValid rfl, gives rdKind ?kind, answers rdIdUnset rfl, fun r hlo hhi => answers (rdFr r hlo hhi) rfl,
    fun r number => ?noStruct⟩
  case csCmpSame =>
    obtain ⟨same, -⟩ := hCmp 0x00 t
    exact answers (same hacc) rfl
  case csCmpOther =>
    obtain ⟨-, other, -⟩ := hCmp b t
    exact answers (other fun h => hb (h.symm.trans hacc)) rfl
  case fbPush => exact answers (congrArg Host.Outcome.next (pushFrameByte_of_room b (by omega))) rfl
  case pbPush => exact answers (congrArg Host.Outcome.next (pushPayloadByte_of_room b (by omega))) rfl
  case fbRd => exact answers (execFbRd_of_le (i := i) (by omega)) rfl
  case pbRd => exact answers (execPbRd_of_le (i := i) (by omega)) rfl
  case configure =>
    obtain ⟨accepted, -⟩ := configureResult v t
    exact answers (accepted h250 h102 h105) rfl
  case err => rw [herr]; rfl
  case mode => rw [hmode]
  case kind => rw [hds]
  case noStruct =>
    rcases number with ⟨hlo, hhi⟩ | ⟨hlo, hhi⟩ | ⟨hlo, hhi⟩
    · exact answers (rdWp (hkind ▸ by decide) r hlo hhi) rfl
    · exact answers (rdImu (hkind ▸ by decide) r hlo hhi) rfl
    · exact answers (rdRc (hkind ▸ by decide) r hlo hhi) rfl

end Sys2Proof.Machine
end
